-- ==== Sys2Proof/Word.lean ====
section
/-! DEFINITION. The two bit-vector types of the GTC: the 32-bit register word (R11) and the memory byte (R20). -/

namespace Sys2Proof

/-- A register of the window, an operand or a command word: 32 bits (R6, R11, R80). -/
abbrev Word := BitVec 32

/-- One byte of the buffer memory, and one channel of a pixel (R6, R7, R20). -/
abbrev Byte := BitVec 8

end Sys2Proof
end

