-- ==== Sys2Proof/Syntax.lean ====
section
/-! DEFINITION. The commands of the GTC, one constructor per row of spec/opcode_table.json (R81). -/

namespace Sys2Proof

/-- A command. Every operand is a named register (R80); the one operand an encoding carries is the FMT
field of TEX.ENC and TEX.DEC, for which every 4-bit value matches the row (R81, R83). -/
inductive Instr where
  /-- NOP, R140 -/
  | nop
  /-- SRESET, R141 -/
  | sreset
  /-- PACK.1, R33 -/
  | pack1
  /-- PACK.2, R34 -/
  | pack2
  /-- PACK.4, R35 -/
  | pack4
  /-- UNPACK.1, R36 -/
  | unpack1
  /-- UNPACK.2, R37 -/
  | unpack2
  /-- UNPACK.4, R38 -/
  | unpack4
  /-- CVT.E.I4, R44 -/
  | cvtEI4
  /-- CVT.D.I4, R45 -/
  | cvtDI4
  /-- CVT.E.I8, R46 -/
  | cvtEI8
  /-- CVT.D.I8, R47 -/
  | cvtDI8
  /-- CVT.E.IA44, R48 -/
  | cvtEIA44
  /-- CVT.D.IA44, R49 -/
  | cvtDIA44
  /-- CVT.E.IA88, R50 -/
  | cvtEIA88
  /-- CVT.D.IA88, R51 -/
  | cvtDIA88
  /-- CVT.E.RGB565, R52 -/
  | cvtERGB565
  /-- CVT.D.RGB565, R53 -/
  | cvtDRGB565
  /-- CVT.E.RGB5A3, R54 -/
  | cvtERGB5A3
  /-- CVT.D.RGB5A3, R55 -/
  | cvtDRGB5A3
  /-- CVT.E.ARGB8888, R56 -/
  | cvtEARGB8888
  /-- CVT.D.ARGB8888, R57 -/
  | cvtDARGB8888
  /-- CVT.E.ARGB4444, R58 -/
  | cvtEARGB4444
  /-- CVT.D.ARGB4444, R59 -/
  | cvtDARGB4444
  /-- QUANT, R66 -/
  | quant
  /-- QMAP, R67 -/
  | qmap
  /-- PLUT, R68 -/
  | plut
  /-- BC.ENC, R76 -/
  | bcEnc
  /-- BC.DEC, R77 -/
  | bcDec
  /-- TILE.F, R92 -/
  | tileF
  /-- TILE.I, R93 -/
  | tileI
  /-- MIP.DOWN, R103 -/
  | mipDown
  /-- MIP.CHAIN, R104 -/
  | mipChain
  /-- TEX.ENC, R110, with its FMT field -/
  | texEnc (fmt : Nat)
  /-- TEX.DEC, R119, with its FMT field -/
  | texDec (fmt : Nat)
  deriving DecidableEq, Repr

end Sys2Proof
end

