-- ==== Sys2Proof/WellFormed.lean ====
section
/-! DEFINITION. Which instructions have an encoding: the FMT field is four bits wide (R80). -/

namespace Sys2Proof

/-- The FMT field an instruction carries, 0 where its row fixes the field (R81). -/
def Instr.fmtField : Instr → Nat
  | .texEnc fmt => fmt
  | .texDec fmt => fmt
  | _ => 0

/-- An instruction is well formed when its FMT operand fits bits 11:8 of the command word (R80). A value
that is no PixelFormat code is still well formed: its word matches the row and faults when it runs (R83). -/
def Instr.wf (i : Instr) : Bool := i.fmtField < 16

end Sys2Proof
end

