-- ==== Sys2Proof/Decode.lean ====
section
/-! DEFINITION. The command decoder and encoder (R80, R81, R83). -/

namespace Sys2Proof

/-- Bits 31:12 of a command word, which must be 0 (R80). -/
def zeroField (w : Word) : Nat := (w.extractLsb' 12 20).toNat

/-- Bits 11:8 of a command word, the format selector (R80). -/
def fmtBits (w : Word) : Nat := (w.extractLsb' 8 4).toNat

/-- Bits 7:4 of a command word (R80). -/
def unitBits (w : Word) : Nat := (w.extractLsb' 4 4).toNat

/-- Bits 3:0 of a command word (R80). -/
def opBits (w : Word) : Nat := (w.extractLsb' 0 4).toNat

/-- Why a word is no command (R83). -/
inductive DecodeError where
  /-- a bit of ZERO, bits 31:12, is set -/
  | zeroBitsSet
  /-- UNIT is 8 to 15 -/
  | unassignedUnit
  /-- the unit defines no operation with this OP -/
  | undefinedOp
  /-- the row does not allow this FMT -/
  | illegalFmt
  deriving DecidableEq, Repr

/-- A row whose FMT is 0 (R81). -/
def fmtZero (fmt : Nat) (i : Instr) : Except DecodeError Instr :=
  if fmt = 0 then .ok i else .error .illegalFmt

/-- UNIT 0, system (R81). -/
def decodeSystem (op fmt : Nat) : Except DecodeError Instr :=
  match op with
  | 0 => fmtZero fmt .nop
  | 1 => fmtZero fmt .sreset
  | _ => .error .undefinedOp

/-- UNIT 1, BitPacker: FMT is the width 1, 2 or 4 (R81, R83). -/
def decodePacker (op fmt : Nat) : Except DecodeError Instr :=
  match op with
  | 0 =>
    match fmt with
    | 1 => .ok .pack1
    | 2 => .ok .pack2
    | 4 => .ok .pack4
    | _ => .error .illegalFmt
  | 1 =>
    match fmt with
    | 1 => .ok .unpack1
    | 2 => .ok .unpack2
    | 4 => .ok .unpack4
    | _ => .error .illegalFmt
  | _ => .error .undefinedOp

/-- UNIT 2, ColorConverter: FMT is an encoding code, 0 to 7 (R81, R82, R83). -/
def decodeConverter (op fmt : Nat) : Except DecodeError Instr :=
  match op with
  | 0 =>
    match fmt with
    | 0 => .ok .cvtEI4
    | 1 => .ok .cvtEI8
    | 2 => .ok .cvtEIA44
    | 3 => .ok .cvtEIA88
    | 4 => .ok .cvtERGB565
    | 5 => .ok .cvtERGB5A3
    | 6 => .ok .cvtEARGB8888
    | 7 => .ok .cvtEARGB4444
    | _ => .error .illegalFmt
  | 1 =>
    match fmt with
    | 0 => .ok .cvtDI4
    | 1 => .ok .cvtDI8
    | 2 => .ok .cvtDIA44
    | 3 => .ok .cvtDIA88
    | 4 => .ok .cvtDRGB565
    | 5 => .ok .cvtDRGB5A3
    | 6 => .ok .cvtDARGB8888
    | 7 => .ok .cvtDARGB4444
    | _ => .error .illegalFmt
  | _ => .error .undefinedOp

/-- UNIT 3, Quantizer (R81). -/
def decodeQuantizer (op fmt : Nat) : Except DecodeError Instr :=
  match op with
  | 0 => fmtZero fmt .quant
  | 1 => fmtZero fmt .qmap
  | 2 => fmtZero fmt .plut
  | _ => .error .undefinedOp

/-- UNIT 4, BlockCompressor (R81). -/
def decodeBlock (op fmt : Nat) : Except DecodeError Instr :=
  match op with
  | 0 => fmtZero fmt .bcEnc
  | 1 => fmtZero fmt .bcDec
  | _ => .error .undefinedOp

/-- UNIT 5, Tiler (R81). -/
def decodeTiler (op fmt : Nat) : Except DecodeError Instr :=
  match op with
  | 0 => fmtZero fmt .tileF
  | 1 => fmtZero fmt .tileI
  | _ => .error .undefinedOp

/-- UNIT 6, MipBuilder (R81). -/
def decodeMip (op fmt : Nat) : Except DecodeError Instr :=
  match op with
  | 0 => fmtZero fmt .mipDown
  | 1 => fmtZero fmt .mipChain
  | _ => .error .undefinedOp

/-- UNIT 7, pipeline: every FMT matches the row (R81, R83). -/
def decodePipeline (op fmt : Nat) : Except DecodeError Instr :=
  match op with
  | 0 => .ok (.texEnc fmt)
  | 1 => .ok (.texDec fmt)
  | _ => .error .undefinedOp

/-- The decoder of a command word from its fields, `top` being ZERO (R80, R81, R83). -/
def decodeFields (top fmt unit op : Nat) : Except DecodeError Instr :=
  if top ≠ 0 then .error .zeroBitsSet
  else
    match unit with
    | 0 => decodeSystem op fmt
    | 1 => decodePacker op fmt
    | 2 => decodeConverter op fmt
    | 3 => decodeQuantizer op fmt
    | 4 => decodeBlock op fmt
    | 5 => decodeTiler op fmt
    | 6 => decodeMip op fmt
    | 7 => decodePipeline op fmt
    | _ => .error .unassignedUnit

/-- The decoder: total on any word, rejecting by name (R81, R83). -/
def decode (w : Word) : Except DecodeError Instr :=
  decodeFields (zeroField w) (fmtBits w) (unitBits w) (opBits w)

/-- The command word of given FMT, UNIT and OP, ZERO = 0 (R80). -/
def commandWord (fmt unit op : Nat) : Word :=
  BitVec.ofNat 20 0 ++ BitVec.ofNat 4 fmt ++ BitVec.ofNat 4 unit ++ BitVec.ofNat 4 op

/-- The encoder: the word of each row of R81. -/
def encode : Instr → Word
  | .nop => commandWord 0 0 0
  | .sreset => commandWord 0 0 1
  | .pack1 => commandWord 1 1 0
  | .pack2 => commandWord 2 1 0
  | .pack4 => commandWord 4 1 0
  | .unpack1 => commandWord 1 1 1
  | .unpack2 => commandWord 2 1 1
  | .unpack4 => commandWord 4 1 1
  | .cvtEI4 => commandWord 0 2 0
  | .cvtDI4 => commandWord 0 2 1
  | .cvtEI8 => commandWord 1 2 0
  | .cvtDI8 => commandWord 1 2 1
  | .cvtEIA44 => commandWord 2 2 0
  | .cvtDIA44 => commandWord 2 2 1
  | .cvtEIA88 => commandWord 3 2 0
  | .cvtDIA88 => commandWord 3 2 1
  | .cvtERGB565 => commandWord 4 2 0
  | .cvtDRGB565 => commandWord 4 2 1
  | .cvtERGB5A3 => commandWord 5 2 0
  | .cvtDRGB5A3 => commandWord 5 2 1
  | .cvtEARGB8888 => commandWord 6 2 0
  | .cvtDARGB8888 => commandWord 6 2 1
  | .cvtEARGB4444 => commandWord 7 2 0
  | .cvtDARGB4444 => commandWord 7 2 1
  | .quant => commandWord 0 3 0
  | .qmap => commandWord 0 3 1
  | .plut => commandWord 0 3 2
  | .bcEnc => commandWord 0 4 0
  | .bcDec => commandWord 0 4 1
  | .tileF => commandWord 0 5 0
  | .tileI => commandWord 0 5 1
  | .mipDown => commandWord 0 6 0
  | .mipChain => commandWord 0 6 1
  | .texEnc fmt => commandWord fmt 7 0
  | .texDec fmt => commandWord fmt 7 1

/-- The instruction the decoder reads from a row's bits. A command is one 32-bit word (R80), so the word
is `w` cut to `nbits` bits, the bits above them 0. -/
def decodeTableWord (nbits w : Nat) : Option Instr :=
  match decode (BitVec.ofNat 32 (w % 2 ^ nbits)) with
  | .ok i => some i
  | .error _ => none

end Sys2Proof
end

