-- ==== Sys2Proof/Config.lean ====
section
/-! DEFINITION. The implementation parameters of R6 and the free values the spec leaves open. -/

namespace Sys2Proof

/-- A tile's width and height in pixels (R90, R121). -/
structure Tile where
  w : Nat
  h : Nat
  deriving DecidableEq, Repr

/-- TILE_DIMS of R6: the tile of every PixelFormat but DXT1, whose tile R6 fixes at 4×4. -/
structure TileTable where
  i4 : Tile
  i8 : Tile
  ia44 : Tile
  ia88 : Tile
  rgb565 : Tile
  rgb5a3 : Tile
  argb8888 : Tile
  index4 : Tile
  index8 : Tile
  deriving DecidableEq, Repr

/-- The parameters of R6: configuration of one instance, fixed for its life (R178). -/
structure Params where
  /-- MEM_BYTES: the size of the buffer memory in bytes -/
  memBytes : Nat
  /-- TILE_DIMS -/
  tiles : TileTable
  /-- LUMA_WEIGHTS wr, over 256 -/
  lumaR : Nat
  /-- LUMA_WEIGHTS wg, over 256 -/
  lumaG : Nat
  /-- LUMA_WEIGHTS wb, over 256 -/
  lumaB : Nat
  /-- RGB5A3_ALPHA_THRESHOLD: the smallest alpha encoded in the opaque mode -/
  a3Threshold : Nat
  deriving DecidableEq, Repr

namespace Config

/-- FREE VALUE. How many bytes the instance's buffer memory is short of the 2^32 bytes of R6's upper
bound: MEM_BYTES is OPEN in the spec (R6, D2), so nothing is known of it but its range. Log 2. -/
opaque memShortfall : BitVec 32

/-- FREE VALUE. The bytes that R172 calls unspecified (an output region of a command that a reset cut
short), numbered by the counter `fresh` of the state. Log 6. -/
opaque freeByte : Nat → Byte

/-- MEM_BYTES of the instance that leaves reset: some value of 1 to 2^32 (R6). Log 2. -/
def memBytes : Nat := 2 ^ 32 - memShortfall.toNat

/-- The default TILE_DIMS: the tile column of R121. -/
def defaultTiles : TileTable where
  i4 := ⟨8, 4⟩
  i8 := ⟨4, 4⟩
  ia44 := ⟨4, 4⟩
  ia88 := ⟨4, 4⟩
  rgb565 := ⟨4, 4⟩
  rgb5a3 := ⟨4, 4⟩
  argb8888 := ⟨4, 4⟩
  index4 := ⟨8, 4⟩
  index8 := ⟨4, 4⟩

/-- The defaults of R6, for a buffer memory of `n` bytes. -/
def defaultParams (n : Nat) : Params where
  memBytes := n
  tiles := defaultTiles
  lumaR := 77
  lumaG := 150
  lumaB := 29
  a3Threshold := 237

end Config

/-- A tile has at least one row and one column (R6). -/
def Tile.positive (t : Tile) : Bool := 1 ≤ t.w && 1 ≤ t.h

/-- The constraints R6 puts on the parameters. -/
def Params.valid (p : Params) : Bool :=
  1 ≤ p.memBytes && p.memBytes ≤ 2 ^ 32 &&
  p.lumaR + p.lumaG + p.lumaB == 256 &&
  p.a3Threshold ≤ 256 &&
  p.tiles.i4.positive && p.tiles.i8.positive && p.tiles.ia44.positive && p.tiles.ia88.positive &&
  p.tiles.rgb565.positive && p.tiles.rgb5a3.positive && p.tiles.argb8888.positive &&
  p.tiles.index4.positive && p.tiles.index8.positive

end Sys2Proof
end

