-- ==== Sys2Proof/Machine/Types.lean ====
section
/-! DEFINITION. The data kinds of the GTC (R9), the window's names (R11), the fault codes (R151) and the
shape of a command (R86): types only. -/

namespace Sys2Proof.Machine

/-- A pixel: four 8-bit channels (R7). -/
structure Pixel where
  r : Byte
  g : Byte
  b : Byte
  a : Byte
  deriving DecidableEq, Repr

/-- A raster of `w`×`h` pixels in row-major order (R7, R23). -/
structure Raster where
  w : Nat
  h : Nat
  px : List Pixel
  deriving DecidableEq, Repr

/-- A converter target (R82, the column "converter encoding"). -/
inductive Encoding where
  | i4
  | i8
  | ia44
  | ia88
  | rgb565
  | rgb5a3
  | argb8888
  | argb4444
  deriving DecidableEq, Repr

/-- A PixelFormat (R82, R121). -/
inductive PixelFormat where
  | i4
  | i8
  | ia44
  | ia88
  | rgb565
  | rgb5a3
  | argb8888
  | index4
  | index8
  | dxt1
  deriving DecidableEq, Repr

/-- The seventeen registers of the window (R11). -/
inductive Reg where
  | cmd
  | status
  | errinfo
  | options
  | src
  | dst
  | aux
  | count
  | width
  | height
  | tilew
  | tileh
  | esize
  | palsize
  | level
  | dstlen
  | pallen
  deriving DecidableEq, Repr

/-- The fault kinds of R151, in the one numbering the core and the host's reader share. -/
inductive ErrCode where
  /-- 1: the host's Container reader only, never the core (R152) -/
  | corruptHeader
  /-- 2 (R153) -/
  | unsupportedDimensions
  /-- 3 (R154) -/
  | unknownPixelFormat
  /-- 4 (R155) -/
  | tooManyUniqueColors
  /-- 5 (R156) -/
  | illegalCommand
  /-- 6 (R157) -/
  | illegalOperand
  /-- 7 (R158) -/
  | addressError
  deriving DecidableEq, Repr

/-- What `raise <Fault>(info)` of R8 carries: the code for STATUS.ERR and the value for ERRINFO (R151). -/
structure FaultRecord where
  err : ErrCode
  info : Word
  deriving DecidableEq, Repr

/-- A region of the buffer memory: start address and length in bytes, unbounded integers (R20, R26). -/
structure Region where
  start : Nat
  len : Nat
  deriving DecidableEq, Repr

/-- What a command's computation hands to step 7 of R86: the byte runs to write, each at its start
address, and the two lengths of R16. -/
structure Result where
  writes : List (Nat × List Byte)
  dstlen : Nat
  pallen : Nat
  deriving DecidableEq, Repr

/-- A command as R86 runs it: the first failing check of steps 2 to 4, the regions of step 5, and the
computation of step 6 from the bytes of the input regions, in the order they are listed. -/
structure Plan where
  check : Option FaultRecord
  ins : List Region
  outs : List Region
  compute : List (List Byte) → Except FaultRecord Result

/-- The signed diffusion error of one raster column, in units of 1/16 (R65). -/
structure Diffusion where
  r : Int
  g : Int
  b : Int
  a : Int
  deriving DecidableEq, Repr

/-- The width of a host access to the register window (R11). -/
inductive AccessWidth where
  | byte
  | half
  | word
  deriving DecidableEq, Repr

/-- One action of the host agent (R4), as the core and the buffer memory meet it. -/
inductive HostAction where
  /-- a write of `value` at byte offset `offset` of the register window (R11, R12) -/
  | writeReg (width : AccessWidth) (offset : Nat) (value : Word)
  /-- a read at byte offset `offset` of the register window (R11) -/
  | readReg (width : AccessWidth) (offset : Nat)
  /-- the host stores bytes in the buffer memory it owns (R20, R173) -/
  | storeMem (addr : Nat) (bytes : List Byte)
  /-- the host loads one byte of the buffer memory (R20) -/
  | loadMem (addr : Nat)
  /-- the hardware reset, while no command runs (R170, R171) -/
  | reset
  /-- a CMD write of the word, and the hardware reset before that command's end (R170, R172) -/
  | cutByReset (word : Word)
  deriving DecidableEq, Repr

end Sys2Proof.Machine
end

