-- ==== Sys2Proof/Machine/State.lean ====
section
/-! DEFINITION. The state of one GTC instance (R10), the reasons a step can stop, and the state after reset
(R19, R171). -/

namespace Sys2Proof.Machine

/-- The buffer memory: the bytes that have a value, by address, addresses strictly rising (R20). An
unlisted address has NO value: no byte the host or a command has written since power-on stands there (R27). -/
abbrev Memory := List Host.Cell

/-- The state: the seventeen registers of R11 and the buffer memory of R20 (R10), and the model's own
`params`, `host`, `hostData` and `fresh`. -/
structure State where
  /-- the instance's parameters (R6), constant (R178); the model's own field, Log 2 -/
  params : Params
  /-- CMD, R12 -/
  cmd : Word
  /-- STATUS, R13 -/
  status : Word
  /-- ERRINFO, R14 -/
  errinfo : Word
  /-- OPTIONS, R15 -/
  options : Word
  /-- SRC, R11 -/
  src : Word
  /-- DST, R11 -/
  dst : Word
  /-- AUX, R11 -/
  aux : Word
  /-- COUNT, R11 -/
  count : Word
  /-- WIDTH, R11 -/
  width : Word
  /-- HEIGHT, R11 -/
  height : Word
  /-- TILEW, R11 -/
  tilew : Word
  /-- TILEH, R11 -/
  tileh : Word
  /-- ESIZE, R11 -/
  esize : Word
  /-- PALSIZE, R11 -/
  palsize : Word
  /-- LEVEL, R11 -/
  level : Word
  /-- DSTLEN, R16 -/
  dstlen : Word
  /-- PALLEN, R16 -/
  pallen : Word
  /-- the buffer memory, R20 -/
  mem : Memory
  /-- the host's pending actions, in program order; the model's own field, Log 1 -/
  host : List HostAction
  /-- what the host's last read returned; the model's own field, Log 7 -/
  hostData : Word
  /-- how many free bytes have been used; the model's own field, Log 6 -/
  fresh : Nat
  deriving DecidableEq, Repr

/-- Why the machine stops with a fault. The GTC's own faults stop nothing: they are next states with
STATUS.ERR set (R150, R160). -/
inductive Fault where
  /-- Raised by a host load or store of a buffer-memory address at or above MEM_BYTES, which does not
  exist (R20). Safe: the spec gives such an access no meaning. Log 12. -/
  | noSuchAddress
  deriving DecidableEq, Repr

/-- Why a step is refused. -/
inductive Refusal where
  /-- Raised by `exec` for an instruction with no meaning yet. Safe. -/
  | notModelled (mnemonic : String)
  /-- Raised by a command with an input region that holds a byte nothing has written, and by a host
  load of such a byte: the byte's value is unspecified and the model refuses (R27). Safe. Log 3. -/
  | unwrittenByte
  /-- Raised by a host access other than a register read or a reset while STATUS.BUSY = 1, a state no step
  leads to: those R174 and R175 forbid and, by the model's deduction, the others. Safe: the model stops where
  the hardware may go on. Log 5. -/
  | hostAccessWhileBusy
  /-- Raised by a register access that is not one whole aligned 32-bit word (R11). Safe: the spec does
  not define it. Log 4. -/
  | notAWordAccess
  deriving DecidableEq, Repr

/-- The state after reset of an instance with parameters `p` at power-on: all seventeen registers 0 (R19,
R171), no byte of the buffer memory written (R19, R27), and no host action pending (Log 1). -/
def State.resetWith (p : Params) : State where
  params := p
  cmd := 0
  status := 0
  errinfo := 0
  options := 0
  src := 0
  dst := 0
  aux := 0
  count := 0
  width := 0
  height := 0
  tilew := 0
  tileh := 0
  esize := 0
  palsize := 0
  level := 0
  dstlen := 0
  pallen := 0
  mem := []
  host := []
  hostData := 0
  fresh := 0

/-- The machine right after reset, with the default parameters of R6 and a MEM_BYTES that is left open. -/
def State.reset : State := State.resetWith (Config.defaultParams Config.memBytes)

end Sys2Proof.Machine
end

