-- ==== Sys2Proof/Machine/Flags.lean ====
section
/-! DEFINITION. The fields of STATUS (R13) and of OPTIONS (R15), and the fault codes (R151). -/

namespace Sys2Proof.Machine

/-- The value of STATUS.ERR for each fault kind (R151). -/
def ErrCode.code : ErrCode → BitVec 4
  | .corruptHeader => 1
  | .unsupportedDimensions => 2
  | .unknownPixelFormat => 3
  | .tooManyUniqueColors => 4
  | .illegalCommand => 5
  | .illegalOperand => 6
  | .addressError => 7

/-- STATUS from its fields, the reserved bits 3:2 and 31:8 zero (R13). -/
def statusWord (done busy : Bool) (err : BitVec 4) : Word :=
  BitVec.ofNat 24 0 ++ err ++ BitVec.ofNat 2 0 ++ BitVec.ofBool busy ++ BitVec.ofBool done

/-- STATUS.DONE, bit 0 (R13). -/
def State.done (s : State) : Bool := s.status.getLsbD 0

/-- STATUS.BUSY, bit 1 (R13). -/
def State.busy (s : State) : Bool := s.status.getLsbD 1

/-- STATUS.ERR, bits 7:4 (R13). -/
def State.err (s : State) : BitVec 4 := s.status.extractLsb' 4 4

/-- What a write leaves in OPTIONS: bits 31:6 ignore writes and read 0 (R15). -/
def optionsMask (v : Word) : Word := v &&& 0x3F

/-- OPTIONS.MIPMAPS, bit 0 (R15). -/
def State.optMipmaps (s : State) : Bool := s.options.getLsbD 0

/-- OPTIONS.DITHER, bit 1 (R15). -/
def State.optDither (s : State) : Bool := s.options.getLsbD 1

/-- OPTIONS.QUALITY, bit 2: true is best, false is fast (R15). -/
def State.optQuality (s : State) : Bool := s.options.getLsbD 2

/-- OPTIONS.STRICT, bit 3 (R15). -/
def State.optStrict (s : State) : Bool := s.options.getLsbD 3

/-- OPTIONS.PALFMT, bits 5:4 (R15). -/
def State.optPalfmt (s : State) : Nat := (s.options.extractLsb' 4 2).toNat

end Sys2Proof.Machine
end

