-- ==== Sys2Proof/Machine/Ops.lean ====
section
/-! DEFINITION. The named operations over memory, regions, registers and the completion record: what every
command and every host access is built from. -/

namespace Sys2Proof.Machine

/-! ### The buffer memory (R20, R27) -/

/-- The canonical form: addresses strictly rising. -/
abbrev Memory.wf (m : Memory) : Prop := (m.map Prod.fst).Pairwise (· < ·)

/-- Every byte that has a value stands inside the buffer memory, below MEM_BYTES (R20). -/
abbrev Memory.within (m : Memory) (memBytes : Nat) : Prop := ∀ c ∈ m, c.1 < memBytes

/-- The byte at an address; `none` where nothing has written one (R27). -/
def Memory.read (m : Memory) (a : Nat) : Option Byte :=
  match m with
  | [] => none
  | c :: rest => if c.1 = a then some c.2 else Memory.read rest a

/-- One byte stored, in the canonical form. -/
def Memory.write (m : Memory) (a : Nat) (b : Byte) : Memory :=
  match m with
  | [] => [(a, b)]
  | c :: rest =>
    if a < c.1 then (a, b) :: c :: rest
    else if a = c.1 then (a, b) :: rest
    else c :: Memory.write rest a b

/-- MemRead (R8): the `n` bytes from `a`, lowest address first; `none` when one of them has no value. -/
def Memory.readBytes (m : Memory) (a : Nat) : Nat → Option (List Byte)
  | 0 => some []
  | n + 1 =>
    match m.read a with
    | none => none
    | some b =>
      match Memory.readBytes m (a + 1) n with
      | none => none
      | some bs => some (b :: bs)

/-- MemWrite (R8): bytes at consecutive addresses from `a`, lowest address first. -/
def Memory.writeBytes (m : Memory) (a : Nat) : List Byte → Memory
  | [] => m
  | b :: bs => Memory.writeBytes (m.write a b) (a + 1) bs

/-- Several byte runs stored one after the other. -/
def Memory.writeAll (m : Memory) : List (Nat × List Byte) → Memory
  | [] => m
  | r :: rs => Memory.writeAll (m.writeBytes r.1 r.2) rs

/-! ### Regions (R26) -/

/-- A region lies inside the buffer memory; one of length 0 always does (R26 (a)). -/
def Region.inside (r : Region) (memBytes : Nat) : Bool :=
  r.len == 0 || r.start + r.len ≤ memBytes

/-- Two regions share no byte; one of length 0 shares none (R26 (b)). -/
def Region.disjoint (r q : Region) : Bool :=
  r.len == 0 || q.len == 0 || r.start + r.len ≤ q.start || q.start + q.len ≤ r.start

/-- Every output region is disjoint from every input region and from every other output region (R26 (b)). -/
def outputsDisjoint (ins : List Region) : List Region → Bool
  | [] => true
  | o :: os => ins.all o.disjoint && os.all o.disjoint && outputsDisjoint ins os

/-- Region admission (R26). -/
def admitted (memBytes : Nat) (ins outs : List Region) : Bool :=
  ins.all (·.inside memBytes) && outs.all (·.inside memBytes) && outputsDisjoint ins outs

/-- The bytes of every input region, in order; `none` when one holds a byte that has no value (R27). -/
def readRegions (m : Memory) : List Region → Option (List (List Byte))
  | [] => some []
  | r :: rs =>
    match m.readBytes r.start r.len with
    | none => none
    | some bs =>
      match readRegions m rs with
      | none => none
      | some bss => some (bs :: bss)

/-! ### Ending a command (R86, R160) -/

/-- Taking a fault, one atomic step at the command's end: ERR and ERRINFO record it, DSTLEN and PALLEN are
0, DONE is 1 and BUSY 0; memory and the host-writable registers keep what they hold (R160). There is no
return from a fault: the command is over (R161). -/
def State.takeFault (s : State) (f : FaultRecord) : State :=
  { s with
    status := statusWord true false f.err.code
    errinfo := f.info
    dstlen := 0
    pallen := 0 }

/-- A command that succeeds, step 7 of R86: the record of R16 and ERR = 0, ERRINFO = 0, DONE = 1, BUSY = 0. -/
def State.succeed (s : State) (dstlen pallen : Nat) : State :=
  { s with
    status := statusWord true false 0
    errinfo := 0
    dstlen := BitVec.ofNat 32 dstlen
    pallen := BitVec.ofNat 32 pallen }

/-- The first condition of a list that holds, as the fault it raises (R86, R159). -/
def firstFault : List (Bool × FaultRecord) → Option FaultRecord
  | [] => none
  | (bad, f) :: rest => if bad then some f else firstFault rest

/-- A command that ends with a fault whatever the state holds. -/
def Plan.faulting (f : FaultRecord) : Plan where
  check := some f
  ins := []
  outs := []
  compute := fun _ => .error f

/-- Steps 2 to 7 of R86: the register checks, region admission, the read of the input regions (refused by
the model when a byte has no value, R27), the computation, and the write of the outputs. -/
def State.runPlan (s : State) (p : Plan) : Host.Outcome State Fault Refusal :=
  match p.check with
  | some f => .next (s.takeFault f)
  | none =>
    if admitted s.params.memBytes p.ins p.outs then
      match readRegions s.mem p.ins with
      | none => .refused .unwrittenByte
      | some bss =>
        match p.compute bss with
        | .error f => .next (s.takeFault f)
        | .ok r => .next ({ s with mem := s.mem.writeAll r.writes }.succeed r.dstlen r.pallen)
    else .next (s.takeFault ⟨.addressError, 0⟩)

/-! ### Reset (R170 to R172) -/

/-- The hardware reset: all seventeen registers 0, the buffer memory and the parameters as they were
(R171, R172, R178). -/
def State.hardwareReset (s : State) : State :=
  { State.resetWith s.params with
    mem := s.mem
    host := s.host
    hostData := s.hostData
    fresh := s.fresh }

/-- `n` unspecified bytes from address `a` (R172): free values, numbered by the state's counter. -/
def State.freeBytes (s : State) (a n : Nat) : State :=
  { s with
    mem := s.mem.writeBytes a ((List.range n).map fun i => Config.freeByte (s.fresh + i))
    fresh := s.fresh + n }

/-- Every byte of every region unspecified (R172). -/
def State.freeRegions (s : State) : List Region → State
  | [] => s
  | r :: rs => State.freeRegions (s.freeBytes r.start r.len) rs

/-! ### The register window (R11) -/

/-- The register at a byte offset of the window; `none` at the reserved offsets 0x44 and above (R11). -/
def regAt (offset : Nat) : Option Reg :=
  match offset with
  | 0x00 => some .cmd
  | 0x04 => some .status
  | 0x08 => some .errinfo
  | 0x0C => some .options
  | 0x10 => some .src
  | 0x14 => some .dst
  | 0x18 => some .aux
  | 0x1C => some .count
  | 0x20 => some .width
  | 0x24 => some .height
  | 0x28 => some .tilew
  | 0x2C => some .tileh
  | 0x30 => some .esize
  | 0x34 => some .palsize
  | 0x38 => some .level
  | 0x3C => some .dstlen
  | 0x40 => some .pallen
  | _ => none

/-- The byte offset of a register in the window (R11). -/
def Reg.offset : Reg → Nat
  | .cmd => 0x00
  | .status => 0x04
  | .errinfo => 0x08
  | .options => 0x0C
  | .src => 0x10
  | .dst => 0x14
  | .aux => 0x18
  | .count => 0x1C
  | .width => 0x20
  | .height => 0x24
  | .tilew => 0x28
  | .tileh => 0x2C
  | .esize => 0x30
  | .palsize => 0x34
  | .level => 0x38
  | .dstlen => 0x3C
  | .pallen => 0x40

/-- What the host may do to a register: true is read and write, false is read only (R11). -/
def Reg.writable : Reg → Bool
  | .status => false
  | .errinfo => false
  | .dstlen => false
  | .pallen => false
  | _ => true

/-- A register's value; no read has a side effect (R11). -/
def State.readReg (s : State) : Reg → Word
  | .cmd => s.cmd
  | .status => s.status
  | .errinfo => s.errinfo
  | .options => s.options
  | .src => s.src
  | .dst => s.dst
  | .aux => s.aux
  | .count => s.count
  | .width => s.width
  | .height => s.height
  | .tilew => s.tilew
  | .tileh => s.tileh
  | .esize => s.esize
  | .palsize => s.palsize
  | .level => s.level
  | .dstlen => s.dstlen
  | .pallen => s.pallen

/-- The host's write of a whole word: stored as written, but for the reserved bits of OPTIONS (R15) and the
four read-only registers, where it is ignored (R11). The command that a write of CMD starts is
`startCommand`. -/
def State.writeReg (s : State) (v : Word) : Reg → State
  | .cmd => { s with cmd := v }
  | .options => { s with options := optionsMask v }
  | .src => { s with src := v }
  | .dst => { s with dst := v }
  | .aux => { s with aux := v }
  | .count => { s with count := v }
  | .width => { s with width := v }
  | .height => { s with height := v }
  | .tilew => { s with tilew := v }
  | .tileh => { s with tileh := v }
  | .esize => { s with esize := v }
  | .palsize => { s with palsize := v }
  | .level => { s with level := v }
  | .status => s
  | .errinfo => s
  | .dstlen => s
  | .pallen => s

/-- A read of the window at an offset: 0 at the reserved offsets (R11). -/
def State.readWindow (s : State) (offset : Nat) : Word :=
  match regAt offset with
  | some r => s.readReg r
  | none => 0

/-- A write of the window at an offset: ignored at the reserved offsets (R11). -/
def State.writeWindow (s : State) (offset : Nat) (v : Word) : State :=
  match regAt offset with
  | some r => s.writeReg v r
  | none => s

end Sys2Proof.Machine
end

