-- ==== Sys2Proof/Machine/Operands.lean ====
section
/-! DEFINITION. Every operand form: big-endian values (R21), pixels and rasters (R23), elements (R24), the
format tables (R82, R121), and the checks on register values (R91, R153, R157). -/

namespace Sys2Proof.Machine

/-! ### Integers, bytes, elements -/

/-- `ceil_div(a, b)` (R7). -/
def ceilDiv (a b : Nat) : Nat := (a + b - 1) / b

/-- `c[hi:lo]` of an unsigned integer (R7), as `w = hi - lo + 1` bits from bit `lo`. -/
def bitField (c lo w : Nat) : Nat := (c >>> lo) % 2 ^ w

/-- `BE_n(v)`: the most significant byte at the lowest address (R21). -/
def bigEndian (n v : Nat) : List Byte :=
  (List.range n).map fun i => BitVec.ofNat 8 (v >>> (8 * (n - 1 - i)))

/-- `FromBE(bytes)` (R21). -/
def fromBigEndian (bs : List Byte) : Nat :=
  bs.foldl (fun v b => v * 256 + b.toNat) 0

/-- Element `k` of a stream of `size`-byte elements, as its bytes (R24). -/
def elementBytes (size : Nat) (bs : List Byte) (k : Nat) : List Byte :=
  (bs.drop (size * k)).take size

/-- A stream of `n` elements of `size` bytes, each read big-endian (R24). -/
def elementsOf (size n : Nat) (bs : List Byte) : List Nat :=
  (List.range n).map fun k => fromBigEndian (elementBytes size bs k)

/-- A stream of elements of `size` bytes, each stored big-endian (R24). -/
def elementStream (size : Nat) (codes : List Nat) : List Byte :=
  codes.flatMap (bigEndian size)

/-- Bytes as unsigned integers. -/
def byteValues (bs : List Byte) : List Nat := bs.map BitVec.toNat

/-- Integers below 256 as bytes. -/
def valueBytes (vs : List Nat) : List Byte := vs.map (BitVec.ofNat 8)

/-! ### Pixels and rasters (R23) -/

/-- The pixel of four channel values, each taken to 8 bits. -/
def Pixel.ofNats (r g b a : Nat) : Pixel :=
  ⟨BitVec.ofNat 8 r, BitVec.ofNat 8 g, BitVec.ofNat 8 b, BitVec.ofNat 8 a⟩

/-- The pixel with every channel 0. -/
def Pixel.zero : Pixel := ⟨0, 0, 0, 0⟩

/-- The four bytes of a pixel: red, green, blue, alpha in ascending address (R23). -/
def Pixel.bytes (p : Pixel) : List Byte := [p.r, p.g, p.b, p.a]

/-- RdPix (R8): pixel `k` of a byte run. -/
def pixelAt (bs : List Byte) (k : Nat) : Pixel :=
  ⟨bs.getD (4 * k) 0, bs.getD (4 * k + 1) 0, bs.getD (4 * k + 2) 0, bs.getD (4 * k + 3) 0⟩

/-- The first `n` pixels of a byte run (R23). -/
def pixelsOf (n : Nat) (bs : List Byte) : List Pixel :=
  (List.range n).map (pixelAt bs)

/-- WrPix (R8) for a run of pixels: their bytes, in order. -/
def pixelBytes (px : List Pixel) : List Byte :=
  px.flatMap Pixel.bytes

/-! ### Format tables (R82, R118, R121) -/

/-- The PixelFormat of an FMT code; `none` for 7, 10 to 13, 15 and anything that is no code (R82). -/
def PixelFormat.ofCode (fmt : Nat) : Option PixelFormat :=
  match fmt with
  | 0 => some .i4
  | 1 => some .i8
  | 2 => some .ia44
  | 3 => some .ia88
  | 4 => some .rgb565
  | 5 => some .rgb5a3
  | 6 => some .argb8888
  | 8 => some .index4
  | 9 => some .index8
  | 14 => some .dxt1
  | _ => none

/-- The FMT code of a PixelFormat (R82). -/
def PixelFormat.code : PixelFormat → Nat
  | .i4 => 0
  | .i8 => 1
  | .ia44 => 2
  | .ia88 => 3
  | .rgb565 => 4
  | .rgb5a3 => 5
  | .argb8888 => 6
  | .index4 => 8
  | .index8 => 9
  | .dxt1 => 14

/-- Bits per pixel (R121). -/
def PixelFormat.bpp : PixelFormat → Nat
  | .i4 => 4
  | .i8 => 8
  | .ia44 => 8
  | .ia88 => 16
  | .rgb565 => 16
  | .rgb5a3 => 16
  | .argb8888 => 32
  | .index4 => 4
  | .index8 => 8
  | .dxt1 => 4

/-- The palette capacity, `none` for a format without a palette (R121). -/
def PixelFormat.cap : PixelFormat → Option Nat
  | .index4 => some 16
  | .index8 => some 256
  | _ => none

/-- The tile of a format: TILE_DIMS, and 4×4 for DXT1 always (R6, R121). -/
def formatTile (p : Params) : PixelFormat → Tile
  | .i4 => p.tiles.i4
  | .i8 => p.tiles.i8
  | .ia44 => p.tiles.ia44
  | .ia88 => p.tiles.ia88
  | .rgb565 => p.tiles.rgb565
  | .rgb5a3 => p.tiles.rgb5a3
  | .argb8888 => p.tiles.argb8888
  | .index4 => p.tiles.index4
  | .index8 => p.tiles.index8
  | .dxt1 => ⟨4, 4⟩

/-- The bytes of an element of an encoding (R43). -/
def Encoding.elementSize : Encoding → Nat
  | .i4 => 1
  | .i8 => 1
  | .ia44 => 1
  | .ia88 => 2
  | .rgb565 => 2
  | .rgb5a3 => 2
  | .argb8888 => 4
  | .argb4444 => 2

/-- The palette-entry encoding OPTIONS.PALFMT names (R118). -/
def paletteEncoding (palfmt : Nat) : Encoding :=
  match palfmt with
  | 0 => .ia88
  | 1 => .rgb565
  | 2 => .rgb5a3
  | _ => .argb8888

/-! ### Checks on register values -/

/-- WIDTH or HEIGHT outside 1 to 65535 (R153). -/
def dimsOutOfRange (w h : Nat) : Bool := w == 0 || 65535 < w || h == 0 || 65535 < h

/-- A dimension check that fails against a tile of `tw`×`th` (R91, R110, R119). -/
def dimsNotTiled (w h tw th : Nat) : Bool :=
  dimsOutOfRange w h || w % tw != 0 || h % th != 0

/-- PALSIZE outside 1 to `cap` (R60, R110). -/
def palsizeIllegal (k cap : Nat) : Bool := k == 0 || cap < k

/-- UnsupportedDimensions with ERRINFO 0 (R153). -/
def badDimensions : FaultRecord := ⟨.unsupportedDimensions, 0⟩

/-- IllegalOperand with ERRINFO 0 (R157). -/
def badOperand : FaultRecord := ⟨.illegalOperand, 0⟩

/-- The operand registers as unsigned integers (R7, R11). -/
def State.srcAddr (s : State) : Nat := s.src.toNat

/-- `reg[DST]` (R11). -/
def State.dstAddr (s : State) : Nat := s.dst.toNat

/-- `reg[AUX]` (R11). -/
def State.auxAddr (s : State) : Nat := s.aux.toNat

/-- `reg[COUNT]` (R11). -/
def State.countVal (s : State) : Nat := s.count.toNat

/-- `reg[WIDTH]` (R11). -/
def State.widthVal (s : State) : Nat := s.width.toNat

/-- `reg[HEIGHT]` (R11). -/
def State.heightVal (s : State) : Nat := s.height.toNat

/-- `reg[PALSIZE]` (R11). -/
def State.palsizeVal (s : State) : Nat := s.palsize.toNat

/-- The shape of a command with one input region at SRC, one output region at DST and no checks: the
stream commands (R30, R43, R76, R77). -/
def streamPlan (s : State) (inLen outLen : Nat) (f : List Byte → List Byte) : Plan where
  check := none
  ins := [⟨s.srcAddr, inLen⟩]
  outs := [⟨s.dstAddr, outLen⟩]
  compute := fun bss =>
    .ok { writes := [(s.dstAddr, f (bss.headD []))], dstlen := outLen, pallen := 0 }

end Sys2Proof.Machine
end

