-- ==== Sys2Proof/Machine/Color.lean ====
section
/-! DEFINITION. ColorConverter (41_colorconverter.md). -/

namespace Sys2Proof.Machine

/-! ### Channel primitives -/

/-- `q_n(v)`: narrowing to the nearest n-bit code (R40). -/
def narrow (n v : Nat) : Nat := (v * (2 ^ n - 1) + 127) / 255

/-- `x_8(c)` (R41). -/
def widen8 (c : Nat) : Nat := c

/-- `x_6(c)` (R41). -/
def widen6 (c : Nat) : Nat := (c <<< 2) ||| (c >>> 4)

/-- `x_5(c)` (R41). -/
def widen5 (c : Nat) : Nat := (c <<< 3) ||| (c >>> 2)

/-- `x_4(c)` (R41). -/
def widen4 (c : Nat) : Nat := (c <<< 4) ||| c

/-- `x_3(c)` (R41). -/
def widen3 (c : Nat) : Nat := (c <<< 5) ||| (c <<< 2) ||| (c >>> 1)

/-- The luminance `Y` of a pixel (R42). -/
def luma (p : Params) (x : Pixel) : Nat :=
  (p.lumaR * x.r.toNat + p.lumaG * x.g.toNat + p.lumaB * x.b.toNat + 128) >>> 8

/-! ### Enc_f, the code of a pixel in each encoding -/

/-- `Enc_I4` (R44). -/
def encI4 (p : Params) (x : Pixel) : Nat := narrow 4 (luma p x)

/-- `Enc_I8` (R46). -/
def encI8 (p : Params) (x : Pixel) : Nat := luma p x

/-- `Enc_IA44` (R48). -/
def encIA44 (p : Params) (x : Pixel) : Nat := (narrow 4 x.a.toNat <<< 4) ||| narrow 4 (luma p x)

/-- `Enc_IA88` (R50). -/
def encIA88 (p : Params) (x : Pixel) : Nat := (x.a.toNat <<< 8) ||| luma p x

/-- `Enc_RGB565` (R52). -/
def encRGB565 (x : Pixel) : Nat :=
  (narrow 5 x.r.toNat <<< 11) ||| (narrow 6 x.g.toNat <<< 5) ||| narrow 5 x.b.toNat

/-- `Enc_RGB5A3`: the opaque mode from the threshold up, the alpha mode below it (R54, C1). -/
def encRGB5A3 (p : Params) (x : Pixel) : Nat :=
  if p.a3Threshold ≤ x.a.toNat then
    0x8000 ||| (narrow 5 x.r.toNat <<< 10) ||| (narrow 5 x.g.toNat <<< 5) ||| narrow 5 x.b.toNat
  else
    (narrow 3 x.a.toNat <<< 12) ||| (narrow 4 x.r.toNat <<< 8) ||| (narrow 4 x.g.toNat <<< 4) |||
      narrow 4 x.b.toNat

/-- `Enc_ARGB8888` (R56). -/
def encARGB8888 (x : Pixel) : Nat :=
  (x.a.toNat <<< 24) ||| (x.r.toNat <<< 16) ||| (x.g.toNat <<< 8) ||| x.b.toNat

/-- `Enc_ARGB4444` (R58). -/
def encARGB4444 (x : Pixel) : Nat :=
  (narrow 4 x.a.toNat <<< 12) ||| (narrow 4 x.r.toNat <<< 8) ||| (narrow 4 x.g.toNat <<< 4) |||
    narrow 4 x.b.toNat

/-- `Enc_f` of an encoding (R43). -/
def encodePixel (p : Params) : Encoding → Pixel → Nat
  | .i4, x => encI4 p x
  | .i8, x => encI8 p x
  | .ia44, x => encIA44 p x
  | .ia88, x => encIA88 p x
  | .rgb565, x => encRGB565 x
  | .rgb5a3, x => encRGB5A3 p x
  | .argb8888, x => encARGB8888 x
  | .argb4444, x => encARGB4444 x

/-! ### Dec_f, the pixel of a code in each encoding -/

/-- `Dec_I4`: bits 7:4 of the element byte are ignored (R45). -/
def decI4 (c : Nat) : Pixel :=
  Pixel.ofNats (widen4 (bitField c 0 4)) (widen4 (bitField c 0 4)) (widen4 (bitField c 0 4)) 255

/-- `Dec_I8` (R47). -/
def decI8 (c : Nat) : Pixel :=
  Pixel.ofNats (widen8 (bitField c 0 8)) (widen8 (bitField c 0 8)) (widen8 (bitField c 0 8)) 255

/-- `Dec_IA44` (R49). -/
def decIA44 (c : Nat) : Pixel :=
  Pixel.ofNats (widen4 (bitField c 0 4)) (widen4 (bitField c 0 4)) (widen4 (bitField c 0 4))
    (widen4 (bitField c 4 4))

/-- `Dec_IA88` (R51). -/
def decIA88 (c : Nat) : Pixel :=
  Pixel.ofNats (bitField c 0 8) (bitField c 0 8) (bitField c 0 8) (bitField c 8 8)

/-- `Dec_RGB565`: alpha forced opaque (R53). -/
def decRGB565 (c : Nat) : Pixel :=
  Pixel.ofNats (widen5 (bitField c 11 5)) (widen6 (bitField c 5 6)) (widen5 (bitField c 0 5)) 255

/-- `Dec_RGB5A3`: bit 15 selects the mode (R55). -/
def decRGB5A3 (c : Nat) : Pixel :=
  if bitField c 15 1 = 1 then
    Pixel.ofNats (widen5 (bitField c 10 5)) (widen5 (bitField c 5 5)) (widen5 (bitField c 0 5)) 255
  else
    Pixel.ofNats (widen4 (bitField c 8 4)) (widen4 (bitField c 4 4)) (widen4 (bitField c 0 4))
      (widen3 (bitField c 12 3))

/-- `Dec_ARGB8888` (R57). -/
def decARGB8888 (c : Nat) : Pixel :=
  Pixel.ofNats (bitField c 16 8) (bitField c 8 8) (bitField c 0 8) (bitField c 24 8)

/-- `Dec_ARGB4444` (R59). -/
def decARGB4444 (c : Nat) : Pixel :=
  Pixel.ofNats (widen4 (bitField c 8 4)) (widen4 (bitField c 4 4)) (widen4 (bitField c 0 4))
    (widen4 (bitField c 12 4))

/-- `Dec_f` of an encoding (R43). -/
def decodePixel : Encoding → Nat → Pixel
  | .i4, c => decI4 c
  | .i8, c => decI8 c
  | .ia44, c => decIA44 c
  | .ia88, c => decIA88 c
  | .rgb565, c => decRGB565 c
  | .rgb5a3, c => decRGB5A3 c
  | .argb8888, c => decARGB8888 c
  | .argb4444, c => decARGB4444 c

/-! ### The sixteen commands -/

/-- The shape of CVT.E.f (R43). -/
def cvtEPlan (f : Encoding) (s : State) : Plan :=
  streamPlan s (4 * s.countVal) (f.elementSize * s.countVal) fun bs =>
    elementStream f.elementSize ((pixelsOf s.countVal bs).map (encodePixel s.params f))

/-- The shape of CVT.D.f (R43). -/
def cvtDPlan (f : Encoding) (s : State) : Plan :=
  streamPlan s (f.elementSize * s.countVal) (4 * s.countVal) fun bs =>
    pixelBytes ((elementsOf f.elementSize s.countVal bs).map (decodePixel f))

/-- CVT.E.I4 (R44). -/
def execCvtEI4 (s : State) : Host.Outcome State Fault Refusal := s.runPlan (cvtEPlan .i4 s)

/-- CVT.D.I4 (R45). -/
def execCvtDI4 (s : State) : Host.Outcome State Fault Refusal := s.runPlan (cvtDPlan .i4 s)

/-- CVT.E.I8 (R46). -/
def execCvtEI8 (s : State) : Host.Outcome State Fault Refusal := s.runPlan (cvtEPlan .i8 s)

/-- CVT.D.I8 (R47). -/
def execCvtDI8 (s : State) : Host.Outcome State Fault Refusal := s.runPlan (cvtDPlan .i8 s)

/-- CVT.E.IA44 (R48). -/
def execCvtEIA44 (s : State) : Host.Outcome State Fault Refusal := s.runPlan (cvtEPlan .ia44 s)

/-- CVT.D.IA44 (R49). -/
def execCvtDIA44 (s : State) : Host.Outcome State Fault Refusal := s.runPlan (cvtDPlan .ia44 s)

/-- CVT.E.IA88 (R50). -/
def execCvtEIA88 (s : State) : Host.Outcome State Fault Refusal := s.runPlan (cvtEPlan .ia88 s)

/-- CVT.D.IA88 (R51). -/
def execCvtDIA88 (s : State) : Host.Outcome State Fault Refusal := s.runPlan (cvtDPlan .ia88 s)

/-- CVT.E.RGB565 (R52). -/
def execCvtERGB565 (s : State) : Host.Outcome State Fault Refusal := s.runPlan (cvtEPlan .rgb565 s)

/-- CVT.D.RGB565 (R53). -/
def execCvtDRGB565 (s : State) : Host.Outcome State Fault Refusal := s.runPlan (cvtDPlan .rgb565 s)

/-- CVT.E.RGB5A3 (R54). -/
def execCvtERGB5A3 (s : State) : Host.Outcome State Fault Refusal := s.runPlan (cvtEPlan .rgb5a3 s)

/-- CVT.D.RGB5A3 (R55). -/
def execCvtDRGB5A3 (s : State) : Host.Outcome State Fault Refusal := s.runPlan (cvtDPlan .rgb5a3 s)

/-- CVT.E.ARGB8888 (R56). -/
def execCvtEARGB8888 (s : State) : Host.Outcome State Fault Refusal :=
  s.runPlan (cvtEPlan .argb8888 s)

/-- CVT.D.ARGB8888 (R57). -/
def execCvtDARGB8888 (s : State) : Host.Outcome State Fault Refusal :=
  s.runPlan (cvtDPlan .argb8888 s)

/-- CVT.E.ARGB4444 (R58). -/
def execCvtEARGB4444 (s : State) : Host.Outcome State Fault Refusal :=
  s.runPlan (cvtEPlan .argb4444 s)

/-- CVT.D.ARGB4444 (R59). -/
def execCvtDARGB4444 (s : State) : Host.Outcome State Fault Refusal :=
  s.runPlan (cvtDPlan .argb4444 s)

end Sys2Proof.Machine
end

