-- ==== Sys2Proof/Machine/Packer.lean ====
section
/-! DEFINITION. BitPacker and BitUnpacker (40_bitpacker.md). -/

namespace Sys2Proof.Machine

/-- The packed length of `n` values of `w` bits (R30). -/
def packedLen (n w : Nat) : Nat := ceilDiv (n * w) 8

/-- Slot `k` of a packed stream: the low `w` bits of value `k`, 0 past the last value (R31). -/
def packSlot (w : Nat) (v : List Nat) (k : Nat) : Nat := v.getD k 0 % 2 ^ w

/-- Byte `j` of a packed stream: slot `i` at bits 7 - w·i down to 8 - w - w·i (R22, R31). -/
def packByte (w : Nat) (v : List Nat) (j : Nat) : Byte :=
  BitVec.ofNat 8
    ((List.range (8 / w)).map fun i => packSlot w v (j * (8 / w) + i) <<< (8 - w - w * i)).sum

/-- `Pack(v, w)` (R31). -/
def pack (w : Nat) (v : List Nat) : List Byte :=
  (List.range (packedLen v.length w)).map (packByte w v)

/-- `Unpack(B, w, n)` (R32). -/
def unpack (w n : Nat) (bs : List Byte) : List Nat :=
  (List.range n).map fun k =>
    bitField (bs.getD (k / (8 / w)) 0).toNat (8 - w - w * (k % (8 / w))) w

/-- The shape of PACK.w (R33 to R35). -/
def packPlan (w : Nat) (s : State) : Plan :=
  streamPlan s s.countVal (packedLen s.countVal w) fun bs => pack w (byteValues bs)

/-- The shape of UNPACK.w (R36 to R38). -/
def unpackPlan (w : Nat) (s : State) : Plan :=
  streamPlan s (packedLen s.countVal w) s.countVal fun bs => valueBytes (unpack w s.countVal bs)

/-- PACK.1 (R33). -/
def execPack1 (s : State) : Host.Outcome State Fault Refusal := s.runPlan (packPlan 1 s)

/-- PACK.2 (R34). -/
def execPack2 (s : State) : Host.Outcome State Fault Refusal := s.runPlan (packPlan 2 s)

/-- PACK.4 (R35). -/
def execPack4 (s : State) : Host.Outcome State Fault Refusal := s.runPlan (packPlan 4 s)

/-- UNPACK.1 (R36). -/
def execUnpack1 (s : State) : Host.Outcome State Fault Refusal := s.runPlan (unpackPlan 1 s)

/-- UNPACK.2 (R37). -/
def execUnpack2 (s : State) : Host.Outcome State Fault Refusal := s.runPlan (unpackPlan 2 s)

/-- UNPACK.4 (R38). -/
def execUnpack4 (s : State) : Host.Outcome State Fault Refusal := s.runPlan (unpackPlan 4 s)

end Sys2Proof.Machine
end

