-- ==== Sys2Proof/Machine/Search.lean ====
section
/-! DEFINITION. The two searches every tie rule of the spec is stated with: the least index of the smallest
and of the largest value of a list (R62, R63, R70, R71, R73). -/

namespace Sys2Proof.Machine

/-- The search of `argMin` past its first element: `best` is the smallest value so far, `at0` its index and
`next` the index of the head of the list. -/
def argMinFrom (best at0 next : Nat) : List Nat → Nat
  | [] => at0
  | d :: ds => if d < best then argMinFrom d next (next + 1) ds else argMinFrom best at0 (next + 1) ds

/-- The least index at which a list is smallest; 0 for the empty list. -/
def argMin : List Nat → Nat
  | [] => 0
  | d :: ds => argMinFrom d 0 1 ds

/-- The search of `argMax` past its first element. -/
def argMaxFrom (best at0 next : Nat) : List Nat → Nat
  | [] => at0
  | d :: ds => if best < d then argMaxFrom d next (next + 1) ds else argMaxFrom best at0 (next + 1) ds

/-- The least index at which a list is largest; 0 for the empty list. -/
def argMax : List Nat → Nat
  | [] => 0
  | d :: ds => argMaxFrom d 0 1 ds

/-- The square of the difference of two channel values. -/
def sqDiff (x y : Byte) : Nat := ((x.toNat : Int) - (y.toNat : Int)).natAbs ^ 2

end Sys2Proof.Machine
end

