-- ==== Sys2Proof/Machine/Block.lean ====
section
/-! DEFINITION. BlockCompressor (43_blockcompressor.md). -/

namespace Sys2Proof.Machine

/-- `d3(p, s)`, the squared RGB distance: alpha takes no part (R70). -/
def distRGB (p q : Pixel) : Nat := sqDiff p.r q.r + sqDiff p.g q.g + sqDiff p.b q.b

/-- The 120 pairs (i, j), 0 ≤ i < j ≤ 15, in the order (0,1), (0,2), ..., (14,15) (R70). -/
def pixelPairs : List (Nat × Nat) :=
  (List.range 16).flatMap fun i => ((List.range 16).filter (i < ·)).map fun j => (i, j)

/-- Pixel `k` of a block. -/
def blockPixel (blk : List Pixel) (k : Nat) : Pixel := blk.getD k Pixel.zero

/-- The endpoints of the exact search: the first pair at the largest distance (R70). -/
def endpointsBest (blk : List Pixel) : Pixel × Pixel :=
  let dists := pixelPairs.map fun ij => distRGB (blockPixel blk ij.1) (blockPixel blk ij.2)
  let ij := pixelPairs.getD (argMax dists) (0, 1)
  (blockPixel blk ij.1, blockPixel blk ij.2)

/-- The endpoints of the fast search: the first pixels of largest and of smallest luminance (R71). -/
def endpointsFast (p : Params) (blk : List Pixel) : Pixel × Pixel :=
  let ys := blk.map (luma p)
  (blockPixel blk (argMax ys), blockPixel blk (argMin ys))

/-- `(m × x + n × y + 1) div 3` on the colour channels, alpha 255: a third of the way (R72). -/
def blendThird (m n : Nat) (x y : Pixel) : Pixel :=
  Pixel.ofNats ((m * x.r.toNat + n * y.r.toNat + 1) / 3) ((m * x.g.toNat + n * y.g.toNat + 1) / 3)
    ((m * x.b.toNat + n * y.b.toNat + 1) / 3) 255

/-- The four colours of a block, whatever the order of its codes (R72). -/
def blockColours (c0 c1 : Nat) : List Pixel :=
  let e0 := decRGB565 c0
  let e1 := decRGB565 c1
  [e0, e1, blendThird 2 1 e0 e1, blendThird 1 2 e0 e1]

/-- A compressed block: the two endpoint codes and the sixteen indices (R73). -/
structure Compressed where
  c0 : Nat
  c1 : Nat
  idx : List Nat
  deriving DecidableEq, Repr

/-- `CompressBlock(p, quality)`, `best` true for the exact search; the codes are swapped where needed so that
the stored endpoint0 is not below endpoint1 (R73). -/
def compressBlock (p : Params) (best : Bool) (blk : List Pixel) : Compressed :=
  let ends := if best then endpointsBest blk else endpointsFast p blk
  let ca := encRGB565 ends.1
  let cb := encRGB565 ends.2
  let c0 := if ca < cb then cb else ca
  let c1 := if ca < cb then ca else cb
  { c0 := c0, c1 := c1, idx := blk.map fun x => argMin ((blockColours c0 c1).map (distRGB x)) }

/-- The 8 bytes of a block (R74). -/
def Compressed.bytes (c : Compressed) : List Byte :=
  bigEndian 2 c.c0 ++ bigEndian 2 c.c1 ++ pack 2 c.idx

/-- `DecompressBlock(B)`: every 8-byte string decodes (R75). -/
def decompressBlock (bs : List Byte) : List Pixel :=
  let colours := blockColours (fromBigEndian (bs.take 2)) (fromBigEndian ((bs.drop 2).take 2))
  (unpack 2 16 (bs.drop 4)).map fun i => colours.getD i Pixel.zero

/-- The blocks of sixteen pixels of a pixel run compressed one after the other (R76, R117). -/
def compressBlocks (p : Params) (best : Bool) (n : Nat) (px : List Pixel) : List Byte :=
  (List.range n).flatMap fun m => (compressBlock p best ((px.drop (16 * m)).take 16)).bytes

/-- `n` blocks of 8 bytes decompressed one after the other (R77, R120). -/
def decompressBlocks (n : Nat) (bs : List Byte) : List Pixel :=
  (List.range n).flatMap fun m => decompressBlock ((bs.drop (8 * m)).take 8)

/-- BC.ENC (R76). -/
def bcEncPlan (s : State) : Plan :=
  streamPlan s (64 * s.countVal) (8 * s.countVal) fun bs =>
    compressBlocks s.params s.optQuality s.countVal (pixelsOf (16 * s.countVal) bs)

/-- BC.DEC (R77). -/
def bcDecPlan (s : State) : Plan :=
  streamPlan s (8 * s.countVal) (64 * s.countVal) fun bs =>
    pixelBytes (decompressBlocks s.countVal bs)

/-- BC.ENC (R76). -/
def execBcEnc (s : State) : Host.Outcome State Fault Refusal := s.runPlan (bcEncPlan s)

/-- BC.DEC (R77). -/
def execBcDec (s : State) : Host.Outcome State Fault Refusal := s.runPlan (bcDecPlan s)

end Sys2Proof.Machine
end

