-- ==== Sys2Proof/Machine/Mip.lean ====
section
/-! DEFINITION. MipBuilder (45_mipbuilder.md). -/

namespace Sys2Proof.Machine

/-- `w_N = max(1, W >> N)`, and `h_N` likewise (R100). -/
def levelDim (base n : Nat) : Nat := max 1 (base >>> n)

/-- The number of levels down to 1×1: `1 + floor(log2(max(W, H, 1)))` (R100, R111). -/
def chainLevels (w h : Nat) : Nat := 1 + Nat.log2 (max (max w h) 1)

/-- `px[row × W + col]` of a raster (R7). -/
def Raster.pixel (r : Raster) (row col : Nat) : Pixel := r.px.getD (row * r.w + col) Pixel.zero

/-- The rounded mean of one channel over the four samples of a box (R101). -/
def boxAverage (x0 x1 x2 x3 : Byte) : Nat :=
  (x0.toNat + x1.toNat + x2.toNat + x3.toNat + 2) >>> 2

/-- Pixel (x, y) of the next level: the mean of the clamped 2×2 box (R101). -/
def downPixel (r : Raster) (x y : Nat) : Pixel :=
  let x0 := min (2 * x) (r.w - 1)
  let x1 := min (2 * x + 1) (r.w - 1)
  let y0 := min (2 * y) (r.h - 1)
  let y1 := min (2 * y + 1) (r.h - 1)
  let p0 := r.pixel y0 x0
  let p1 := r.pixel y0 x1
  let p2 := r.pixel y1 x0
  let p3 := r.pixel y1 x1
  Pixel.ofNats (boxAverage p0.r p1.r p2.r p3.r) (boxAverage p0.g p1.g p2.g p3.g)
    (boxAverage p0.b p1.b p2.b p3.b) (boxAverage p0.a p1.a p2.a p3.a)

/-- `Down(px, w, h)` (R101). -/
def downRaster (r : Raster) : Raster :=
  let w := max 1 (r.w >>> 1)
  let h := max 1 (r.h >>> 1)
  { w := w, h := h, px := (List.range (w * h)).map fun k => downPixel r (k % w) (k / w) }

/-- `n` rasters, each the downsampling of the one before it (R102). -/
def chainFrom : Nat → Raster → List Raster
  | 0, _ => []
  | n + 1, r => r :: chainFrom n (downRaster r)

/-- `BuildChain(px, W, H)`: every level down to 1×1, the base first (R102). -/
def buildChain (r : Raster) : List Raster := chainFrom (chainLevels r.w r.h) r

/-- `chainlen`, the bytes of a whole chain (R104). -/
def chainBytes (w h : Nat) : Nat :=
  ((List.range (chainLevels w h)).map fun n => 4 * levelDim w n * levelDim h n).sum

/-- The W×H raster a byte run holds (R23). -/
def rasterOf (w h : Nat) (bs : List Byte) : Raster :=
  { w := w, h := h, px := pixelsOf (w * h) bs }

/-- MIP.DOWN (R103). -/
def mipDownPlan (s : State) : Plan where
  check := firstFault [(dimsOutOfRange s.widthVal s.heightVal, badDimensions)]
  ins := [⟨s.srcAddr, 4 * (s.widthVal * s.heightVal)⟩]
  outs := [⟨s.dstAddr, 4 * levelDim s.widthVal 1 * levelDim s.heightVal 1⟩]
  compute := fun bss =>
    .ok
      { writes :=
          [(s.dstAddr,
            pixelBytes (downRaster (rasterOf s.widthVal s.heightVal (bss.headD []))).px)]
        dstlen := 4 * levelDim s.widthVal 1 * levelDim s.heightVal 1
        pallen := 0 }

/-- MIP.CHAIN (R104). -/
def mipChainPlan (s : State) : Plan where
  check := firstFault [(dimsOutOfRange s.widthVal s.heightVal, badDimensions)]
  ins := [⟨s.srcAddr, 4 * (s.widthVal * s.heightVal)⟩]
  outs := [⟨s.dstAddr, chainBytes s.widthVal s.heightVal⟩]
  compute := fun bss =>
    .ok
      { writes :=
          [(s.dstAddr,
            (buildChain (rasterOf s.widthVal s.heightVal (bss.headD []))).flatMap fun r =>
              pixelBytes r.px)]
        dstlen := chainBytes s.widthVal s.heightVal
        pallen := 0 }

/-- MIP.DOWN (R103). -/
def execMipDown (s : State) : Host.Outcome State Fault Refusal := s.runPlan (mipDownPlan s)

/-- MIP.CHAIN (R104). -/
def execMipChain (s : State) : Host.Outcome State Fault Refusal := s.runPlan (mipChainPlan s)

end Sys2Proof.Machine
end

