-- ==== Sys2Proof/Machine/Quantizer.lean ====
section
/-! DEFINITION. Quantizer (42_quantizer.md). -/

namespace Sys2Proof.Machine

/-! ### Histogram and palette -/

/-- `key(p)` (R61). -/
def pixelKey (p : Pixel) : Nat :=
  (p.r.toNat <<< 24) ||| (p.g.toNat <<< 16) ||| (p.b.toNat <<< 8) ||| p.a.toNat

/-- A list of (colour, count) pairs: the histogram of R61, a box of R62. -/
abbrev Box := List (Pixel × Nat)

/-- One pixel counted in a histogram kept by ascending key (R61). -/
def countPixel (p : Pixel) : Box → Box
  | [] => [(p, 1)]
  | e :: rest =>
    if pixelKey p < pixelKey e.1 then (p, 1) :: e :: rest
    else if p = e.1 then (e.1, e.2 + 1) :: rest
    else e :: countPixel p rest

/-- The histogram: the distinct colours with their counts, by ascending key (R61). -/
def histogram (px : List Pixel) : Box :=
  px.foldl (fun h p => countPixel p h) []

/-- Channel `ch` of a pixel, in the order r, g, b, a (R62). -/
def channel (ch : Nat) (p : Pixel) : Nat :=
  match ch with
  | 0 => p.r.toNat
  | 1 => p.g.toNat
  | 2 => p.b.toNat
  | _ => p.a.toNat

/-- `range(box, ch)`: the largest minus the smallest value of a channel (R62). -/
def boxRange (box : Box) (ch : Nat) : Nat :=
  (box.map fun e => channel ch e.1).foldl max 0 - (box.map fun e => channel ch e.1).foldl min 255

/-- The four ranges of a box, in the order r, g, b, a. -/
def boxRanges (box : Box) : List Nat :=
  (List.range 4).map (boxRange box)

/-- `span(box)`: the largest of its four ranges (R62). -/
def boxSpan (box : Box) : Nat := (boxRanges box).foldl max 0

/-- What the choice of the box to split compares: its span, above every box of fewer than 2 colours (R62). -/
def splitRank (box : Box) : Nat := if 2 ≤ box.length then boxSpan box + 1 else 0

/-- One entry put in its place by (value of the channel, then key) (R62). -/
def insertByChannel (ch : Nat) (x : Pixel × Nat) : Box → Box
  | [] => [x]
  | e :: rest =>
    if channel ch x.1 < channel ch e.1 ∨
        (channel ch x.1 = channel ch e.1 ∧ pixelKey x.1 < pixelKey e.1) then x :: e :: rest
    else e :: insertByChannel ch x rest

/-- A box sorted ascending by (value of the channel, then key) (R62). -/
def sortByChannel (ch : Nat) (box : Box) : Box :=
  box.foldr (insertByChannel ch) []

/-- The sum of the counts of a box. -/
def boxTotal (box : Box) : Nat := (box.map Prod.snd).sum

/-- The least `j ≥ 1` whose first `j` counts reach half of `total`, `acc` being the counts passed over;
the number of entries where there is none (R62). -/
def cutPoint (total acc : Nat) : Box → Nat
  | [] => 0
  | e :: rest => if total ≤ 2 * (acc + e.2) then 1 else cutPoint total (acc + e.2) rest + 1

/-- A box split at the count median of its widest channel (R62). -/
def splitBox (box : Box) : Box × Box :=
  let sorted := sortByChannel (argMax (boxRanges box)) box
  let k := max 1 (min (cutPoint (boxTotal sorted) 0 sorted) (sorted.length - 1))
  (sorted.take k, sorted.drop k)

/-- One turn of the loop of R62: the box of the largest span is split, its second half becoming the last box. -/
def splitWidest (boxes : List Box) : List Box :=
  let b := argMax (boxes.map splitRank)
  let halves := splitBox (boxes.getD b [])
  boxes.set b halves.1 ++ [halves.2]

/-- The loop of R62, as many turns as boxes are wanting. -/
def splitTimes : Nat → List Box → List Box
  | 0, boxes => boxes
  | n + 1, boxes => splitTimes n (splitWidest boxes)

/-- The count-weighted mean of a channel over a box, rounded half up (R62). -/
def boxMean (box : Box) (ch : Nat) : Nat :=
  ((box.map fun e => e.2 * channel ch e.1).sum + boxTotal box / 2) / boxTotal box

/-- The palette entry that stands for a box (R62). -/
def boxColour (box : Box) : Pixel :=
  Pixel.ofNats (boxMean box 0) (boxMean box 1) (boxMean box 2) (boxMean box 3)

/-- `MedianCut(hist, K)` (R62). -/
def medianCut (hist : Box) (k : Nat) : List Pixel :=
  (splitTimes (k - 1) [hist]).map boxColour

/-- `BuildPalette(px, K, strict)`; the fault carries U, the number of distinct colours (R61, R155). -/
def buildPalette (px : List Pixel) (k : Nat) (strict : Bool) : Except FaultRecord (List Pixel) :=
  let hist := histogram px
  if hist.length ≤ k then .ok (hist.map Prod.fst)
  else if strict then .error ⟨.tooManyUniqueColors, BitVec.ofNat 32 hist.length⟩
  else .ok (medianCut hist k)

/-! ### Assigning indices -/

/-- `d(p, e)`, the squared Euclidean RGBA distance (R63). -/
def distRGBA (p e : Pixel) : Nat :=
  sqDiff p.r e.r + sqDiff p.g e.g + sqDiff p.b e.b + sqDiff p.a e.a

/-- `Nearest(p, pal)` (R63). -/
def nearest (pal : List Pixel) (p : Pixel) : Nat :=
  argMin (pal.map (distRGBA p))

/-- Diffusion error zero (R65). -/
def Diffusion.zero : Diffusion := ⟨0, 0, 0, 0⟩

/-- An error entry with `k` times another added, channel by channel (R65). -/
def Diffusion.plus (d : Diffusion) (k : Int) (e : Diffusion) : Diffusion :=
  ⟨d.r + k * e.r, d.g + k * e.g, d.b + k * e.b, d.a + k * e.a⟩

/-- `clamp(v + ((err + 8) >> 4), 0, 255)` on one channel (R65); `/` on integers by 16 is the floor division
of R7. -/
def diffuseChannel (v : Byte) (err : Int) : Byte :=
  BitVec.ofNat 8 (min (max ((v.toNat : Int) + (err + 8) / 16) 0) 255).toNat

/-- The target `t` of a pixel under the error carried to it (R65). -/
def diffuseTarget (p : Pixel) (e : Diffusion) : Pixel :=
  ⟨diffuseChannel p.r e.r, diffuseChannel p.g e.g, diffuseChannel p.b e.b, diffuseChannel p.a e.a⟩

/-- `e = t - pal[i]`, channel by channel (R65). -/
def quantError (t q : Pixel) : Diffusion :=
  ⟨(t.r.toNat : Int) - q.r.toNat, (t.g.toNat : Int) - q.g.toNat, (t.b.toNat : Int) - q.b.toNat,
    (t.a.toNat : Int) - q.a.toNat⟩

/-- An error row with `k` times `e` added in column `x`; a column outside the row is dropped (R65). -/
def addError (row : List Diffusion) (x : Nat) (k : Int) (e : Diffusion) : List Diffusion :=
  row.modify x fun d => d.plus k e

/-- The next row's errors after column `x` of the current one: 3, 5 and 1 sixteenths (R65). -/
def spreadBelow (nxt : List Diffusion) (x : Nat) (e : Diffusion) : List Diffusion :=
  addError (addError (if 0 < x then addError nxt (x - 1) 3 e else nxt) x 5 e) (x + 1) 1 e

/-- One row of R65 from column `x` on: the indices of the pixels that are left and the error row below. -/
def ditherRow (pal : List Pixel) (lastRow : Bool) (x : Nat) (cur nxt : List Diffusion) :
    List Pixel → List Nat × List Diffusion
  | [] => ([], nxt)
  | p :: rest =>
    let t := diffuseTarget p (cur.getD x Diffusion.zero)
    let i := nearest pal t
    let e := quantError t (pal.getD i Pixel.zero)
    let tail :=
      ditherRow pal lastRow (x + 1) (addError cur (x + 1) 7 e)
        (if lastRow then nxt else spreadBelow nxt x e) rest
    (i :: tail.1, tail.2)

/-- The rows of R65, top to bottom, `cur` being the error carried into the first of them. -/
def ditherRows (pal : List Pixel) (w : Nat) (cur : List Diffusion) : List (List Pixel) → List Nat
  | [] => []
  | row :: rest =>
    let r := ditherRow pal rest.isEmpty 0 cur (List.replicate w Diffusion.zero) row
    r.1 ++ ditherRows pal w r.2 rest

/-- The rows of a W×H raster. -/
def rasterRows (w h : Nat) (px : List Pixel) : List (List Pixel) :=
  (List.range h).map fun y => (px.drop (y * w)).take w

/-- `MapIndices(px, W, H, pal, dither)` (R64, R65). -/
def mapIndices (px : List Pixel) (w h : Nat) (pal : List Pixel) (dither : Bool) : List Nat :=
  if dither then ditherRows pal w (List.replicate w Diffusion.zero) (rasterRows w h px)
  else px.map (nearest pal)

/-! ### The commands -/

/-- QUANT (R66): the palette region is admitted at 4K bytes, and only 4 × PALLEN of them are written. -/
def quantPlan (s : State) : Plan where
  check := firstFault
    [(palsizeIllegal s.palsizeVal 256, badOperand),
     (dimsOutOfRange s.widthVal s.heightVal, badDimensions)]
  ins := [⟨s.srcAddr, 4 * (s.widthVal * s.heightVal)⟩]
  outs := [⟨s.auxAddr, 4 * s.palsizeVal⟩, ⟨s.dstAddr, s.widthVal * s.heightVal⟩]
  compute := fun bss =>
    let px := pixelsOf (s.widthVal * s.heightVal) (bss.headD [])
    match buildPalette px s.palsizeVal s.optStrict with
    | .error f => .error f
    | .ok pal =>
      .ok
        { writes :=
            [(s.auxAddr, pixelBytes pal),
             (s.dstAddr, valueBytes (mapIndices px s.widthVal s.heightVal pal s.optDither))]
          dstlen := s.widthVal * s.heightVal
          pallen := pal.length }

/-- QMAP (R67). -/
def qmapPlan (s : State) : Plan where
  check := firstFault
    [(palsizeIllegal s.palsizeVal 256, badOperand),
     (dimsOutOfRange s.widthVal s.heightVal, badDimensions)]
  ins := [⟨s.srcAddr, 4 * (s.widthVal * s.heightVal)⟩, ⟨s.auxAddr, 4 * s.palsizeVal⟩]
  outs := [⟨s.dstAddr, s.widthVal * s.heightVal⟩]
  compute := fun bss =>
    let px := pixelsOf (s.widthVal * s.heightVal) (bss.headD [])
    let pal := pixelsOf s.palsizeVal (bss.getD 1 [])
    .ok
      { writes :=
          [(s.dstAddr, valueBytes (mapIndices px s.widthVal s.heightVal pal s.optDither))]
        dstlen := s.widthVal * s.heightVal
        pallen := 0 }

/-- PLUT (R68): an index that names no entry is found before any byte is written. -/
def plutPlan (s : State) : Plan where
  check := firstFault [(palsizeIllegal s.palsizeVal 256, badOperand)]
  ins := [⟨s.srcAddr, s.countVal⟩, ⟨s.auxAddr, 4 * s.palsizeVal⟩]
  outs := [⟨s.dstAddr, 4 * s.countVal⟩]
  compute := fun bss =>
    let idx := byteValues (bss.headD [])
    let pal := pixelsOf s.palsizeVal (bss.getD 1 [])
    if idx.all (· < s.palsizeVal) then
      .ok
        { writes := [(s.dstAddr, pixelBytes (idx.map fun i => pal.getD i Pixel.zero))]
          dstlen := 4 * s.countVal
          pallen := 0 }
    else .error badOperand

/-- QUANT (R66). -/
def execQuant (s : State) : Host.Outcome State Fault Refusal := s.runPlan (quantPlan s)

/-- QMAP (R67). -/
def execQmap (s : State) : Host.Outcome State Fault Refusal := s.runPlan (qmapPlan s)

/-- PLUT (R68). -/
def execPlut (s : State) : Host.Outcome State Fault Refusal := s.runPlan (plutPlan s)

end Sys2Proof.Machine
end

