-- ==== Sys2Proof/Machine/Tiler.lean ====
section
/-! DEFINITION. Tiler (44_tiler.md). -/

namespace Sys2Proof.Machine

/-- `(row_k, col_k)`, coordinate `k` of `TileOrder(W, H, tw, th)` (R90). -/
def tileCoord (w tw th k : Nat) : Nat × Nat :=
  let t := k / (tw * th)
  let i := k % (tw * th)
  let nx := w / tw
  (t / nx * th + i / tw, t % nx * tw + i % tw)

/-- `L(k) = row_k × W + col_k`, the linear position of coordinate `k` (R90). -/
def tileLinear (w tw th k : Nat) : Nat :=
  (tileCoord w tw th k).1 * w + (tileCoord w tw th k).2

/-- The place of (row, col) in the tiled order: the inverse of R90 in closed form (R94). -/
def tilePlace (w tw th row col : Nat) : Nat :=
  (row / th * (w / tw) + col / tw) * (tw * th) + row % th * tw + col % tw

/-- Raster order to tiled order: element `k` of the result is element `L(k)` of the raster (R90, R92). -/
def toTiled {α : Type} (w h tw th : Nat) (d : α) (elems : List α) : List α :=
  (List.range (w * h)).map fun k => elems.getD (tileLinear w tw th k) d

/-- Tiled order to raster order: position `L(k)` of the result takes element `k`, the position's place in
the tiled order being R94's closed form (R93, R94). Log 15. -/
def fromTiled {α : Type} (w h tw th : Nat) (d : α) (elems : List α) : List α :=
  (List.range (w * h)).map fun j => elems.getD (tilePlace w tw th (j / w) (j % w)) d

/-- The checks of R91: the operand check, then the dimension check. -/
def tilerCheck (s : State) : Option FaultRecord :=
  let tw := s.tilew.toNat
  let th := s.tileh.toNat
  let es := s.esize.toNat
  firstFault
    [((es != 1 && es != 2 && es != 4) || tw == 0 || 65535 < tw || th == 0 || 65535 < th, badOperand),
     (dimsNotTiled s.widthVal s.heightVal tw th, badDimensions)]

/-- The shape of both Tiler commands: `move` reorders the elements, whose bytes stay together (R91 to R93). -/
def tilerPlan (s : State) (move : List (List Byte) → List (List Byte)) : Plan where
  check := tilerCheck s
  ins := [⟨s.srcAddr, s.esize.toNat * (s.widthVal * s.heightVal)⟩]
  outs := [⟨s.dstAddr, s.esize.toNat * (s.widthVal * s.heightVal)⟩]
  compute := fun bss =>
    let n := s.widthVal * s.heightVal
    let elems := (List.range n).map (elementBytes s.esize.toNat (bss.headD []))
    .ok
      { writes := [(s.dstAddr, (move elems).flatten)]
        dstlen := s.esize.toNat * n
        pallen := 0 }

/-- TILE.F (R92). -/
def tileFPlan (s : State) : Plan :=
  tilerPlan s (toTiled s.widthVal s.heightVal s.tilew.toNat s.tileh.toNat [])

/-- TILE.I (R93). -/
def tileIPlan (s : State) : Plan :=
  tilerPlan s (fromTiled s.widthVal s.heightVal s.tilew.toNat s.tileh.toNat [])

/-- TILE.F (R92). -/
def execTileF (s : State) : Host.Outcome State Fault Refusal := s.runPlan (tileFPlan s)

/-- TILE.I (R93). -/
def execTileI (s : State) : Host.Outcome State Fault Refusal := s.runPlan (tileIPlan s)

end Sys2Proof.Machine
end

