-- ==== Sys2Proof/Machine/Pipeline.lean ====
section
/-! DEFINITION. The pipeline commands TEX.ENC and TEX.DEC (46_pipeline.md). -/

namespace Sys2Proof.Machine

/-! ### Geometry of the payload (R111 to R113) -/

/-- `LevelCount(W, H, m)` (R111). -/
def levelCount (w h : Nat) (mipmaps : Bool) : Nat := if mipmaps then chainLevels w h else 1

/-- `pw` or `ph`: a dimension rounded up to whole tiles (R112). -/
def padDim (d tile : Nat) : Nat := ceilDiv d tile * tile

/-- `Pad(px, w, h, pw, ph)`: edge replication (R112). -/
def padRaster (r : Raster) (pw ph : Nat) : List Pixel :=
  (List.range (pw * ph)).map fun k => r.pixel (min (k / pw) (r.h - 1)) (min (k % pw) (r.w - 1))

/-- `LevelBytes(w, h, fmt)` (R113). The division is exact, as R113 says, but for a 4-bit format whose padded
raster has an odd number of pixels, which R6 allows; there it rounds up, to the length of the `Pack` of R115
and R116. DESIGN CHOICE, Log 9. -/
def levelBytes (p : Params) (f : PixelFormat) (w h : Nat) : Nat :=
  ceilDiv (padDim w (formatTile p f).w * padDim h (formatTile p f).h * f.bpp) 8

/-- `PalBytes(fmt, palfmt)` (R113, R118). -/
def palBytes (f : PixelFormat) (palfmt : Nat) : Nat :=
  match f.cap with
  | some cap => cap * (paletteEncoding palfmt).elementSize
  | none => 0

/-- `LevelOffset(N)` (R113). -/
def levelOffset (p : Params) (f : PixelFormat) (palfmt w h n : Nat) : Nat :=
  palBytes f palfmt +
    ((List.range n).map fun i => levelBytes p f (levelDim w i) (levelDim h i)).sum

/-- `PayloadLen(W, H, fmt, m, palfmt)` (R113). -/
def payloadLen (p : Params) (f : PixelFormat) (w h : Nat) (mipmaps : Bool) (palfmt : Nat) : Nat :=
  levelOffset p f palfmt w h (levelCount w h mipmaps)

/-! ### Encoding one level (R114 to R117) -/

/-- The codes of a level in tile order, `d` filling nothing: every position is in range. -/
def tiledCodes (t : Tile) (pw ph : Nat) (codes : List Nat) : List Nat :=
  toTiled pw ph t.w t.h 0 codes

/-- A level of a direct format of 8, 16 or 32 bits (R114). -/
def encodeDirect (p : Params) (f : Encoding) (t : Tile) (r : Raster) : List Byte :=
  let pw := padDim r.w t.w
  let ph := padDim r.h t.h
  elementStream f.elementSize
    (tiledCodes t pw ph ((padRaster r pw ph).map (encodePixel p f)))

/-- A level of I4 (R115). -/
def encodeI4Level (p : Params) (t : Tile) (r : Raster) : List Byte :=
  let pw := padDim r.w t.w
  let ph := padDim r.h t.h
  pack 4 (tiledCodes t pw ph ((padRaster r pw ph).map (encodePixel p .i4)))

/-- The indices of a level of INDEX4 or INDEX8 in tile order (R116). -/
def indexLevel (t : Tile) (pal : List Pixel) (dither : Bool) (r : Raster) : List Nat :=
  let pw := padDim r.w t.w
  let ph := padDim r.h t.h
  tiledCodes t pw ph (mapIndices (padRaster r pw ph) pw ph pal dither)

/-- A level of DXT1: the 4×4 tiling of the pixels, then block by block (R117). -/
def encodeDxt1Level (p : Params) (best : Bool) (r : Raster) : List Byte :=
  let pw := padDim r.w 4
  let ph := padDim r.h 4
  compressBlocks p best (pw * ph / 16) (toTiled pw ph 4 4 Pixel.zero (padRaster r pw ph))

/-- The bytes of one level (R114 to R117, dispatched by R121's column "level rule"). -/
def encodeLevel (p : Params) (f : PixelFormat) (pal : List Pixel) (dither best : Bool) (r : Raster) :
    List Byte :=
  match f with
  | .i4 => encodeI4Level p p.tiles.i4 r
  | .i8 => encodeDirect p .i8 p.tiles.i8 r
  | .ia44 => encodeDirect p .ia44 p.tiles.ia44 r
  | .ia88 => encodeDirect p .ia88 p.tiles.ia88 r
  | .rgb565 => encodeDirect p .rgb565 p.tiles.rgb565 r
  | .rgb5a3 => encodeDirect p .rgb5a3 p.tiles.rgb5a3 r
  | .argb8888 => encodeDirect p .argb8888 p.tiles.argb8888 r
  | .index4 => pack 4 (indexLevel p.tiles.index4 pal dither r)
  | .index8 => valueBytes (indexLevel p.tiles.index8 pal dither r)
  | .dxt1 => encodeDxt1Level p best r

/-- The palette block: always `cap` entries, all-zero bytes past the palette's own (R118). -/
def paletteBlock (p : Params) (cap palfmt : Nat) (pal : List Pixel) : List Byte :=
  let f := paletteEncoding palfmt
  elementStream f.elementSize (pal.map (encodePixel p f)) ++
    List.replicate ((cap - pal.length) * f.elementSize) 0

/-! ### Decoding one level (R120) -/

/-- The elements of a stored level, the unpacked codes of its pixels in tile order (R120). -/
def storedCodes (f : PixelFormat) (n : Nat) (bs : List Byte) : List Nat :=
  if f.bpp = 4 then unpack 4 n bs else elementsOf (f.bpp / 8) n bs

/-- The pixel of a code: the ColorConverter or the palette lookup (R120). -/
def codePixel (f : PixelFormat) (pal : List Pixel) (c : Nat) : Pixel :=
  match f with
  | .i4 => decodePixel .i4 c
  | .i8 => decodePixel .i8 c
  | .ia44 => decodePixel .ia44 c
  | .ia88 => decodePixel .ia88 c
  | .rgb565 => decodePixel .rgb565 c
  | .rgb5a3 => decodePixel .rgb5a3 c
  | .argb8888 => decodePixel .argb8888 c
  | .index4 => pal.getD c Pixel.zero
  | .index8 => pal.getD c Pixel.zero
  | .dxt1 => Pixel.zero

/-- The stored pw×ph raster of a level (R120). -/
def decodeStored (p : Params) (f : PixelFormat) (pal : List Pixel) (pw ph : Nat) (bs : List Byte) :
    List Pixel :=
  match f with
  | .dxt1 => fromTiled pw ph 4 4 Pixel.zero (decompressBlocks (pw * ph / 16) bs)
  | _ =>
    (fromTiled pw ph (formatTile p f).w (formatTile p f).h 0 (storedCodes f (pw * ph) bs)).map
      (codePixel f pal)

/-- `DecodeLevel(D, w, h)`: the stored raster cropped to w×h, top-left (R120). -/
def decodeLevel (p : Params) (f : PixelFormat) (pal : List Pixel) (w h : Nat) (bs : List Byte) :
    List Pixel :=
  let pw := padDim w (formatTile p f).w
  let ph := padDim h (formatTile p f).h
  let full : Raster := { w := pw, h := ph, px := decodeStored p f pal pw ph bs }
  (List.range (w * h)).map fun k => full.pixel (k / w) (k % w)

/-- The palette a payload stores (R119 step 5). -/
def storedPalette (cap palfmt : Nat) (bs : List Byte) : List Pixel :=
  let f := paletteEncoding palfmt
  (elementsOf f.elementSize cap bs).map (decodePixel f)

/-! ### The commands -/

/-- UnknownPixelFormat with ERRINFO the FMT field (R154). -/
def unknownFormat (fmt : Nat) : FaultRecord := ⟨.unknownPixelFormat, BitVec.ofNat 32 fmt⟩

/-- The palette of an encode: built from the base level for an index format, none for the others (R116). -/
def encodePalette (s : State) (f : PixelFormat) (base : Raster) : Except FaultRecord (List Pixel) :=
  match f.cap with
  | some _ => buildPalette base.px s.palsizeVal s.optStrict
  | none => .ok []

/-- The payload of an encode (R110 step 5). -/
def encodePayload (s : State) (f : PixelFormat) (base : Raster) (pal : List Pixel) : List Byte :=
  let levels := if s.optMipmaps then buildChain base else [base]
  let palette :=
    match f.cap with
    | some cap => paletteBlock s.params cap s.optPalfmt pal
    | none => []
  palette ++ levels.flatMap (encodeLevel s.params f pal s.optDither s.optQuality)

/-- TEX.ENC with a PixelFormat, steps 2 to 6 of R110. -/
def texEncFormatPlan (f : PixelFormat) (s : State) : Plan where
  check := firstFault
    [(match f.cap with
      | some cap => palsizeIllegal s.palsizeVal cap
      | none => false, badOperand),
     (dimsNotTiled s.widthVal s.heightVal (formatTile s.params f).w (formatTile s.params f).h, badDimensions)]
  ins := [⟨s.srcAddr, 4 * (s.widthVal * s.heightVal)⟩]
  outs :=
    [⟨s.dstAddr, payloadLen s.params f s.widthVal s.heightVal s.optMipmaps s.optPalfmt⟩]
  compute := fun bss =>
    let base := rasterOf s.widthVal s.heightVal (bss.headD [])
    match encodePalette s f base with
    | .error e => .error e
    | .ok pal =>
      .ok
        { writes := [(s.dstAddr, encodePayload s f base pal)]
          dstlen := payloadLen s.params f s.widthVal s.heightVal s.optMipmaps s.optPalfmt
          pallen := pal.length }

/-- TEX.ENC.fmt (R110). -/
def texEncPlan (fmt : Nat) (s : State) : Plan :=
  match PixelFormat.ofCode fmt with
  | some f => texEncFormatPlan f s
  | none => Plan.faulting (unknownFormat fmt)

/-- TEX.DEC of level `L = reg[LEVEL]`, which the chain has, steps 3 to 6 of R119. -/
def texDecLevelPlan (f : PixelFormat) (s : State) : Plan :=
  let w := levelDim s.widthVal s.level.toNat
  let h := levelDim s.heightVal s.level.toNat
  { check := firstFault
      [(dimsNotTiled s.widthVal s.heightVal (formatTile s.params f).w (formatTile s.params f).h, badDimensions)]
    ins :=
      [⟨s.srcAddr, palBytes f s.optPalfmt⟩,
       ⟨s.srcAddr + levelOffset s.params f s.optPalfmt s.widthVal s.heightVal s.level.toNat,
         levelBytes s.params f w h⟩]
    outs := [⟨s.dstAddr, 4 * (w * h)⟩]
    compute := fun bss =>
      let pal :=
        match f.cap with
        | some cap => storedPalette cap s.optPalfmt (bss.headD [])
        | none => []
      .ok
        { writes := [(s.dstAddr, pixelBytes (decodeLevel s.params f pal w h (bss.getD 1 [])))]
          dstlen := 4 * (w * h)
          pallen := 0 } }

/-- TEX.DEC with a PixelFormat: the LEVEL check comes before the dimension check (R111, R119). -/
def texDecFormatPlan (f : PixelFormat) (s : State) : Plan :=
  if levelCount s.widthVal s.heightVal s.optMipmaps ≤ s.level.toNat then Plan.faulting badOperand
  else texDecLevelPlan f s

/-- TEX.DEC.fmt (R119). -/
def texDecPlan (fmt : Nat) (s : State) : Plan :=
  match PixelFormat.ofCode fmt with
  | some f => texDecFormatPlan f s
  | none => Plan.faulting (unknownFormat fmt)

/-- TEX.ENC.fmt (R110). -/
def execTexEnc (fmt : Nat) (s : State) : Host.Outcome State Fault Refusal :=
  s.runPlan (texEncPlan fmt s)

/-- TEX.DEC.fmt (R119). -/
def execTexDec (fmt : Nat) (s : State) : Host.Outcome State Fault Refusal :=
  s.runPlan (texDecPlan fmt s)

end Sys2Proof.Machine
end

