-- ==== Sys2Proof/Machine/System.lean ====
section
/-! DEFINITION. The system commands (48_system.md). Neither is privileged (R142). -/

namespace Sys2Proof.Machine

/-- NOP (R140): a command like any other for the completion record. -/
def execNop (s : State) : Host.Outcome State Fault Refusal :=
  .next (s.succeed 0 0)

/-- SRESET (R141): the four core-written registers return to their reset values. -/
def execSreset (s : State) : Host.Outcome State Fault Refusal :=
  .next { s with status := 0, errinfo := 0, dstlen := 0, pallen := 0 }

end Sys2Proof.Machine
end

