-- ==== Sys2Proof/Machine/Dispatch.lean ====
section
/-! DEFINITION. exec: the meaning of every command, one arm per row of the opcode table. -/

namespace Sys2Proof.Machine

def exec (i : Instr) (s : State) : Host.Outcome State Fault Refusal :=
  match i with
  | .nop => Sys2Proof.Machine.execNop s
  | .sreset => Sys2Proof.Machine.execSreset s
  | .pack1 => Sys2Proof.Machine.execPack1 s
  | .pack2 => Sys2Proof.Machine.execPack2 s
  | .pack4 => Sys2Proof.Machine.execPack4 s
  | .unpack1 => Sys2Proof.Machine.execUnpack1 s
  | .unpack2 => Sys2Proof.Machine.execUnpack2 s
  | .unpack4 => Sys2Proof.Machine.execUnpack4 s
  | .cvtEI4 => Sys2Proof.Machine.execCvtEI4 s
  | .cvtDI4 => Sys2Proof.Machine.execCvtDI4 s
  | .cvtEI8 => Sys2Proof.Machine.execCvtEI8 s
  | .cvtDI8 => Sys2Proof.Machine.execCvtDI8 s
  | .cvtEIA44 => Sys2Proof.Machine.execCvtEIA44 s
  | .cvtDIA44 => Sys2Proof.Machine.execCvtDIA44 s
  | .cvtEIA88 => Sys2Proof.Machine.execCvtEIA88 s
  | .cvtDIA88 => Sys2Proof.Machine.execCvtDIA88 s
  | .cvtERGB565 => Sys2Proof.Machine.execCvtERGB565 s
  | .cvtDRGB565 => Sys2Proof.Machine.execCvtDRGB565 s
  | .cvtERGB5A3 => Sys2Proof.Machine.execCvtERGB5A3 s
  | .cvtDRGB5A3 => Sys2Proof.Machine.execCvtDRGB5A3 s
  | .cvtEARGB8888 => Sys2Proof.Machine.execCvtEARGB8888 s
  | .cvtDARGB8888 => Sys2Proof.Machine.execCvtDARGB8888 s
  | .cvtEARGB4444 => Sys2Proof.Machine.execCvtEARGB4444 s
  | .cvtDARGB4444 => Sys2Proof.Machine.execCvtDARGB4444 s
  | .quant => Sys2Proof.Machine.execQuant s
  | .qmap => Sys2Proof.Machine.execQmap s
  | .plut => Sys2Proof.Machine.execPlut s
  | .bcEnc => Sys2Proof.Machine.execBcEnc s
  | .bcDec => Sys2Proof.Machine.execBcDec s
  | .tileF => Sys2Proof.Machine.execTileF s
  | .tileI => Sys2Proof.Machine.execTileI s
  | .mipDown => Sys2Proof.Machine.execMipDown s
  | .mipChain => Sys2Proof.Machine.execMipChain s
  | .texEnc fmt => Sys2Proof.Machine.execTexEnc fmt s
  | .texDec fmt => Sys2Proof.Machine.execTexDec fmt s

end Sys2Proof.Machine
end

