-- ==== Sys2Proof/Machine/Command.lean ====
section
/-! DEFINITION. What the host's write of a command word does (R12, R86), and what is left of a command that
a reset cuts short (R172). -/

namespace Sys2Proof.Machine

/-- IllegalCommand with ERRINFO the word (R83, R156). -/
def illegalCommand (w : Word) : FaultRecord := ⟨.illegalCommand, w⟩

/-- The host's write of `w` to CMD: the word is stored, legal or not, and the command runs to its end as one
transition (R12, R28, R86). -/
def startCommand (w : Word) (s : State) : Host.Outcome State Fault Refusal :=
  match decode w with
  | .error _ => .next ({ s with cmd := w }.takeFault (illegalCommand w))
  | .ok i => exec i { s with cmd := w }

/-- The plan a command runs; none for the two that touch no region (R140, R141). -/
def commandPlan (s : State) : Instr → Option Plan
  | .nop => none
  | .sreset => none
  | .pack1 => some (packPlan 1 s)
  | .pack2 => some (packPlan 2 s)
  | .pack4 => some (packPlan 4 s)
  | .unpack1 => some (unpackPlan 1 s)
  | .unpack2 => some (unpackPlan 2 s)
  | .unpack4 => some (unpackPlan 4 s)
  | .cvtEI4 => some (cvtEPlan .i4 s)
  | .cvtDI4 => some (cvtDPlan .i4 s)
  | .cvtEI8 => some (cvtEPlan .i8 s)
  | .cvtDI8 => some (cvtDPlan .i8 s)
  | .cvtEIA44 => some (cvtEPlan .ia44 s)
  | .cvtDIA44 => some (cvtDPlan .ia44 s)
  | .cvtEIA88 => some (cvtEPlan .ia88 s)
  | .cvtDIA88 => some (cvtDPlan .ia88 s)
  | .cvtERGB565 => some (cvtEPlan .rgb565 s)
  | .cvtDRGB565 => some (cvtDPlan .rgb565 s)
  | .cvtERGB5A3 => some (cvtEPlan .rgb5a3 s)
  | .cvtDRGB5A3 => some (cvtDPlan .rgb5a3 s)
  | .cvtEARGB8888 => some (cvtEPlan .argb8888 s)
  | .cvtDARGB8888 => some (cvtDPlan .argb8888 s)
  | .cvtEARGB4444 => some (cvtEPlan .argb4444 s)
  | .cvtDARGB4444 => some (cvtDPlan .argb4444 s)
  | .quant => some (quantPlan s)
  | .qmap => some (qmapPlan s)
  | .plut => some (plutPlan s)
  | .bcEnc => some (bcEncPlan s)
  | .bcDec => some (bcDecPlan s)
  | .tileF => some (tileFPlan s)
  | .tileI => some (tileIPlan s)
  | .mipDown => some (mipDownPlan s)
  | .mipChain => some (mipChainPlan s)
  | .texEnc fmt => some (texEncPlan fmt s)
  | .texDec fmt => some (texDecPlan fmt s)

/-- The output regions that belong to a running command: those of a plan that has passed its checks and
whose regions are admitted (R26, R175). A command that faults there writes no byte (R160). -/
def Plan.outputsHeld (p : Plan) (memBytes : Nat) : List Region :=
  match p.check with
  | some _ => []
  | none => if admitted memBytes p.ins p.outs then p.outs else []

/-- The output regions of the command `w` on the state it starts in. -/
def heldRegions (w : Word) (s : State) : List Region :=
  match decode w with
  | .error _ => []
  | .ok i =>
    match commandPlan s i with
    | none => []
    | some p => p.outputsHeld s.params.memBytes

/-- The host's write of `w` to CMD, and a hardware reset before that command's end: its output regions hold
unspecified values, and every register its reset value (R170 to R172). Log 6. -/
def cutCommand (w : Word) (s : State) : State :=
  (s.freeRegions (heldRegions w s)).hardwareReset

end Sys2Proof.Machine
end

