-- ==== Sys2Proof/Machine/HostBus.lean ====
section
/-! DEFINITION. The host's accesses to the register window and to the buffer memory (R11, R12, R20, R174). -/

namespace Sys2Proof.Machine

/-- One whole 32-bit word of the window: the only access the spec defines (R11). Log 4. -/
def wholeWord (width : AccessWidth) (offset : Nat) : Bool :=
  width == .word && offset % 4 == 0

/-- The bytes at `a` to `a + n - 1` exist (R20); a run of no bytes touches none. -/
def addressesExist (memBytes a n : Nat) : Bool := n == 0 || a + n ≤ memBytes

/-- A host write to the register window (R11, R12, R174). While BUSY it is refused at every offset. Log 5. -/
def hostWriteReg (width : AccessWidth) (offset : Nat) (v : Word) (s : State) :
    Host.Outcome State Fault Refusal :=
  if wholeWord width offset then
    if s.busy then .refused .hostAccessWhileBusy
    else if offset = 0 then startCommand v s
    else .next (s.writeWindow offset v)
  else .refused .notAWordAccess

/-- A host read of the register window: no side effect; the word goes to the host (R11). -/
def hostReadReg (width : AccessWidth) (offset : Nat) (s : State) :
    Host.Outcome State Fault Refusal :=
  if wholeWord width offset then .next { s with hostData := s.readWindow offset }
  else .refused .notAWordAccess

/-- A host store to the buffer memory, which is the host's while no command runs (R20, R175). -/
def hostStore (a : Nat) (bs : List Byte) (s : State) : Host.Outcome State Fault Refusal :=
  if s.busy then .refused .hostAccessWhileBusy
  else if addressesExist s.params.memBytes a bs.length then
    .next { s with mem := s.mem.writeBytes a bs }
  else .fault .noSuchAddress

/-- A host load of one byte of the buffer memory (R20, R27, R175). -/
def hostLoad (a : Nat) (s : State) : Host.Outcome State Fault Refusal :=
  if s.busy then .refused .hostAccessWhileBusy
  else if addressesExist s.params.memBytes a 1 then
    match s.mem.read a with
    | none => .refused .unwrittenByte
    | some b => .next { s with hostData := b.setWidth 32 }
  else .fault .noSuchAddress

/-- The hardware reset while command `w`, which the host has just written, runs (R170, R172, R174). -/
def hostCut (w : Word) (s : State) : Host.Outcome State Fault Refusal :=
  if s.busy then .refused .hostAccessWhileBusy else .next (cutCommand w s)

/-- What each action of the host does. -/
def hostAction (a : HostAction) (s : State) : Host.Outcome State Fault Refusal :=
  match a with
  | .writeReg width offset v => hostWriteReg width offset v s
  | .readReg width offset => hostReadReg width offset s
  | .storeMem addr bytes => hostStore addr bytes s
  | .loadMem addr => hostLoad addr s
  | .reset => .next s.hardwareReset
  | .cutByReset w => hostCut w s

/-- The next step of the system: the host's next action; with none pending the core does nothing (R4, R171). -/
def nextAction (s : State) : Host.Outcome State Fault Refusal :=
  match s.host with
  | [] => .next s
  | a :: rest => hostAction a { s with host := rest }

/-- The host's write of a command word, as an action (R84: `GO`). -/
def goWord (w : Word) : HostAction := .writeReg .word 0 w

end Sys2Proof.Machine
end

