-- ==== Sys2Proof/Machine/Step.lean ====
section
/-! DEFINITION. The step, and where it takes its next instruction from. -/

namespace Sys2Proof.Machine

/-- One step: the next action of the host, a command from its CMD write to its end being one transition
(R12, R28). There is no program counter and no fetch (R17, R29). -/
def step (s : State) : Host.Outcome State Fault Refusal := nextAction s

/-- `s` with the host's write of the command word `w` as its next action, so that the next step runs that
command. A command has no bits beyond its 32 (R80). Log 1. -/
def State.withFetchWord (s : State) (nbits w : Nat) : State :=
  { s with host := goWord (BitVec.ofNat 32 (w % 2 ^ nbits)) :: s.host }

end Sys2Proof.Machine
end

