-- ==== Sys2Proof/Machine/HostProgram.lean ====
section
/-! DEFINITION. The host-side notation SET, GO, WAIT and its pseudo-statements (R84, R85), as lists of host
actions, and the run of such a list. -/

namespace Sys2Proof.Machine

/-- `SET <REG>, <value>` (R84). -/
def setReg (r : Reg) (v : Word) : List HostAction := [.writeReg .word r.offset v]

/-- `GO <mnemonic>` (R84). -/
def goInstr (i : Instr) : List HostAction := [goWord (encode i)]

/-- `WAIT`: a command is one transition, so one read of STATUS sees its end (R28, R84). -/
def waitDone : List HostAction := [.readReg .word Reg.status.offset]

/-- `RUN <mnemonic>` (R85). -/
def runInstr (i : Instr) : List HostAction := goInstr i ++ waitDone

/-- `SETDIM w, h` (R85). -/
def setDim (w h : Word) : List HostAction := setReg .width w ++ setReg .height h

/-- `SETTILE tw, th, es` (R85). -/
def setTile (tw th es : Word) : List HostAction :=
  setReg .tilew tw ++ setReg .tileh th ++ setReg .esize es

/-- `SETBUF s, d` (R85). -/
def setBuf (src dst : Word) : List HostAction := setReg .src src ++ setReg .dst dst

/-- OPTIONS from its fields (R15, R84). -/
def optionsWord (mipmaps dither best strict : Bool) (palfmt : BitVec 2) : Word :=
  BitVec.ofNat 26 0 ++ palfmt ++ BitVec.ofBool strict ++ BitVec.ofBool best ++
    BitVec.ofBool dither ++ BitVec.ofBool mipmaps

/-- The actions of the list, one step each, ahead of whatever the host has pending; the first stop ends it. -/
def runHost : List HostAction → State → Host.Outcome State Fault Refusal
  | [], s => .next s
  | a :: rest, s =>
    match step { s with host := a :: s.host } with
    | .next t => runHost rest t
    | .fault f => .fault f
    | .refused r => .refused r

end Sys2Proof.Machine
end

