-- ==== Sys2Proof/Machine/Container.lean ====
section
/-! DEFINITION. The Container, a duty of the host (47_container.md): pure functions over byte lists, which
change no register and no byte of buffer memory (R130), and the host's two procedures over them and the core,
`encodeImage` (R137) and `decodeImage` (R138). No step calls any of them. Log 14. -/

namespace Sys2Proof.Machine

/-- What the Container carries beside the payload (R131, R133, R134). -/
structure ContainerHeader where
  format : PixelFormat
  width : Nat
  height : Nat
  mipmaps : Bool
  externalPalette : Bool
  palfmt : BitVec 2
  globalIndex : Option Word
  deriving DecidableEq, Repr

/-- "GBIX" (R132). -/
def magicGBIX : List Byte := [0x47, 0x42, 0x49, 0x58]

/-- "GVRT" (R133). -/
def magicGVRT : List Byte := [0x47, 0x56, 0x52, 0x54]

/-- is_palette_format (R133, R139). -/
def PixelFormat.isPalette (f : PixelFormat) : Bool := f.cap.isSome

/-- `pixel_format_flags`: FMT in 3:0, the palette bit in 7 (R133). -/
def pixelFormatFlags (f : PixelFormat) : Nat := f.code + if f.isPalette then 0x80 else 0

/-- `data_attr`: has_mipmaps in 0, has_external_palette in 1, PALFMT in 5:4 for the index formats (R134). -/
def dataAttr (h : ContainerHeader) : Nat :=
  (if h.mipmaps then 1 else 0) + (if h.externalPalette then 2 else 0) +
    (if h.format.isPalette then 16 * h.palfmt.toNat else 0)

/-- The flags this spec's writer may write: has_external_palette with INDEX4 and INDEX8 only (R134). -/
def ContainerHeader.writable (h : ContainerHeader) : Bool := h.format.isPalette || !h.externalPalette

/-- The global-index chunk, where there is one (R132). -/
def globalIndexChunk : Option Word → List Byte
  | none => []
  | some g => magicGBIX ++ bigEndian 4 16 ++ bigEndian 4 g.toNat ++ bigEndian 4 0

/-- The layout of a stream around a payload, step 5 of R137, for any header. -/
def containerFrame (h : ContainerHeader) (payload : List Byte) : List Byte :=
  globalIndexChunk h.globalIndex ++ magicGVRT ++ bigEndian 4 (14 + payload.length) ++
    valueBytes [pixelFormatFlags h.format, dataAttr h] ++ bigEndian 2 h.width ++
    bigEndian 2 h.height ++ payload

/-- Step 5 of R137 for this spec's writer: no stream with flags it may not write (R134). -/
def containerWrite (h : ContainerHeader) (payload : List Byte) : Option (List Byte) :=
  if h.writable then some (containerFrame h payload) else none

/-! ### The reader -/

/-- The fault of a malformed stream (R138, R152). R151 gives CorruptHeader no ERRINFO value; the 0 in its
place is the model's. DESIGN CHOICE, Log 14. -/
def corrupt : FaultRecord := ⟨.corruptHeader, 0⟩

/-- Steps 2 to 8 of R138 on the bytes from `off` on. -/
def readTexture (p : Params) (gbix : Option Word) (bs : List Byte) :
    Except FaultRecord (ContainerHeader × List Byte) :=
  if bs.take 4 ≠ magicGVRT ∨ bs.length < 14 then .error corrupt
  else
    let size := fromBigEndian ((bs.drop 4).take 4)
    let flags := (bs.getD 8 0).toNat
    let attr := (bs.getD 9 0).toNat
    let w := fromBigEndian ((bs.drop 10).take 2)
    let h := fromBigEndian ((bs.drop 12).take 2)
    match PixelFormat.ofCode (bitField flags 0 4) with
    | none => .error (unknownFormat (bitField flags 0 4))
    | some f =>
      if bitField flags 4 3 ≠ 0 ∨ bitField attr 2 2 ≠ 0 ∨ bitField attr 6 2 ≠ 0 then .error corrupt
      else if bitField flags 7 1 ≠ (if f.isPalette then 1 else 0) then .error corrupt
      else if f.isPalette = false ∧ bitField attr 4 2 ≠ 0 then .error corrupt
      else if dimsNotTiled w h (formatTile p f).w (formatTile p f).h then .error badDimensions
      else if size ≠ 14 + payloadLen p f w h (bitField attr 0 1 = 1) (bitField attr 4 2) ∨
          bs.length ≠ size then .error corrupt
      else
        .ok
          ({ format := f, width := w, height := h, mipmaps := bitField attr 0 1 = 1,
             externalPalette := bitField attr 1 1 = 1, palfmt := BitVec.ofNat 2 (bitField attr 4 2),
             globalIndex := gbix }, bs.drop 14)

/-- The reader's checks, in order, and the payload it finds (R138 steps 1 to 8). -/
def containerRead (p : Params) (bs : List Byte) :
    Except FaultRecord (ContainerHeader × List Byte) :=
  if bs.take 4 = magicGBIX then
    if bs.length < 16 ∨ fromBigEndian ((bs.drop 4).take 4) ≠ 16 then .error corrupt
    else readTexture p (some (BitVec.ofNat 32 (fromBigEndian ((bs.drop 8).take 4)))) (bs.drop 16)
  else readTexture p none bs

/-! ### Encode and decode, the host with the core -/

/-- What the caller of an encode gives beside the header: the other fields of OPTIONS, PALSIZE, where the raster
and the payload go in the buffer memory, and the image (R137). -/
structure EncodeRequest where
  header : ContainerHeader
  dither : Bool
  best : Bool
  strict : Bool
  palsize : Word
  src : Word
  dst : Word
  image : List Pixel
  deriving DecidableEq, Repr

/-- What the caller of a decode gives beside the stream: the level wanted and where the payload and the image
go in the buffer memory (R138 step 9). -/
structure DecodeRequest where
  level : Word
  src : Word
  dst : Word
  deriving DecidableEq, Repr

/-- An error as the host reports it, the reader's and the core's in the one numbering of R151 (R130). -/
structure CodecError where
  err : BitVec 4
  info : Word
  deriving DecidableEq, Repr

/-- How an encode or a decode ends. -/
inductive CodecResult (α : Type) where
  /-- it yields a value -/
  | done (value : α)
  /-- it fails with the core's error or the reader's, and yields nothing (R137 step 3, R138) -/
  | failed (error : CodecError)
  /-- flags this spec's writer may not write (R134); R134 names no error for them. Log 14. -/
  | illegalFlags
  deriving DecidableEq, Repr

/-- What a decode yields: the header, with its format, flags and global index, and the image of one level (R138). -/
structure DecodedImage where
  header : ContainerHeader
  image : Raster
  deriving DecidableEq, Repr

/-- What STATUS and ERRINFO say of the last command: `none` when ERR is 0 (R13, R14). -/
def State.codecError (s : State) : Option CodecError :=
  if s.err = 0 then none else some ⟨s.err, s.errinfo⟩

/-- `MemRead(reg[DST], reg[DSTLEN])`, what the last command stored (R16, R137 step 4, R138 step 10). -/
def State.resultBytes (s : State) : Option (List Byte) := s.mem.readBytes s.dstAddr s.dstlen.toNat

/-- The end of a host procedure in the state its command left: the core's error, or `f` of what the command
stored. A byte of it that has no value, which no command leaves, is refused as a host load of it is. -/
def commandResult {α : Type} (t : State) (f : List Byte → CodecResult α) :
    Host.Outcome (State × CodecResult α) Fault Refusal :=
  match t.codecError with
  | some e => .next (t, .failed e)
  | none =>
    match t.resultBytes with
    | none => .refused .unwrittenByte
    | some bs => .next (t, f bs)

/-- What the host does in steps 1 and 2 of R137: the raster at SRC, the operands, and the command. -/
def encodeProgram (q : EncodeRequest) : List HostAction :=
  [.storeMem q.src.toNat (pixelBytes q.image)] ++ setBuf q.src q.dst ++
    setDim (BitVec.ofNat 32 q.header.width) (BitVec.ofNat 32 q.header.height) ++
    setReg .options (optionsWord q.header.mipmaps q.dither q.best q.strict q.header.palfmt) ++
    setReg .palsize q.palsize ++ runInstr (.texEnc q.header.format.code)

/-- Steps 3 to 5 of R137 in the state TEX.ENC left: its error and no bytes, or the stream. -/
def encodeResult (h : ContainerHeader) (t : State) :
    Host.Outcome (State × CodecResult (List Byte)) Fault Refusal :=
  commandResult t fun payload =>
    match containerWrite h payload with
    | some bytes => .done bytes
    | none => .illegalFlags

/-- `encode(image, format, flags, global_index?) -> bytes` (R137). Flags the writer may not write are found
before the core is asked. DESIGN CHOICE, Log 14. -/
def encodeImage (q : EncodeRequest) (s : State) :
    Host.Outcome (State × CodecResult (List Byte)) Fault Refusal :=
  if q.header.writable then
    match runHost (encodeProgram q) s with
    | .next t => encodeResult q.header t
    | .fault f => .fault f
    | .refused r => .refused r
  else .next (s, .illegalFlags)

/-- What the host does in steps 9 and 10 of R138 with the payload it read. R138 names MIPMAPS and PALFMT of
OPTIONS, which is written as one word; DITHER, QUALITY and STRICT, which TEX.DEC does not read, are written as 0.
DESIGN CHOICE, Log 14. -/
def decodeProgram (h : ContainerHeader) (q : DecodeRequest) (payload : List Byte) : List HostAction :=
  [.storeMem q.src.toNat payload] ++ setBuf q.src q.dst ++
    setDim (BitVec.ofNat 32 h.width) (BitVec.ofNat 32 h.height) ++
    setReg .options (optionsWord h.mipmaps false false false h.palfmt) ++
    setReg .level q.level ++ runInstr (.texDec h.format.code)

/-- Step 10 of R138 in the state TEX.DEC left: its error, or the DSTLEN bytes at DST as the raster of the level. -/
def decodeResult (h : ContainerHeader) (level : Word) (t : State) :
    Host.Outcome (State × CodecResult DecodedImage) Fault Refusal :=
  commandResult t fun bs =>
    .done
      { header := h
        image := rasterOf (levelDim h.width level.toNat) (levelDim h.height level.toNat) bs }

/-- `decode(bytes) -> (image, format, flags, global_index?)` (R138): the reader's error before the core is
asked, or what the core makes of the payload. -/
def decodeImage (q : DecodeRequest) (bytes : List Byte) (s : State) :
    Host.Outcome (State × CodecResult DecodedImage) Fault Refusal :=
  match containerRead s.params bytes with
  | .error f => .next (s, .failed ⟨f.err.code, f.info⟩)
  | .ok (h, payload) =>
    match runHost (decodeProgram h q payload) s with
    | .next t => decodeResult h q.level t
    | .fault f => .fault f
    | .refused r => .refused r

end Sys2Proof.Machine
end

