-- ==== Sys2Proof/Safety.lean ====
section
/-! DEFINITION. The terms claims are stated in: the invariant of a run, what a safe step is, the regions and
the register checks of every command as the rules list them, and the two ways a command ends. -/

namespace Sys2Proof.Machine

/-! ### The invariant and safe steps -/

/-- What holds of every state a run from reset passes through. -/
structure Inv (s : State) : Prop where
  /-- the parameters meet the constraints of R6 -/
  paramsValid : s.params.valid = true
  /-- the memory is in its canonical form -/
  memSorted : s.mem.wf
  /-- no byte stands at or above MEM_BYTES (R20) -/
  memWithin : s.mem.within s.params.memBytes
  /-- STATUS bits 3:2 and 31:8 read 0 (R13) -/
  statusReserved : s.status &&& 0xFFFFFF0C = 0
  /-- BUSY is 0 at every point where the host can act (R13) -/
  notBusy : s.busy = false
  /-- ERR is at most 7 and never CorruptHeader (R151, R152) -/
  errLegal : s.err.toNat ≤ 7 ∧ s.err ≠ 1
  /-- OPTIONS bits 31:6 read 0 (R15) -/
  optionsReserved : s.options &&& 0xFFFFFFC0 = 0
  /-- before any command has ended the completion record is as reset left it (R13, R19) -/
  recordEmpty : s.done = false → s.status = 0 ∧ s.errinfo = 0 ∧ s.dstlen = 0 ∧ s.pallen = 0
  /-- success leaves ERRINFO 0 (R14) -/
  successInfo : s.err = 0 → s.errinfo = 0
  /-- a fault leaves DSTLEN and PALLEN 0 (R16, R160) -/
  faultLengths : s.err ≠ 0 → s.dstlen = 0 ∧ s.pallen = 0

/-- A step is safe when it neither faults nor is refused and keeps the invariant. -/
def SafeStep (s : State) : Prop := ∃ t, step s = .next t ∧ Inv t

/-! ### How a command ends -/

/-- The state a fault leaves, register by register (R160): `code` in STATUS.ERR beside DONE = 1, BUSY = 0. -/
def faulted (s : State) (code : Nat) (info : Word) : State :=
  { s with status := BitVec.ofNat 32 (16 * code + 1), errinfo := info, dstlen := 0, pallen := 0 }

/-- Only the completion record and the buffer memory differ: the host-writable registers, the parameters and
the host's own fields are as they were (R11, R86). -/
def RegistersKept (s t : State) : Prop :=
  t = { s with
        mem := t.mem
        status := t.status
        errinfo := t.errinfo
        dstlen := t.dstlen
        pallen := t.pallen }

/-- The record of a command that succeeded (R13, R14, R16, R86 step 7). -/
def SuccessRecord (t : State) (dstlen pallen : Nat) : Prop :=
  t.status = 1 ∧ t.errinfo = 0 ∧ t.dstlen.toNat = dstlen ∧ t.pallen.toNat = pallen

/-- Every byte at or beyond the ends of a run of `n` bytes from `a` reads as before. -/
def KeepsOutside (s t : State) (a n : Nat) : Prop :=
  ∀ x, (x < a ∨ a + n ≤ x) → t.mem.read x = s.mem.read x

/-- `t` is `s` after a command that succeeded and stored the bytes `out` at DST, and nothing else. -/
structure StoredAtDst (s t : State) (out : List Byte) (pallen : Nat) : Prop where
  kept : RegistersKept s t
  record : SuccessRecord t out.length pallen
  stored : t.mem.readBytes s.dst.toNat out.length = some out
  frame : KeepsOutside s t s.dst.toNat out.length

/-! ### The regions and checks of each command, as its rule lists them -/

/-- `ceil_div(n × w, 8)` (R30). -/
def packedBytes (n w : Nat) : Nat := (n * w + 7) / 8

/-- Pixels of the raster WIDTH and HEIGHT give. -/
def rasterPixels (s : State) : Nat := s.width.toNat * s.height.toNat

/-- The input regions of a command (R33 to R38, R43, R66 to R68, R76, R77, R91, R103, R104, R110, R119). The level
sizes of TEX.DEC are R113's but for an odd 4-bit level, where they are the model's choice (DESIGN CHOICE, Log 9). -/
def inputRegions (s : State) : Instr → List Region
  | .nop => []
  | .sreset => []
  | .pack1 => [⟨s.src.toNat, s.count.toNat⟩]
  | .pack2 => [⟨s.src.toNat, s.count.toNat⟩]
  | .pack4 => [⟨s.src.toNat, s.count.toNat⟩]
  | .unpack1 => [⟨s.src.toNat, packedBytes s.count.toNat 1⟩]
  | .unpack2 => [⟨s.src.toNat, packedBytes s.count.toNat 2⟩]
  | .unpack4 => [⟨s.src.toNat, packedBytes s.count.toNat 4⟩]
  | .cvtEI4 => [⟨s.src.toNat, 4 * s.count.toNat⟩]
  | .cvtEI8 => [⟨s.src.toNat, 4 * s.count.toNat⟩]
  | .cvtEIA44 => [⟨s.src.toNat, 4 * s.count.toNat⟩]
  | .cvtEIA88 => [⟨s.src.toNat, 4 * s.count.toNat⟩]
  | .cvtERGB565 => [⟨s.src.toNat, 4 * s.count.toNat⟩]
  | .cvtERGB5A3 => [⟨s.src.toNat, 4 * s.count.toNat⟩]
  | .cvtEARGB8888 => [⟨s.src.toNat, 4 * s.count.toNat⟩]
  | .cvtEARGB4444 => [⟨s.src.toNat, 4 * s.count.toNat⟩]
  | .cvtDI4 => [⟨s.src.toNat, 1 * s.count.toNat⟩]
  | .cvtDI8 => [⟨s.src.toNat, 1 * s.count.toNat⟩]
  | .cvtDIA44 => [⟨s.src.toNat, 1 * s.count.toNat⟩]
  | .cvtDIA88 => [⟨s.src.toNat, 2 * s.count.toNat⟩]
  | .cvtDRGB565 => [⟨s.src.toNat, 2 * s.count.toNat⟩]
  | .cvtDRGB5A3 => [⟨s.src.toNat, 2 * s.count.toNat⟩]
  | .cvtDARGB8888 => [⟨s.src.toNat, 4 * s.count.toNat⟩]
  | .cvtDARGB4444 => [⟨s.src.toNat, 2 * s.count.toNat⟩]
  | .quant => [⟨s.src.toNat, 4 * rasterPixels s⟩]
  | .qmap => [⟨s.src.toNat, 4 * rasterPixels s⟩, ⟨s.aux.toNat, 4 * s.palsize.toNat⟩]
  | .plut => [⟨s.src.toNat, s.count.toNat⟩, ⟨s.aux.toNat, 4 * s.palsize.toNat⟩]
  | .bcEnc => [⟨s.src.toNat, 64 * s.count.toNat⟩]
  | .bcDec => [⟨s.src.toNat, 8 * s.count.toNat⟩]
  | .tileF => [⟨s.src.toNat, s.esize.toNat * rasterPixels s⟩]
  | .tileI => [⟨s.src.toNat, s.esize.toNat * rasterPixels s⟩]
  | .mipDown => [⟨s.src.toNat, 4 * rasterPixels s⟩]
  | .mipChain => [⟨s.src.toNat, 4 * rasterPixels s⟩]
  | .texEnc fmt =>
    match PixelFormat.ofCode fmt with
    | none => []
    | some _ => [⟨s.src.toNat, 4 * rasterPixels s⟩]
  | .texDec fmt =>
    match PixelFormat.ofCode fmt with
    | none => []
    | some f =>
      [⟨s.src.toNat, palBytes f s.optPalfmt⟩,
       ⟨s.src.toNat +
          levelOffset s.params f s.optPalfmt s.width.toNat s.height.toNat s.level.toNat,
        levelBytes s.params f (levelDim s.width.toNat s.level.toNat)
          (levelDim s.height.toNat s.level.toNat)⟩]

/-- The output regions of a command (the same rules). The payload length of TEX.ENC is R113's but for an odd 4-bit
level, where it is the model's choice (DESIGN CHOICE, Log 9). -/
def outputRegions (s : State) : Instr → List Region
  | .nop => []
  | .sreset => []
  | .pack1 => [⟨s.dst.toNat, packedBytes s.count.toNat 1⟩]
  | .pack2 => [⟨s.dst.toNat, packedBytes s.count.toNat 2⟩]
  | .pack4 => [⟨s.dst.toNat, packedBytes s.count.toNat 4⟩]
  | .unpack1 => [⟨s.dst.toNat, s.count.toNat⟩]
  | .unpack2 => [⟨s.dst.toNat, s.count.toNat⟩]
  | .unpack4 => [⟨s.dst.toNat, s.count.toNat⟩]
  | .cvtEI4 => [⟨s.dst.toNat, 1 * s.count.toNat⟩]
  | .cvtEI8 => [⟨s.dst.toNat, 1 * s.count.toNat⟩]
  | .cvtEIA44 => [⟨s.dst.toNat, 1 * s.count.toNat⟩]
  | .cvtEIA88 => [⟨s.dst.toNat, 2 * s.count.toNat⟩]
  | .cvtERGB565 => [⟨s.dst.toNat, 2 * s.count.toNat⟩]
  | .cvtERGB5A3 => [⟨s.dst.toNat, 2 * s.count.toNat⟩]
  | .cvtEARGB8888 => [⟨s.dst.toNat, 4 * s.count.toNat⟩]
  | .cvtEARGB4444 => [⟨s.dst.toNat, 2 * s.count.toNat⟩]
  | .cvtDI4 => [⟨s.dst.toNat, 4 * s.count.toNat⟩]
  | .cvtDI8 => [⟨s.dst.toNat, 4 * s.count.toNat⟩]
  | .cvtDIA44 => [⟨s.dst.toNat, 4 * s.count.toNat⟩]
  | .cvtDIA88 => [⟨s.dst.toNat, 4 * s.count.toNat⟩]
  | .cvtDRGB565 => [⟨s.dst.toNat, 4 * s.count.toNat⟩]
  | .cvtDRGB5A3 => [⟨s.dst.toNat, 4 * s.count.toNat⟩]
  | .cvtDARGB8888 => [⟨s.dst.toNat, 4 * s.count.toNat⟩]
  | .cvtDARGB4444 => [⟨s.dst.toNat, 4 * s.count.toNat⟩]
  | .quant => [⟨s.aux.toNat, 4 * s.palsize.toNat⟩, ⟨s.dst.toNat, rasterPixels s⟩]
  | .qmap => [⟨s.dst.toNat, rasterPixels s⟩]
  | .plut => [⟨s.dst.toNat, 4 * s.count.toNat⟩]
  | .bcEnc => [⟨s.dst.toNat, 8 * s.count.toNat⟩]
  | .bcDec => [⟨s.dst.toNat, 64 * s.count.toNat⟩]
  | .tileF => [⟨s.dst.toNat, s.esize.toNat * rasterPixels s⟩]
  | .tileI => [⟨s.dst.toNat, s.esize.toNat * rasterPixels s⟩]
  | .mipDown =>
    [⟨s.dst.toNat, 4 * (max 1 (s.width.toNat / 2) * max 1 (s.height.toNat / 2))⟩]
  | .mipChain => [⟨s.dst.toNat, chainBytes s.width.toNat s.height.toNat⟩]
  | .texEnc fmt =>
    match PixelFormat.ofCode fmt with
    | none => []
    | some f =>
      [⟨s.dst.toNat,
        payloadLen s.params f s.width.toNat s.height.toNat s.optMipmaps s.optPalfmt⟩]
  | .texDec fmt =>
    match PixelFormat.ofCode fmt with
    | none => []
    | some _ =>
      [⟨s.dst.toNat,
        4 * (levelDim s.width.toNat s.level.toNat * levelDim s.height.toNat s.level.toNat)⟩]

/-- The FMT field of a TEX command is no PixelFormat code (R83, R154). -/
def formatUnknown : Instr → Bool
  | .texEnc fmt => (PixelFormat.ofCode fmt).isNone
  | .texDec fmt => (PixelFormat.ofCode fmt).isNone
  | _ => false

/-- A register the command reads holds a value outside its legal set (R157, the causes register by register). -/
def operandIllegal (s : State) : Instr → Bool
  | .quant => s.palsize.toNat == 0 || 256 < s.palsize.toNat
  | .qmap => s.palsize.toNat == 0 || 256 < s.palsize.toNat
  | .plut => s.palsize.toNat == 0 || 256 < s.palsize.toNat
  | .tileF =>
    !(s.esize.toNat == 1 || s.esize.toNat == 2 || s.esize.toNat == 4) ||
      s.tilew.toNat == 0 || 65535 < s.tilew.toNat || s.tileh.toNat == 0 || 65535 < s.tileh.toNat
  | .tileI =>
    !(s.esize.toNat == 1 || s.esize.toNat == 2 || s.esize.toNat == 4) ||
      s.tilew.toNat == 0 || 65535 < s.tilew.toNat || s.tileh.toNat == 0 || 65535 < s.tileh.toNat
  | .texEnc fmt =>
    match PixelFormat.ofCode fmt with
    | some .index4 => s.palsize.toNat == 0 || 16 < s.palsize.toNat
    | some .index8 => s.palsize.toNat == 0 || 256 < s.palsize.toNat
    | _ => false
  | .texDec _ => levelCount s.width.toNat s.height.toNat s.optMipmaps ≤ s.level.toNat
  | _ => false

/-- WIDTH or HEIGHT is 0 or above 65535 (R153). -/
def rangeIllegal (s : State) : Bool :=
  s.width.toNat == 0 || 65535 < s.width.toNat || s.height.toNat == 0 || 65535 < s.height.toNat

/-- A dimension check of the command fails (R153). -/
def dimensionsIllegal (s : State) : Instr → Bool
  | .quant => rangeIllegal s
  | .qmap => rangeIllegal s
  | .mipDown => rangeIllegal s
  | .mipChain => rangeIllegal s
  | .tileF =>
    rangeIllegal s || s.width.toNat % s.tilew.toNat != 0 || s.height.toNat % s.tileh.toNat != 0
  | .tileI =>
    rangeIllegal s || s.width.toNat % s.tilew.toNat != 0 || s.height.toNat % s.tileh.toNat != 0
  | .texEnc fmt =>
    match PixelFormat.ofCode fmt with
    | none => false
    | some f =>
      rangeIllegal s || s.width.toNat % (formatTile s.params f).w != 0 ||
        s.height.toNat % (formatTile s.params f).h != 0
  | .texDec fmt =>
    match PixelFormat.ofCode fmt with
    | none => false
    | some f =>
      rangeIllegal s || s.width.toNat % (formatTile s.params f).w != 0 ||
        s.height.toNat % (formatTile s.params f).h != 0
  | _ => false

/-- The regions of the command are admitted (R26). -/
def regionsAdmitted (s : State) (i : Instr) : Bool :=
  admitted s.params.memBytes (inputRegions s i) (outputRegions s i)

/-- The command passes every check of steps 2 to 5 of R86, and the parameters are legal (R6). -/
def Accepted (s : State) (i : Instr) : Prop :=
  s.params.valid = true ∧ formatUnknown i = false ∧ operandIllegal s i = false ∧
    dimensionsIllegal s i = false ∧ regionsAdmitted s i = true

/-- The distinct colours of a raster, counted (R61, R155). -/
def distinctColours (px : List Pixel) : Nat := px.dedup.length

/-! ### The converter's codes and pixels, field by field, as the rules write them in integers -/

/-- The n-bit code of a channel value (R40). -/
def codeOf (n v : Nat) : Nat := (v * (2 ^ n - 1) + 127) / 255

/-- The luminance of a pixel (R42). -/
def lumaOf (p : Params) (x : Pixel) : Nat :=
  (p.lumaR * x.r.toNat + p.lumaG * x.g.toNat + p.lumaB * x.b.toNat + 128) / 256

/-- The code CVT.E.f gives a pixel, each field at its place as a sum of multiples (R44 to R58). -/
def encodedCode (p : Params) (x : Pixel) : Instr → Nat
  | .cvtEI4 => codeOf 4 (lumaOf p x)
  | .cvtEI8 => lumaOf p x
  | .cvtEIA44 => 16 * codeOf 4 x.a.toNat + codeOf 4 (lumaOf p x)
  | .cvtEIA88 => 256 * x.a.toNat + lumaOf p x
  | .cvtERGB565 => 2048 * codeOf 5 x.r.toNat + 32 * codeOf 6 x.g.toNat + codeOf 5 x.b.toNat
  | .cvtERGB5A3 =>
    if p.a3Threshold ≤ x.a.toNat then
      32768 + 1024 * codeOf 5 x.r.toNat + 32 * codeOf 5 x.g.toNat + codeOf 5 x.b.toNat
    else
      4096 * codeOf 3 x.a.toNat + 256 * codeOf 4 x.r.toNat + 16 * codeOf 4 x.g.toNat +
        codeOf 4 x.b.toNat
  | .cvtEARGB8888 =>
    16777216 * x.a.toNat + 65536 * x.r.toNat + 256 * x.g.toNat + x.b.toNat
  | .cvtEARGB4444 =>
    4096 * codeOf 4 x.a.toNat + 256 * codeOf 4 x.r.toNat + 16 * codeOf 4 x.g.toNat +
      codeOf 4 x.b.toNat
  | _ => 0

/-- Bit replication of a code to 8 bits (R41), in integers. -/
def spread (n c : Nat) : Nat :=
  match n with
  | 3 => 32 * c + 4 * c + c / 2
  | 4 => 17 * c
  | 5 => 8 * c + c / 4
  | 6 => 4 * c + c / 16
  | _ => c

/-- The channels r, g, b, a that CVT.D.f gives a code (R45 to R59). -/
def decodedChannels (c : Nat) : Instr → Nat × Nat × Nat × Nat
  | .cvtDI4 => (spread 4 (c % 16), spread 4 (c % 16), spread 4 (c % 16), 255)
  | .cvtDI8 => (c, c, c, 255)
  | .cvtDIA44 => (spread 4 (c % 16), spread 4 (c % 16), spread 4 (c % 16), spread 4 (c / 16))
  | .cvtDIA88 => (c % 256, c % 256, c % 256, c / 256)
  | .cvtDRGB565 => (spread 5 (c / 2048), spread 6 (c / 32 % 64), spread 5 (c % 32), 255)
  | .cvtDRGB5A3 =>
    if 32768 ≤ c then (spread 5 (c / 1024 % 32), spread 5 (c / 32 % 32), spread 5 (c % 32), 255)
    else (spread 4 (c / 256 % 16), spread 4 (c / 16 % 16), spread 4 (c % 16), spread 3 (c / 4096))
  | .cvtDARGB8888 => (c / 65536 % 256, c / 256 % 256, c % 256, c / 16777216)
  | .cvtDARGB4444 =>
    (spread 4 (c / 256 % 16), spread 4 (c / 16 % 16), spread 4 (c % 16), spread 4 (c / 4096))
  | _ => (0, 0, 0, 0)

/-- The channels of a pixel as integers. -/
def channelsOf (x : Pixel) : Nat × Nat × Nat × Nat := (x.r.toNat, x.g.toNat, x.b.toNat, x.a.toNat)

/-! ### Distances (R63, R70) -/

/-- The squared RGB distance, in integers (R70). -/
def squaredRGB (p q : Pixel) : Int :=
  ((p.r.toNat : Int) - q.r.toNat) ^ 2 + ((p.g.toNat : Int) - q.g.toNat) ^ 2 +
    ((p.b.toNat : Int) - q.b.toNat) ^ 2

/-- The squared RGBA distance, in integers (R63). -/
def squaredRGBA (p q : Pixel) : Int :=
  squaredRGB p q + ((p.a.toNat : Int) - q.a.toNat) ^ 2

/-- `i` is the least index below `n` at which `d` is smallest. -/
def LeastAt (d : Nat → Int) (n i : Nat) : Prop :=
  i < n ∧ (∀ j < n, d i ≤ d j) ∧ ∀ j < i, d i < d j

end Sys2Proof.Machine
end

