-- ==== Sys2Proof/Certificates/Slice0/Obligations.lean ====
section
/-! DEFINITION. The statements for the provers. -/

open Sys2Proof Sys2Proof.Machine

/-! ### Encoding -/

/-- R80, R81: decoding an encoded well-formed instruction gives it back, the FMT of TEX.ENC and TEX.DEC at
every value its field admits. -/
def Obligations.DecodeOfEncode : Prop :=
  ∀ i : Instr, i.wf = true → decode (encode i) = .ok i

/-- The row of R81 for each instruction: its match and its mask. -/
def tableRow : Instr → Word × Word
  | .nop => (0x00000000, 0xFFFFFFFF)
  | .sreset => (0x00000001, 0xFFFFFFFF)
  | .pack1 => (0x00000110, 0xFFFFFFFF)
  | .pack2 => (0x00000210, 0xFFFFFFFF)
  | .pack4 => (0x00000410, 0xFFFFFFFF)
  | .unpack1 => (0x00000111, 0xFFFFFFFF)
  | .unpack2 => (0x00000211, 0xFFFFFFFF)
  | .unpack4 => (0x00000411, 0xFFFFFFFF)
  | .cvtEI4 => (0x00000020, 0xFFFFFFFF)
  | .cvtDI4 => (0x00000021, 0xFFFFFFFF)
  | .cvtEI8 => (0x00000120, 0xFFFFFFFF)
  | .cvtDI8 => (0x00000121, 0xFFFFFFFF)
  | .cvtEIA44 => (0x00000220, 0xFFFFFFFF)
  | .cvtDIA44 => (0x00000221, 0xFFFFFFFF)
  | .cvtEIA88 => (0x00000320, 0xFFFFFFFF)
  | .cvtDIA88 => (0x00000321, 0xFFFFFFFF)
  | .cvtERGB565 => (0x00000420, 0xFFFFFFFF)
  | .cvtDRGB565 => (0x00000421, 0xFFFFFFFF)
  | .cvtERGB5A3 => (0x00000520, 0xFFFFFFFF)
  | .cvtDRGB5A3 => (0x00000521, 0xFFFFFFFF)
  | .cvtEARGB8888 => (0x00000620, 0xFFFFFFFF)
  | .cvtDARGB8888 => (0x00000621, 0xFFFFFFFF)
  | .cvtEARGB4444 => (0x00000720, 0xFFFFFFFF)
  | .cvtDARGB4444 => (0x00000721, 0xFFFFFFFF)
  | .quant => (0x00000030, 0xFFFFFFFF)
  | .qmap => (0x00000031, 0xFFFFFFFF)
  | .plut => (0x00000032, 0xFFFFFFFF)
  | .bcEnc => (0x00000040, 0xFFFFFFFF)
  | .bcDec => (0x00000041, 0xFFFFFFFF)
  | .tileF => (0x00000050, 0xFFFFFFFF)
  | .tileI => (0x00000051, 0xFFFFFFFF)
  | .mipDown => (0x00000060, 0xFFFFFFFF)
  | .mipChain => (0x00000061, 0xFFFFFFFF)
  | .texEnc _ => (0x00000070, 0xFFFFF0FF)
  | .texDec _ => (0x00000071, 0xFFFFF0FF)

/-- R81: the decoder reads an instruction exactly from the words that match its row, its FMT field being bits
11:8 of the word where the row leaves them free. -/
def Obligations.DecodeMatchesRow : Prop :=
  ∀ (w : Word) (i : Instr),
    decode w = .ok i ↔
      w &&& (tableRow i).2 = (tableRow i).1 ∧
        ((∃ f, i = .texEnc f ∨ i = .texDec f) → i.fmtField = w.toNat / 256 % 16)

/-- R81: words of every family, read off the table. -/
def Obligations.SampleWordsDecode : Prop :=
  decode 0x00000000 = .ok .nop ∧ decode 0x00000001 = .ok .sreset ∧
  decode 0x00000410 = .ok .pack4 ∧ decode 0x00000211 = .ok .unpack2 ∧
  decode 0x00000520 = .ok .cvtERGB5A3 ∧ decode 0x00000621 = .ok .cvtDARGB8888 ∧
  decode 0x00000031 = .ok .qmap ∧ decode 0x00000041 = .ok .bcDec ∧
  decode 0x00000051 = .ok .tileI ∧ decode 0x00000061 = .ok .mipChain ∧
  decode 0x00000470 = .ok (.texEnc 4) ∧ decode 0x00000E71 = .ok (.texDec 14)

/-- R83: the words that are no command, field by field. -/
def noCommand (top fmt unit op : Nat) : Prop :=
  top ≠ 0 ∨ 8 ≤ unit ∨ 3 ≤ op ∨ (op = 2 ∧ unit ≠ 3) ∨
    (unit = 1 ∧ fmt ≠ 1 ∧ fmt ≠ 2 ∧ fmt ≠ 4) ∨ (unit = 2 ∧ 8 ≤ fmt) ∨
    ((unit = 0 ∨ unit = 3 ∨ unit = 4 ∨ unit = 5 ∨ unit = 6) ∧ fmt ≠ 0)

/-- R83, R156, R160: the host's write of a word that is no command stores the word and faults with
IllegalCommand, ERRINFO = the word, nothing else being changed. -/
def Obligations.IllegalWordFaults : Prop :=
  ∀ (s : State) (w : Word) (rest : List HostAction),
    s.host = goWord w :: rest → s.busy = false →
    noCommand (w.toNat / 4096) (w.toNat / 256 % 16) (w.toNat / 16 % 16) (w.toNat % 16) →
    step s = .next (faulted { s with cmd := w, host := rest } 5 w)

/-! ### The host's side of the window -/

/-- R12, R28, R86: when the host's next action writes a command word that decodes, the step is `exec` of the
instruction on the state with the word in CMD. The list of actions is the model's own form of the host (Log 1). -/
def Obligations.StepRunsDecodedCommand : Prop :=
  ∀ (s : State) (w : Word) (i : Instr) (rest : List HostAction),
    s.host = goWord w :: rest → s.busy = false → decode w = .ok i → i.wf = true →
    step s = exec i { s with cmd := w, host := rest }

/-- R11, R15: a whole-word write of the window but for CMD changes the one register at that offset and
nothing else: stored as written, OPTIONS without bits 31:6; ignored for the four read-only registers and
at the reserved offsets. R11 speaks of 0x44 and above inside the window and gives the window no end; that every
aligned offset from there up ignores the write is the model's deduction (DEDUCED, Log 4). -/
def Obligations.WindowWriteEffect : Prop :=
  ∀ (s : State) (offset : Nat) (v : Word) (rest : List HostAction),
    s.host = .writeReg .word offset v :: rest → s.busy = false → offset % 4 = 0 → offset ≠ 0 →
    ∃ t, step s = .next t ∧ t.host = rest ∧ t.params = s.params ∧ t.mem = s.mem ∧
      t.hostData = s.hostData ∧ t.fresh = s.fresh ∧
      ∀ r : Reg, t.readReg r =
        if r.offset = offset ∧ r ≠ .status ∧ r ≠ .errinfo ∧ r ≠ .dstlen ∧ r ≠ .pallen then
          (if r = .options then BitVec.ofNat 32 (v.toNat % 64) else v)
        else s.readReg r

/-- R11: a whole-word read of the window hands the host the register at that offset, 0 at the reserved offsets
0x44 and above, and changes no register and no byte. R11 speaks of those offsets inside the window and gives the
window no end; that every aligned offset from 0x44 up reads 0 is the model's deduction (DEDUCED, Log 4). -/
def Obligations.WindowReadEffect : Prop :=
  ∀ (s : State) (offset : Nat) (rest : List HostAction),
    s.host = .readReg .word offset :: rest → offset % 4 = 0 →
    ∃ v, step s = .next { s with host := rest, hostData := v } ∧
      (∀ r : Reg, r.offset = offset → v = s.readReg r) ∧ (0x44 ≤ offset → v = 0)

/-- R11, R174, R175: what the model refuses of the host's accesses: a register access that is no aligned whole
word, and, while BUSY = 1, a write at any aligned offset of the window or an access to the buffer memory. R11 asks
for the refusal of bytes and halfwords, R174 forbids the write of a host-writable register while BUSY, and R175
accesses to the running command's regions. The rest is the model's deduction: the unaligned word (DEDUCED, Log 4),
and while BUSY the write of a read-only register or at a reserved offset, which R11 ignores, and every other access
to the buffer memory (DEDUCED, Log 5). -/
def Obligations.UndefinedAccessRefused : Prop :=
  ∀ (s : State) (rest : List HostAction),
    (∀ (width : AccessWidth) (offset : Nat) (v : Word), width ≠ .word ∨ offset % 4 ≠ 0 →
      (s.host = .writeReg width offset v :: rest → step s = .refused .notAWordAccess) ∧
      (s.host = .readReg width offset :: rest → step s = .refused .notAWordAccess)) ∧
    (s.busy = true → ∀ (offset a : Nat) (v : Word) (bs : List Byte),
      (offset % 4 = 0 → s.host = .writeReg .word offset v :: rest →
        step s = .refused .hostAccessWhileBusy) ∧
      (s.host = .storeMem a bs :: rest → step s = .refused .hostAccessWhileBusy) ∧
      (s.host = .loadMem a :: rest → step s = .refused .hostAccessWhileBusy))

/-- R20, R27: what the host's own accesses to the buffer memory do. The stop at an address that does not
exist is the model's choice (Log 12). R27 gives a byte never written no value and refuses a command that reads
one; that the host's own load of one is refused too is the model's deduction (Log 3). -/
def Obligations.HostMemoryAccess : Prop :=
  ∀ (s : State) (rest : List HostAction) (a : Nat), s.busy = false →
    (∀ bs : List Byte, s.host = .storeMem a bs :: rest →
      if bs = [] ∨ a + bs.length ≤ s.params.memBytes then
        ∃ t, step s = .next t ∧ t = { s with host := rest, mem := t.mem } ∧
          t.mem.readBytes a bs.length = some bs ∧ KeepsOutside s t a bs.length
      else step s = .fault .noSuchAddress) ∧
    (s.host = .loadMem a :: rest →
      if a < s.params.memBytes then
        match s.mem.read a with
        | some b => step s = .next { s with host := rest, hostData := BitVec.ofNat 32 b.toNat }
        | none => step s = .refused .unwrittenByte
      else step s = .fault .noSuchAddress)

/-! ### Reset -/

/-- R19, R171: after reset every register reads 0 and the core does nothing until the host acts; no byte of the
buffer memory has a value (R27). -/
def Obligations.ResetState : Prop :=
  (∀ r : Reg, State.reset.readReg r = 0) ∧ (∀ a, State.reset.mem.read a = none) ∧
    ∀ s : State, s.host = [] → step s = .next s

/-- R171, R172, R178: the hardware reset takes all seventeen registers to 0 and leaves the buffer memory and the
parameters as they were. -/
def Obligations.HardwareResetEffect : Prop :=
  ∀ (s : State) (rest : List HostAction), s.host = .reset :: rest →
    ∃ t, step s = .next t ∧ (∀ r : Reg, t.readReg r = 0) ∧ t.mem = s.mem ∧ t.params = s.params ∧
      t.host = rest

/-- R172: a reset that cuts a command short leaves the registers 0, every byte outside the command's output
regions as it was, and some value in every byte of an admitted command's output regions (which one is left
open: free bytes, Log 6). A word that is no command has no output region; that the memory of a command that fails
a check stays as it was, inside its output regions too, is the model's choice (Log 6). -/
def Obligations.ResetDuringCommand : Prop :=
  ∀ (s : State) (w : Word) (rest : List HostAction),
    s.host = .cutByReset w :: rest → s.busy = false →
    ∃ t, step s = .next t ∧ (∀ r : Reg, t.readReg r = 0) ∧ t.params = s.params ∧ t.host = rest ∧
      ((∀ i, decode w ≠ .ok i) → t.mem = s.mem) ∧
      ∀ i, decode w = .ok i →
        (∀ a, (∀ o ∈ outputRegions s i, a < o.start ∨ o.start + o.len ≤ a) →
          t.mem.read a = s.mem.read a) ∧
        (Accepted s i → ∀ o ∈ outputRegions s i, ∀ a, o.start ≤ a → a < o.start + o.len →
          t.mem.read a ≠ none) ∧
        (formatUnknown i = true ∨ operandIllegal s i = true ∨ dimensionsIllegal s i = true ∨
            regionsAdmitted s i = false →
          t.mem = s.mem)

/-! ### Invariants of the whole machine -/

/-- The invariant holds at reset. That MEM_BYTES is left open there is Log 2. -/
def Obligations.InvariantAtReset : Prop := Inv State.reset

/-- Every step from a state that meets the invariant leads to one that meets it: the memory keeps its canonical
form inside MEM_BYTES (R20), the reserved bits read 0 and BUSY is 0 (R13, R15), ERR is a code the core may
write (R151, R152), and the completion record is coherent (R14, R16, R160). -/
def Obligations.InvariantStep : Prop := ∀ s t : State, Inv s → step s = .next t → Inv t

/-- R178: no step changes the parameters. -/
def Obligations.ParametersConstant : Prop := ∀ s t : State, step s = .next t → t.params = s.params

/-- R11: "A command never writes any host-writable register", faulting or not; nor the parameters or the
host's own fields. -/
def Obligations.CommandsKeepHostRegisters : Prop :=
  ∀ (i : Instr) (s t : State), exec i s = .next t → RegistersKept s t

/-- R151, R160: a command that ends with a fault changes the completion record and nothing else, its code one
that R151 lists for the command, and ERRINFO the value R151 gives: FMT for UnknownPixelFormat, the number of
distinct colours of the raster for TooManyUniqueColors, 0 for the others. -/
def Obligations.FaultEffect : Prop :=
  ∀ (i : Instr) (s t : State), exec i s = .next t → t.err ≠ 0 →
    (t = faulted s 2 0 ∧
      (i ∈ [.quant, .qmap, .tileF, .tileI, .mipDown, .mipChain] ∨ ∃ f, i = .texEnc f ∨ i = .texDec f)) ∨
    (∃ f, (i = .texEnc f ∨ i = .texDec f) ∧ t = faulted s 3 (BitVec.ofNat 32 f)) ∨
    (∃ v, s.mem.readBytes s.src.toNat (4 * rasterPixels s) = some v ∧
      t = faulted s 4 (BitVec.ofNat 32 (distinctColours (pixelsOf (rasterPixels s) v))) ∧
      (i = .quant ∨ i = .texEnc 8 ∨ i = .texEnc 9)) ∨
    (t = faulted s 6 0 ∧
      (i ∈ [.quant, .qmap, .plut, .tileF, .tileI] ∨ ∃ f, i = .texEnc f ∨ i = .texDec f)) ∨
    (t = faulted s 7 0 ∧ i ≠ .nop ∧ i ≠ .sreset)

/-- R161: the same command on the state its fault left faults in the same way. -/
def Obligations.FaultRepeats : Prop :=
  ∀ (i : Instr) (s t : State), exec i s = .next t → t.err ≠ 0 → exec i t = .next t

/-- R177: a command changes exactly DSTLEN bytes from DST and, for QUANT, 4 × PALLEN bytes from AUX, at most:
every other byte reads as before. -/
def Obligations.BytesWritten : Prop :=
  ∀ (i : Instr) (s t : State), s.params.valid = true → exec i s = .next t →
    ∀ a, (a < s.dst.toNat ∨ s.dst.toNat + t.dstlen.toNat ≤ a) →
      (i = .quant → a < s.aux.toNat ∨ s.aux.toNat + 4 * t.pallen.toNat ≤ a) →
      t.mem.read a = s.mem.read a

/-- The registers a command may read (R11, the column "read by") and the parameters are the same. -/
def SameOperands (s s' : State) : Prop :=
  s'.params = s.params ∧ s'.options = s.options ∧ s'.src = s.src ∧ s'.dst = s.dst ∧ s'.aux = s.aux ∧
    s'.count = s.count ∧ s'.width = s.width ∧ s'.height = s.height ∧ s'.tilew = s.tilew ∧
    s'.tileh = s.tileh ∧ s'.esize = s.esize ∧ s'.palsize = s.palsize ∧ s'.level = s.level

/-- R5: what a command does depends on its operand registers, the parameters and the bytes of its input regions,
and on nothing else: the record is the same, and every byte it writes is. -/
def Obligations.DependsOnInputsOnly : Prop :=
  ∀ (i : Instr) (s s' t : State), SameOperands s s' →
    (∀ r ∈ inputRegions s i, ∀ a, r.start ≤ a → a < r.start + r.len →
      s'.mem.read a = s.mem.read a) →
    exec i s = .next t →
    ∃ t', exec i s' = .next t' ∧ t'.status = t.status ∧ t'.errinfo = t.errinfo ∧
      t'.dstlen = t.dstlen ∧ t'.pallen = t.pallen ∧
      ∀ a, t'.mem.read a = t.mem.read a ∨
        (t'.mem.read a = s'.mem.read a ∧ t.mem.read a = s.mem.read a)

/-! ### The checks every command makes -/

/-- R26: a command's regions are admitted exactly when every region of non-zero length lies inside the buffer
memory and every output region of non-zero length shares no byte with an input region or another output
region. -/
def Obligations.AdmissionRule : Prop :=
  ∀ (memBytes : Nat) (ins outs : List Region),
    admitted memBytes ins outs = true ↔
      (∀ r ∈ ins ++ outs, r.len ≠ 0 → r.start + r.len ≤ memBytes) ∧
      (∀ o ∈ outs, ∀ r ∈ ins, ∀ a, ¬ (o.start ≤ a ∧ a < o.start + o.len ∧
        r.start ≤ a ∧ a < r.start + r.len)) ∧
      ∀ (j k : Nat) (o q : Region), j < k → outs[j]? = some o → outs[k]? = some q →
        ∀ a, ¬ (o.start ≤ a ∧ a < o.start + o.len ∧ q.start ≤ a ∧ a < q.start + q.len)

/-- R86, R159, with R153, R154, R157, R158: the fault of the first failing check, in the order format, operand
registers, dimensions, regions, before any byte is read. -/
def Obligations.FaultPriority : Prop :=
  ∀ (i : Instr) (s : State),
    if formatUnknown i = true then exec i s = .next (faulted s 3 (BitVec.ofNat 32 i.fmtField))
    else if operandIllegal s i = true then exec i s = .next (faulted s 6 0)
    else if dimensionsIllegal s i = true then exec i s = .next (faulted s 2 0)
    else regionsAdmitted s i = false → exec i s = .next (faulted s 7 0)

/-- R27: a command that passes its checks and has an input region with a byte nothing has written is refused by
the model. -/
def Obligations.UnwrittenInputRefused : Prop :=
  ∀ (i : Instr) (s : State) (r : Region) (a : Nat), Accepted s i → r ∈ inputRegions s i →
    r.start ≤ a → a < r.start + r.len → s.mem.read a = none →
    exec i s = .refused .unwrittenByte

/-! ### System commands -/

/-- R140: the word 0 is NOP, which ends like any command: DONE = 1, ERR = 0, ERRINFO = DSTLEN = PALLEN = 0, and
nothing else changes. -/
def Obligations.NopEffect : Prop :=
  decode 0x00000000 = .ok .nop ∧
  ∀ s : State, exec .nop s = .next { s with status := 1, errinfo := 0, dstlen := 0, pallen := 0 }

/-- R141: the word 1 is SRESET, which clears STATUS, ERRINFO, DSTLEN and PALLEN, and nothing else changes. -/
def Obligations.SresetEffect : Prop :=
  decode 0x00000001 = .ok .sreset ∧
  ∀ s : State, exec .sreset s = .next { s with status := 0, errinfo := 0, dstlen := 0, pallen := 0 }

/-! ### BitPacker -/

/-- R31, R33 to R35: PACK.w completes, and slot k of its output holds the low w bits of value k, 0 past the last
value; nothing else changes. -/
def Obligations.PackCompletes : Prop :=
  ∀ (i : Instr) (w : Nat), (i, w) ∈ [(Instr.pack1, 1), (Instr.pack2, 2), (Instr.pack4, 4)] →
    ∀ (s : State) (v : List Byte), Accepted s i →
      s.mem.readBytes s.src.toNat s.count.toNat = some v →
      ∃ t out, exec i s = .next t ∧ StoredAtDst s t out 0 ∧
        out.length = packedBytes s.count.toNat w ∧
        ∀ k < 8 / w * out.length,
          (out.getD (k / (8 / w)) 0).toNat / 2 ^ (8 - w - w * (k % (8 / w))) % 2 ^ w =
            if k < s.count.toNat then (v.getD k 0).toNat % 2 ^ w else 0

/-- R32, R36 to R38: UNPACK.w completes, and value k of its output is slot k of its input; nothing else changes. -/
def Obligations.UnpackCompletes : Prop :=
  ∀ (i : Instr) (w : Nat), (i, w) ∈ [(Instr.unpack1, 1), (Instr.unpack2, 2), (Instr.unpack4, 4)] →
    ∀ (s : State) (v : List Byte), Accepted s i →
      s.mem.readBytes s.src.toNat (packedBytes s.count.toNat w) = some v →
      ∃ t out, exec i s = .next t ∧ StoredAtDst s t out 0 ∧ out.length = s.count.toNat ∧
        ∀ k < s.count.toNat,
          (out.getD k 0).toNat =
            (v.getD (k / (8 / w)) 0).toNat / 2 ^ (8 - w - w * (k % (8 / w))) % 2 ^ w

/-- R32: Unpack takes value k from its slot, depends on the first plen(n, w) bytes alone, and gives back the low
w bits of every value that was packed. -/
def Obligations.UnpackFunction : Prop :=
  ∀ w ∈ [1, 2, 4],
    (∀ (n : Nat) (bs : List Byte), (unpack w n bs).length = n ∧
      unpack w n (bs.take (packedBytes n w)) = unpack w n bs ∧
      ∀ k < n, (unpack w n bs).getD k 0 =
        (bs.getD (k / (8 / w)) 0).toNat / 2 ^ (8 - w - w * (k % (8 / w))) % 2 ^ w) ∧
    ∀ v : List Nat, unpack w v.length (pack w v) = v.map fun x => x % 2 ^ w

/-! ### ColorConverter -/

/-- R40: the narrowed code is the n-bit code nearest to v × (2^n - 1) / 255, no other code being as near, and
narrowing keeps 0, 255 and the order. -/
def Obligations.NarrowingIsNearest : Prop :=
  ∀ n ∈ [3, 4, 5, 6], ∀ v < 256,
    narrow n v = (v * (2 ^ n - 1) + 127) / 255 ∧ narrow n v < 2 ^ n ∧
    (∀ c < 2 ^ n, c ≠ narrow n v →
      ((255 * narrow n v : Int) - v * (2 ^ n - 1)).natAbs <
        ((255 * c : Int) - v * (2 ^ n - 1)).natAbs) ∧
    narrow n 0 = 0 ∧ narrow n 255 = 2 ^ n - 1 ∧ ∀ u ≤ v, narrow n u ≤ narrow n v

/-- R41: an 8-bit code is its own value; widening a narrower one replicates the code's bits, keeps the two
ends, is undone by narrowing, and a channel narrowed and widened moves by at most 18, 8, 4, 2 for 3, 4, 5,
6 bits. -/
def Obligations.WideningLaws : Prop :=
  (∀ c, widen8 c = c) ∧
  ∀ (n : Nat) (x : Nat → Nat) (bound : Nat),
    (n, x, bound) ∈ [(3, widen3, 18), (4, widen4, 8), (5, widen5, 4), (6, widen6, 2)] →
    x 0 = 0 ∧ x (2 ^ n - 1) = 255 ∧ (∀ c < 2 ^ n, x c = spread n c ∧ narrow n (x c) = c) ∧
      ∀ v < 256, ((x (narrow n v) : Int) - v).natAbs ≤ bound

/-- The instructions and element size of a group of CVT.E or CVT.D commands, and what one run of them does. -/
def ConverterEncodes (i : Instr) (size : Nat) : Prop :=
  ∀ (s : State) (v : List Byte), Accepted s i →
    s.mem.readBytes s.src.toNat (4 * s.count.toNat) = some v →
    ∃ t out, exec i s = .next t ∧ StoredAtDst s t out 0 ∧ out.length = size * s.count.toNat ∧
      ∀ k < s.count.toNat,
        fromBigEndian ((out.drop (size * k)).take size) = encodedCode s.params (pixelAt v k) i

/-- What one run of a CVT.D command does. -/
def ConverterDecodes (i : Instr) (size : Nat) : Prop :=
  ∀ (s : State) (v : List Byte), Accepted s i →
    s.mem.readBytes s.src.toNat (size * s.count.toNat) = some v →
    ∃ t out, exec i s = .next t ∧ StoredAtDst s t out 0 ∧ out.length = 4 * s.count.toNat ∧
      ∀ k < s.count.toNat,
        channelsOf (pixelAt out k) =
          decodedChannels (fromBigEndian ((v.drop (size * k)).take size)) i

/-- R43, R44, R46, R48: CVT.E to the one-byte encodings completes with the rule's code in every element, nothing
else changing. -/
def Obligations.EncodeToOneByte : Prop :=
  ∀ i ∈ [Instr.cvtEI4, Instr.cvtEI8, Instr.cvtEIA44], ConverterEncodes i 1

/-- R43, R50, R52, R54, R58: CVT.E to the two-byte encodings completes with the rule's code, most significant
byte first, in every element, nothing else changing. -/
def Obligations.EncodeToTwoBytes : Prop :=
  ∀ i ∈ [Instr.cvtEIA88, Instr.cvtERGB565, Instr.cvtERGB5A3, Instr.cvtEARGB4444],
    ConverterEncodes i 2

/-- R43, R56: CVT.E.ARGB8888 completes with a, r, g, b in every element, nothing else changing. -/
def Obligations.EncodeToFourBytes : Prop := ConverterEncodes .cvtEARGB8888 4

/-- R43, R45, R47, R49: CVT.D from the one-byte encodings completes with the rule's pixel for every element. -/
def Obligations.DecodeFromOneByte : Prop :=
  ∀ i ∈ [Instr.cvtDI4, Instr.cvtDI8, Instr.cvtDIA44], ConverterDecodes i 1

/-- R43, R51, R53, R55, R59: CVT.D from the two-byte encodings completes with the rule's pixel for every element. -/
def Obligations.DecodeFromTwoBytes : Prop :=
  ∀ i ∈ [Instr.cvtDIA88, Instr.cvtDRGB565, Instr.cvtDRGB5A3, Instr.cvtDARGB4444],
    ConverterDecodes i 2

/-- R43, R57: CVT.D.ARGB8888 completes with the rule's pixel for every element. -/
def Obligations.DecodeFromFourBytes : Prop := ConverterDecodes .cvtDARGB8888 4

/-! ### Quantizer -/

/-- The errors that the pixel (y, x) of a raster `w` pixels wide receives, in sixteenths: 7 from its left
neighbour, 3, 5 and 1 from its upper right, upper and upper left ones, those outside the raster giving
nothing (R65). -/
def carriedError (w : Nat) (e : Nat → Nat → Int) (y x : Nat) : Int :=
  (if 0 < x then 7 * e y (x - 1) else 0) +
    (if 0 < y ∧ x + 1 < w then 3 * e (y - 1) (x + 1) else 0) +
    (if 0 < y then 5 * e (y - 1) x else 0) +
    (if 0 < y ∧ 0 < x then e (y - 1) (x - 1) else 0)

/-- The index chosen for (y, x), as an entry of the palette. -/
def chosenEntry (w : Nat) (pal : List Pixel) (idx : List Nat) (y x : Nat) : Pixel :=
  pal.getD (idx.getD (y * w + x) 0) Pixel.zero

/-- R65: the indices of an error diffusion. Every index is the least of those nearest to a target, and each
channel of the target is the pixel's plus a sixteenth of the errors it receives, rounded half up, clamped to
0 to 255, the error of a pixel being its target less the entry chosen for it. -/
def DiffusedIndices (px : List Pixel) (w h : Nat) (pal : List Pixel) (idx : List Nat) : Prop :=
  idx.length = w * h ∧
  ∃ target : Nat → Nat → Pixel, ∀ y < h, ∀ x < w,
    LeastAt (fun j => squaredRGBA (target y x) (pal.getD j Pixel.zero)) pal.length
      (idx.getD (y * w + x) 0) ∧
    ∀ ch ∈ [Pixel.r, Pixel.g, Pixel.b, Pixel.a],
      ((ch (target y x)).toNat : Int) =
        max 0 (min 255 (((ch (px.getD (y * w + x) Pixel.zero)).toNat : Int) +
          (carriedError w
            (fun v u => ((ch (target v u)).toNat : Int) - (ch (chosenEntry w pal idx v u)).toNat)
            y x + 8) / 16))

/-- R63 to R65: the indices of a w×h raster against a palette: without dither the least nearest entry of every
pixel, with dither those of the error diffusion. -/
def AssignedIndices (px : List Pixel) (w h : Nat) (pal : List Pixel) (dither : Bool)
    (idx : List Nat) : Prop :=
  if dither = true then DiffusedIndices px w h pal idx
  else
    idx.length = w * h ∧
    ∀ k < w * h,
      LeastAt (fun j => squaredRGBA (px.getD k Pixel.zero) (pal.getD j Pixel.zero)) pal.length
        (idx.getD k 0)

/-- R61, R63 to R66, R69: QUANT completes unless it is strict and the colours do not fit: the palette of
BuildPalette, of min(U, K) entries, at AUX, and the index assigned to each pixel at DST, every other byte kept.
When the colours fit, the palette is the distinct colours by ascending key. -/
def Obligations.QuantCompletes : Prop :=
  ∀ (s : State) (v : List Byte), Accepted s .quant →
    s.mem.readBytes s.src.toNat (4 * rasterPixels s) = some v →
    (s.optStrict = true →
      distinctColours (pixelsOf (rasterPixels s) v) ≤ s.palsize.toNat) →
    ∃ (t : State) (pal : List Pixel) (idx : List Byte),
      exec .quant s = .next t ∧ RegistersKept s t ∧
      SuccessRecord t (rasterPixels s) pal.length ∧ idx.length = rasterPixels s ∧
      buildPalette (pixelsOf (rasterPixels s) v) s.palsize.toNat s.optStrict = .ok pal ∧
      pal.length = min (distinctColours (pixelsOf (rasterPixels s) v)) s.palsize.toNat ∧
      t.mem.readBytes s.aux.toNat (4 * pal.length) = some (pixelBytes pal) ∧
      t.mem.readBytes s.dst.toNat (rasterPixels s) = some idx ∧
      (∀ a, (a < s.aux.toNat ∨ s.aux.toNat + 4 * pal.length ≤ a) →
        (a < s.dst.toNat ∨ s.dst.toNat + rasterPixels s ≤ a) → t.mem.read a = s.mem.read a) ∧
      (∀ b ∈ idx, b.toNat < pal.length) ∧
      (distinctColours (pixelsOf (rasterPixels s) v) ≤ s.palsize.toNat →
        (∀ x, x ∈ pal ↔ x ∈ pixelsOf (rasterPixels s) v) ∧
        pal.Pairwise fun x y => pixelKey x < pixelKey y) ∧
      AssignedIndices (pixelsOf (rasterPixels s) v) s.width.toNat s.height.toNat pal s.optDither
        (idx.map BitVec.toNat)

/-- R155 with R61, R66, R110: with STRICT set and more distinct colours than PALSIZE, QUANT and TEX.ENC of an
index format fault with TooManyUniqueColors, ERRINFO the number of colours. -/
def Obligations.TooManyColoursFaults : Prop :=
  ∀ (i : Instr) (s : State) (v : List Byte), i ∈ [Instr.quant, Instr.texEnc 8, Instr.texEnc 9] →
    Accepted s i → s.mem.readBytes s.src.toNat (4 * rasterPixels s) = some v →
    s.optStrict = true → s.palsize.toNat < distinctColours (pixelsOf (rasterPixels s) v) →
    exec i s =
      .next (faulted s 4 (BitVec.ofNat 32 (distinctColours (pixelsOf (rasterPixels s) v))))

/-- Channel 0, 1, 2 or 3 of a pixel: r, g, b, a. -/
def channelValue (ch : Nat) (x : Pixel) : Nat := ([x.r, x.g, x.b, x.a].getD ch 0).toNat

/-- The key of a colour, in integers (R61). -/
def keyOf (x : Pixel) : Nat :=
  16777216 * x.r.toNat + 65536 * x.g.toNat + 256 * x.b.toNat + x.a.toNat

/-- The largest less the smallest value of a channel in a box (R62). -/
def rangeOf (box : Box) (ch : Nat) : Nat :=
  ((box.map fun e => channelValue ch e.1).max?.getD 0) -
    ((box.map fun e => channelValue ch e.1).min?.getD 0)

/-- The largest of a box's four ranges (R62). -/
def spanOf (box : Box) : Nat := ((List.range 4).map (rangeOf box)).max?.getD 0

/-- How many pixels the first `j` entries of a box stand for. -/
def firstCounts (box : Box) (j : Nat) : Nat := ((box.take j).map Prod.snd).sum

/-- R62: `k` is the least j ≥ 1 whose first j counts are half of the total or more, clamped to leave an entry
on each side. -/
def CutAt (sorted : Box) (k : Nat) : Prop :=
  ∃ j, 1 ≤ j ∧ firstCounts sorted sorted.length ≤ 2 * firstCounts sorted j ∧
    (∀ i, 1 ≤ i → i < j → 2 * firstCounts sorted i < firstCounts sorted sorted.length) ∧
    k = max 1 (min j (sorted.length - 1))

/-- R62, one turn of the loop: the first box of the largest span among those of two colours or more, sorted by
the first channel of its largest range and then by key, is cut; its upper part becomes the last box. -/
def SplitRule (boxes split : List Box) : Prop :=
  ∃ (b ch k : Nat) (box sorted : Box),
    boxes[b]? = some box ∧ 2 ≤ box.length ∧
    (∀ (j : Nat) (q : Box), boxes[j]? = some q → 2 ≤ q.length →
      spanOf q ≤ spanOf box ∧ (j < b → spanOf q < spanOf box)) ∧
    LeastAt (fun c => -(rangeOf box c : Int)) 4 ch ∧
    sorted.Perm box ∧
    (sorted.Pairwise fun e f =>
      channelValue ch e.1 < channelValue ch f.1 ∨
        (channelValue ch e.1 = channelValue ch f.1 ∧ keyOf e.1 < keyOf f.1)) ∧
    CutAt sorted k ∧ split = boxes.set b (sorted.take k) ++ [sorted.drop k]

/-- The mean of a channel over a box, weighted by the counts, rounded half up (R62). -/
def meanOf (box : Box) (ch : Nat) : Nat :=
  ((box.map fun e => e.2 * channelValue ch e.1).sum + firstCounts box box.length / 2) /
    firstCounts box box.length

/-- R62: the boxes of the median cut after n splits of a histogram of more than n colours: n + 1, none empty,
holding together exactly the histogram; the next split follows the rule while a box of two colours is left; and
the palette of K = n + 1 entries is the boxes' means. -/
def Obligations.MedianCutRule : Prop :=
  ∀ (px : List Pixel) (n : Nat), n < distinctColours px →
    let boxes := splitTimes n [histogram px]
    boxes.length = n + 1 ∧ (∀ b ∈ boxes, b ≠ []) ∧ boxes.flatten.Perm (histogram px) ∧
    (n = 0 → boxes = [histogram px]) ∧
    (n + 1 < distinctColours px →
      SplitRule boxes (splitTimes (n + 1) [histogram px]) ∧
      ∃ pal, buildPalette px (n + 1) false = .ok pal ∧ pal.length = n + 1 ∧
        ∀ j box, boxes[j]? = some box →
          channelsOf (pal.getD j Pixel.zero) =
            (meanOf box 0, meanOf box 1, meanOf box 2, meanOf box 3))

/-- R61: the histogram is the distinct colours with how often each occurs, by ascending key; a palette bound that
holds them all gives them all, in that order; a smaller one is TooManyUniqueColors(U) in strict mode. R62: the
palette depends on the multiset of the pixels alone, not on their positions. -/
def Obligations.PaletteRule : Prop :=
  ∀ px : List Pixel,
    (∀ (x : Pixel) (m : Nat), (x, m) ∈ histogram px ↔ x ∈ px ∧ m = px.count x) ∧
    ((histogram px).Pairwise fun e f => keyOf e.1 < keyOf f.1) ∧
    ∀ k : Nat,
      (∀ strict, distinctColours px ≤ k →
        buildPalette px k strict = .ok ((histogram px).map Prod.fst)) ∧
      (k < distinctColours px →
        buildPalette px k true =
          .error ⟨.tooManyUniqueColors, BitVec.ofNat 32 (distinctColours px)⟩) ∧
      ∀ (strict : Bool) (px' : List Pixel), px.Perm px' →
        buildPalette px k strict = buildPalette px' k strict

/-- R63 to R65: MapIndices assigns the indices of the rule, plain or diffused; and with a palette that holds every
colour of the raster, error diffusion assigns the indices the plain assignment does. -/
def Obligations.AssignmentRule : Prop :=
  ∀ (px : List Pixel) (w h : Nat) (pal : List Pixel), px.length = w * h →
    (∀ dither, pal ≠ [] → AssignedIndices px w h pal dither (mapIndices px w h pal dither)) ∧
    ((∀ x ∈ px, x ∈ pal) → mapIndices px w h pal true = mapIndices px w h pal false)

/-- R63 to R65, R67: QMAP completes with one index per pixel, below PALSIZE, as the rule assigns them against the
palette at AUX. Nothing else changes. -/
def Obligations.QmapCompletes : Prop :=
  ∀ (s : State) (v c : List Byte), Accepted s .qmap →
    s.mem.readBytes s.src.toNat (4 * rasterPixels s) = some v →
    s.mem.readBytes s.aux.toNat (4 * s.palsize.toNat) = some c →
    ∃ t idx, exec .qmap s = .next t ∧ StoredAtDst s t idx 0 ∧ idx.length = rasterPixels s ∧
      (∀ b ∈ idx, b.toNat < s.palsize.toNat) ∧
      AssignedIndices (pixelsOf (rasterPixels s) v) s.width.toNat s.height.toNat
        (pixelsOf s.palsize.toNat c) s.optDither (idx.map BitVec.toNat)

/-- R68: PLUT completes when every index names an entry, each pixel being the entry's, and faults with
IllegalOperand, nothing written, when one does not. -/
def Obligations.PlutOutcome : Prop :=
  ∀ (s : State) (v c : List Byte), Accepted s .plut →
    s.mem.readBytes s.src.toNat s.count.toNat = some v →
    s.mem.readBytes s.aux.toNat (4 * s.palsize.toNat) = some c →
    if ∀ b ∈ v, b.toNat < s.palsize.toNat then
      ∃ t out, exec .plut s = .next t ∧ StoredAtDst s t out 0 ∧
        out.length = 4 * s.count.toNat ∧
        ∀ k < s.count.toNat, pixelAt out k = pixelAt c (v.getD k 0).toNat
    else exec .plut s = .next (faulted s 6 0)

/-! ### BlockCompressor -/

/-- The pair (i, j) comes no later than (k, l) in the order (0,1), (0,2), ..., (14,15) (R70). -/
def PairBefore (i j k l : Nat) : Prop := i < k ∨ (i = k ∧ j < l)

/-- R70: E0 and E1 of the exact search, at the first pair of largest distance. -/
def BestPair (blk : List Pixel) (i j : Nat) : Prop :=
  i < j ∧ j < 16 ∧ ∀ k l, k < l → l < 16 →
    squaredRGB (blockPixel blk k) (blockPixel blk l) ≤
      squaredRGB (blockPixel blk i) (blockPixel blk j) ∧
    (PairBefore k l i j →
      squaredRGB (blockPixel blk k) (blockPixel blk l) <
        squaredRGB (blockPixel blk i) (blockPixel blk j))

/-- R71: the least indices of the largest and of the smallest luminance. -/
def FastPair (p : Params) (blk : List Pixel) (i j : Nat) : Prop :=
  LeastAt (fun k => -(lumaOf p (blockPixel blk k) : Int)) 16 i ∧
    LeastAt (fun k => (lumaOf p (blockPixel blk k) : Int)) 16 j

/-- R70, R71, R73: a compressed block stores the codes of the two endpoints the search of its quality finds, the
larger first, and for every pixel the least index of the nearest of the four colours. -/
def Obligations.CompressedBlockRule : Prop :=
  ∀ (p : Params) (best : Bool) (blk : List Pixel), blk.length = 16 →
    (∃ i j, (if best = true then BestPair blk i j else FastPair p blk i j) ∧
      (compressBlock p best blk).c0 =
        max (encRGB565 (blockPixel blk i)) (encRGB565 (blockPixel blk j)) ∧
      (compressBlock p best blk).c1 =
        min (encRGB565 (blockPixel blk i)) (encRGB565 (blockPixel blk j))) ∧
    (compressBlock p best blk).idx.length = 16 ∧
    ∀ k < 16,
      LeastAt
        (fun m => squaredRGB (blockPixel blk k)
          ((blockColours (compressBlock p best blk).c0 (compressBlock p best blk).c1).getD m
            Pixel.zero))
        4 ((compressBlock p best blk).idx.getD k 0)

/-- R74, R76: BC.ENC completes, block m of the output being the two codes of block m of the input, most
significant byte first, and its sixteen indices, 2 bits each from the top. Nothing else changes. -/
def Obligations.BlockEncodeCompletes : Prop :=
  ∀ (s : State) (v : List Byte), Accepted s .bcEnc →
    s.mem.readBytes s.src.toNat (64 * s.count.toNat) = some v →
    ∃ t out, exec .bcEnc s = .next t ∧ StoredAtDst s t out 0 ∧ out.length = 8 * s.count.toNat ∧
      ∀ m < s.count.toNat,
        let c := compressBlock s.params s.optQuality
          ((List.range 16).map fun k => pixelAt v (16 * m + k))
        256 * (out.getD (8 * m) 0).toNat + (out.getD (8 * m + 1) 0).toNat = c.c0 ∧
        256 * (out.getD (8 * m + 2) 0).toNat + (out.getD (8 * m + 3) 0).toNat = c.c1 ∧
        ∀ k < 16,
          (out.getD (8 * m + 4 + k / 4) 0).toNat / 4 ^ (3 - k % 4) % 4 = c.idx.getD k 0

/-- Channel by channel, the four colours of a block with the endpoint pixels e0 and e1 (R72). -/
def blockColourChannel (e0 e1 i : Nat) : Nat :=
  match i with
  | 0 => e0
  | 1 => e1
  | 2 => (2 * e0 + e1 + 1) / 3
  | _ => (e0 + 2 * e1 + 1) / 3

/-- The channels of pixel `k` of the stored block that `v` starts with: the colour its two bits select among the two
endpoints and their thirds, alpha 255 (R72, R75). -/
def decodedBlockChannels (v : List Byte) (k : Nat) : Nat × Nat × Nat × Nat :=
  let e0 := decodedChannels (256 * (v.getD 0 0).toNat + (v.getD 1 0).toNat) .cvtDRGB565
  let e1 := decodedChannels (256 * (v.getD 2 0).toNat + (v.getD 3 0).toNat) .cvtDRGB565
  let i := (v.getD (4 + k / 4) 0).toNat / 4 ^ (3 - k % 4) % 4
  (blockColourChannel e0.1 e1.1 i, blockColourChannel e0.2.1 e1.2.1 i,
    blockColourChannel e0.2.2.1 e1.2.2.1 i, 255)

/-- R72, R75, R77: BC.DEC completes, every pixel of block m being the colour its two bits select among the two
endpoints and their thirds, alpha 255. Nothing else changes. -/
def Obligations.BlockDecodeCompletes : Prop :=
  ∀ (s : State) (v : List Byte), Accepted s .bcDec →
    s.mem.readBytes s.src.toNat (8 * s.count.toNat) = some v →
    ∃ t out, exec .bcDec s = .next t ∧ StoredAtDst s t out 0 ∧ out.length = 64 * s.count.toNat ∧
      ∀ m < s.count.toNat, ∀ k < 16,
        channelsOf (pixelAt out (16 * m + k)) = decodedBlockChannels (v.drop (8 * m)) k

/-- R78 (a): a block of sixteen equal pixels comes back as sixteen copies of the pixel's RGB565 round trip,
whatever the quality. -/
def Obligations.SolidBlockRoundTrip : Prop :=
  ∀ (p : Params) (best : Bool) (x : Pixel),
    decompressBlock (compressBlock p best (List.replicate 16 x)).bytes =
      List.replicate 16 (decRGB565 (encRGB565 x))

/-! ### Tiler -/

/-- R94: the place of (row, col) in the tiled order of W×H with tiles of tw×th. -/
def placeOf (w tw th row col : Nat) : Nat :=
  (row / th * (w / tw) + col / tw) * (tw * th) + row % th * tw + col % tw

/-- R90, R94: the tiled traversal is a bijection from 0 .. W×H - 1 onto the grid, with the closed form of R94 as
its inverse. -/
def Obligations.TileOrderBijection : Prop :=
  ∀ (w h tw th : Nat), 1 ≤ tw → 1 ≤ th → w % tw = 0 → h % th = 0 →
    (∀ k < w * h, (tileCoord w tw th k).1 < h ∧ (tileCoord w tw th k).2 < w ∧
      placeOf w tw th (tileCoord w tw th k).1 (tileCoord w tw th k).2 = k) ∧
    ∀ row < h, ∀ col < w, placeOf w tw th row col < w * h ∧
      tileCoord w tw th (placeOf w tw th row col) = (row, col)

/-- R91, R92: TILE.F completes, the bytes of element (row, col) standing together at the element's place in the
tiled order. Nothing else changes. -/
def Obligations.TileForwardCompletes : Prop :=
  ∀ (s : State) (v : List Byte), Accepted s .tileF →
    s.mem.readBytes s.src.toNat (s.esize.toNat * rasterPixels s) = some v →
    ∃ t out, exec .tileF s = .next t ∧ StoredAtDst s t out 0 ∧
      out.length = s.esize.toNat * rasterPixels s ∧
      ∀ row < s.height.toNat, ∀ col < s.width.toNat, ∀ b < s.esize.toNat,
        out.getD (s.esize.toNat *
            placeOf s.width.toNat s.tilew.toNat s.tileh.toNat row col + b) 0 =
          v.getD (s.esize.toNat * (row * s.width.toNat + col) + b) 0

/-- R91, R93: TILE.I completes, the bytes of the element at each place of the tiled order standing together at
its position in raster order. Nothing else changes. -/
def Obligations.TileInverseCompletes : Prop :=
  ∀ (s : State) (v : List Byte), Accepted s .tileI →
    s.mem.readBytes s.src.toNat (s.esize.toNat * rasterPixels s) = some v →
    ∃ t out, exec .tileI s = .next t ∧ StoredAtDst s t out 0 ∧
      out.length = s.esize.toNat * rasterPixels s ∧
      ∀ k < rasterPixels s, ∀ b < s.esize.toNat,
        out.getD (s.esize.toNat *
            ((tileCoord s.width.toNat s.tilew.toNat s.tileh.toNat k).1 * s.width.toNat +
              (tileCoord s.width.toNat s.tilew.toNat s.tileh.toNat k).2) + b) 0 =
          v.getD (s.esize.toNat * k + b) 0

/-- R94: TILE.I after TILE.F, and TILE.F after TILE.I, with the same operands, return the input bytes. -/
def Obligations.TilerRoundTrip : Prop :=
  ∀ (i j : Instr), (i, j) ∈ [(Instr.tileF, Instr.tileI), (Instr.tileI, Instr.tileF)] →
    ∀ (s t : State) (v : List Byte) (dst2 : Word), Accepted s i →
      s.mem.readBytes s.src.toNat (s.esize.toNat * rasterPixels s) = some v →
      exec i s = .next t → Accepted { t with src := s.dst, dst := dst2 } j →
      ∃ u, exec j { t with src := s.dst, dst := dst2 } = .next u ∧
        u.mem.readBytes dst2.toNat (s.esize.toNat * rasterPixels s) = some v

/-! ### MipBuilder -/

/-- R101, R103: MIP.DOWN completes, every channel of every pixel being the rounded mean of the clamped 2×2 box.
Nothing else changes. -/
def Obligations.MipDownCompletes : Prop :=
  ∀ (s : State) (v : List Byte), Accepted s .mipDown →
    s.mem.readBytes s.src.toNat (4 * rasterPixels s) = some v →
    ∃ t out, exec .mipDown s = .next t ∧ StoredAtDst s t out 0 ∧
      out.length = 4 * (max 1 (s.width.toNat / 2) * max 1 (s.height.toNat / 2)) ∧
      ∀ x < max 1 (s.width.toNat / 2), ∀ y < max 1 (s.height.toNat / 2),
        ∀ ch ∈ [Pixel.r, Pixel.g, Pixel.b, Pixel.a],
          let x0 := min (2 * x) (s.width.toNat - 1)
          let x1 := min (2 * x + 1) (s.width.toNat - 1)
          let y0 := min (2 * y) (s.height.toNat - 1) * s.width.toNat
          let y1 := min (2 * y + 1) (s.height.toNat - 1) * s.width.toNat
          (ch (pixelAt out (y * max 1 (s.width.toNat / 2) + x))).toNat =
            ((ch (pixelAt v (y0 + x0))).toNat + (ch (pixelAt v (y0 + x1))).toNat +
              (ch (pixelAt v (y1 + x0))).toNat + (ch (pixelAt v (y1 + x1))).toNat + 2) / 4

/-- R100, R102, R104: MIP.CHAIN completes with the levels one after the other, the base first, each the
downsampling of the one before it, of the dimensions of R100, down to the first of 1×1. Nothing else changes. -/
def Obligations.MipChainCompletes : Prop :=
  ∀ (s : State) (v : List Byte), Accepted s .mipChain →
    s.mem.readBytes s.src.toNat (4 * rasterPixels s) = some v →
    ∃ (t : State) (levels : List Raster),
      exec .mipChain s = .next t ∧ StoredAtDst s t (levels.flatMap fun r => pixelBytes r.px) 0 ∧
      levels[0]? = some (rasterOf s.width.toNat s.height.toNat v) ∧
      (∀ (n : Nat) (r q : Raster), levels[n]? = some r → levels[n + 1]? = some q →
        q = downRaster r) ∧
      (∀ (n : Nat) (r : Raster), levels[n]? = some r →
        r.w = max 1 (s.width.toNat / 2 ^ n) ∧ r.h = max 1 (s.height.toNat / 2 ^ n) ∧
        r.px.length = r.w * r.h ∧ (n + 1 = levels.length ↔ r.w = 1 ∧ r.h = 1))

/-! ### Pipeline -/

/-- The raster of level n of an encode (R110, R111). -/
def encodeLevels (s : State) (v : List Byte) : List Raster :=
  if s.optMipmaps = true then buildChain (rasterOf s.width.toNat s.height.toNat v)
  else [rasterOf s.width.toNat s.height.toNat v]

/-- The converter of the palette-entry encoding that PALFMT names: 0 IA88, 1 RGB565, 2 RGB5A3, 3 ARGB8888
(R118). -/
def paletteConverter (palfmt : Nat) : Instr :=
  if palfmt = 0 then .cvtEIA88
  else if palfmt = 1 then .cvtERGB565
  else if palfmt = 2 then .cvtERGB5A3
  else .cvtEARGB8888

/-- The decoder of the palette-entry encoding that PALFMT names (R118). -/
def paletteDecoder (palfmt : Nat) : Instr :=
  if palfmt = 0 then .cvtDIA88
  else if palfmt = 1 then .cvtDRGB565
  else if palfmt = 2 then .cvtDRGB5A3
  else .cvtDARGB8888

/-- Entry `e` of a palette block: 4 bytes for PALFMT 3, 2 bytes otherwise, most significant first (R118). -/
def storedEntry (palfmt : Nat) (bs : List Byte) (e : Nat) : Nat :=
  if palfmt = 3 then fromBigEndian ((bs.drop (4 * e)).take 4)
  else fromBigEndian ((bs.drop (2 * e)).take 2)

/-- R110 with R111, R113, R116, R118: TEX.ENC of a PixelFormat completes unless it is strict and the colours do not
fit: PayloadLen bytes at DST, the palette block of an index format first, cap entries in the encoding of
PALFMT with zeros past the palette, then the levels at their offsets. Nothing else changes. PayloadLen and the
offsets are R113's wherever its division is exact; where an odd tile gives a level of I4 or INDEX4 an odd number of
padded pixels, that a level's bytes round up is the model's choice (DESIGN CHOICE, Log 9). -/
def Obligations.TexEncodeCompletes : Prop :=
  ∀ (f : PixelFormat) (s : State) (v : List Byte), Accepted s (.texEnc f.code) →
    s.mem.readBytes s.src.toNat (4 * rasterPixels s) = some v →
    (f.cap ≠ none → s.optStrict = true →
      distinctColours (pixelsOf (rasterPixels s) v) ≤ s.palsize.toNat) →
    ∃ (t : State) (out : List Byte) (pal : List Pixel),
      exec (.texEnc f.code) s = .next t ∧ StoredAtDst s t out pal.length ∧
      out.length =
        payloadLen s.params f s.width.toNat s.height.toNat s.optMipmaps s.optPalfmt ∧
      (f.cap = none → pal = []) ∧
      (∀ cap, f.cap = some cap →
        buildPalette (pixelsOf (rasterPixels s) v) s.palsize.toNat s.optStrict = .ok pal ∧
        ∀ e < cap,
          storedEntry s.optPalfmt out e =
            if e < pal.length then
              encodedCode s.params (pal.getD e Pixel.zero) (paletteConverter s.optPalfmt)
            else 0) ∧
      (encodeLevels s v).length = levelCount s.width.toNat s.height.toNat s.optMipmaps ∧
      ∀ (n : Nat) (r : Raster), (encodeLevels s v)[n]? = some r →
        (out.drop (levelOffset s.params f s.optPalfmt s.width.toNat s.height.toNat n)).take
            (levelBytes s.params f r.w r.h) =
          encodeLevel s.params f pal s.optDither s.optQuality r

/-- `Pad` at (row, col): the pixel of the level with its row and column clamped (R112). -/
def paddedPixel (r : Raster) (row col : Nat) : Pixel :=
  r.px.getD (min row (r.h - 1) * r.w + min col (r.w - 1)) Pixel.zero

/-- The command CVT.E whose code a PixelFormat without a palette stores (R114, R115, R121). -/
def converterOf : PixelFormat → Instr
  | .i4 => .cvtEI4
  | .i8 => .cvtEI8
  | .ia44 => .cvtEIA44
  | .ia88 => .cvtEIA88
  | .rgb565 => .cvtERGB565
  | .rgb5a3 => .cvtERGB5A3
  | _ => .cvtEARGB8888

/-- The command CVT.D whose pixel a code of a PixelFormat without a palette is (R120, R121). -/
def decoderOf : PixelFormat → Instr
  | .i4 => .cvtDI4
  | .i8 => .cvtDI8
  | .ia44 => .cvtDIA44
  | .ia88 => .cvtDIA88
  | .rgb565 => .cvtDRGB565
  | .rgb5a3 => .cvtDRGB5A3
  | _ => .cvtDARGB8888

/-- The code at place `k` of a stored level: half a byte, the high half first, or the format's bytes, most
significant first (R114 to R116). -/
def storedCode (f : PixelFormat) (bs : List Byte) (k : Nat) : Nat :=
  if f.bpp = 4 then (bs.getD (k / 2) 0).toNat / 16 ^ (1 - k % 2) % 16
  else fromBigEndian ((bs.drop (f.bpp / 8 * k)).take (f.bpp / 8))

/-- R112, R114 to R117: what a level stores at the place of (row, col) of its padded raster: the code of the
format's converter, or the index assigned to the padded raster's pixel; for DXT1 the compressed block of the
4×4 square. -/
def Obligations.EncodedLevelLayout : Prop :=
  ∀ (p : Params) (f : PixelFormat) (pal : List Pixel) (dither best : Bool) (r : Raster),
    p.valid = true → r.px.length = r.w * r.h → 1 ≤ r.w → 1 ≤ r.h →
    (∀ cap, f.cap = some cap → pal ≠ [] ∧ pal.length ≤ cap) →
    let pw := padDim r.w (formatTile p f).w
    let ph := padDim r.h (formatTile p f).h
    let place := placeOf pw (formatTile p f).w (formatTile p f).h
    let out := encodeLevel p f pal dither best r
    if f = .dxt1 then
      ∀ row < ph, ∀ col < pw,
        (out.drop (8 * (place row col / 16))).take 8 =
          (compressBlock p best ((List.range 16).map fun j =>
            paddedPixel r (row - row % 4 + j / 4) (col - col % 4 + j % 4))).bytes
    else if f.cap = none then
      ∀ row < ph, ∀ col < pw,
        storedCode f out (place row col) = encodedCode p (paddedPixel r row col) (converterOf f)
    else
      ∃ idx,
        AssignedIndices ((List.range (pw * ph)).map fun k => paddedPixel r (k / pw) (k % pw)) pw ph
          pal dither idx ∧
        ∀ row < ph, ∀ col < pw,
          storedCode f out (place row col) = idx.getD (row * pw + col) 0

/-- R118 to R120: TEX.DEC of a PixelFormat completes for every payload, storing the level LEVEL selects, decoded
with the palette of the palette block, cap entries in the encoding of PALFMT.
Only the palette block and that level are read. Nothing else changes. The level's place and length are R113's
wherever its division is exact; where an odd tile gives a level of I4 or INDEX4 an odd number of padded pixels,
that its bytes round up is the model's choice (DESIGN CHOICE, Log 9). -/
def Obligations.TexDecodeCompletes : Prop :=
  ∀ (f : PixelFormat) (s : State) (block level : List Byte), Accepted s (.texDec f.code) →
    s.mem.readBytes s.src.toNat (palBytes f s.optPalfmt) = some block →
    s.mem.readBytes
        (s.src.toNat + levelOffset s.params f s.optPalfmt s.width.toNat s.height.toNat
          s.level.toNat)
        (levelBytes s.params f (levelDim s.width.toNat s.level.toNat)
          (levelDim s.height.toNat s.level.toNat)) = some level →
    ∃ (t : State) (out : List Byte) (pal : List Pixel),
      exec (.texDec f.code) s = .next t ∧ StoredAtDst s t out 0 ∧
      out.length = 4 * (levelDim s.width.toNat s.level.toNat *
        levelDim s.height.toNat s.level.toNat) ∧
      (f.cap = none → pal = []) ∧
      (∀ cap, f.cap = some cap → pal.length = cap ∧
        ∀ e < cap, channelsOf (pal.getD e Pixel.zero) =
          decodedChannels (storedEntry s.optPalfmt block e) (paletteDecoder s.optPalfmt)) ∧
      out = pixelBytes (decodeLevel s.params f pal
        (levelDim s.width.toNat s.level.toNat) (levelDim s.height.toNat s.level.toNat) level)

/-- R120: the channels of pixel (row, col) of a decoded level are those the format's decoder gives the code at its
place in the tiled order of the stored level, or those of the palette entry the code names; for DXT1, those of its
pixel in its block. That the stored bytes of a level of I4 or INDEX4 of an odd number of padded pixels round up
is the model's choice (DESIGN CHOICE, Log 9). -/
def Obligations.DecodedLevelPixels : Prop :=
  ∀ (p : Params) (f : PixelFormat) (pal : List Pixel) (w h : Nat) (bs : List Byte),
    p.valid = true → 1 ≤ w → 1 ≤ h → bs.length = levelBytes p f w h →
    (∀ cap, f.cap = some cap → pal.length = cap) →
    ∀ row < h, ∀ col < w,
      let k := placeOf (padDim w (formatTile p f).w) (formatTile p f).w (formatTile p f).h row col
      channelsOf ((decodeLevel p f pal w h bs).getD (row * w + col) Pixel.zero) =
        if f = .dxt1 then decodedBlockChannels (bs.drop (8 * (k / 16))) (k % 16)
        else if f.cap = none then decodedChannels (storedCode f bs k) (decoderOf f)
        else channelsOf (pal.getD (storedCode f bs k) Pixel.zero)

/-- R122 (a), R57: ARGB8888 loses nothing. A raster encoded at DST and decoded from there at LEVEL 0, with or
without mipmaps, is the raster. -/
def Obligations.Argb8888RoundTrip : Prop :=
  ∀ (s t : State) (v : List Byte) (dst2 : Word), Accepted s (.texEnc 6) →
    s.mem.readBytes s.src.toNat (4 * rasterPixels s) = some v →
    exec (.texEnc 6) s = .next t →
    Accepted { t with src := s.dst, dst := dst2, level := 0 } (.texDec 6) →
    ∃ u, exec (.texDec 6) { t with src := s.dst, dst := dst2, level := 0 } = .next u ∧
      u.mem.readBytes dst2.toNat (4 * rasterPixels s) = some v

/-- The converter encoding of a direct PixelFormat of 8, 16 or 32 bits (R114). -/
def directEncoding : PixelFormat → Option Encoding
  | .i8 => some .i8
  | .ia44 => some .ia44
  | .ia88 => some .ia88
  | .rgb565 => some .rgb565
  | .rgb5a3 => some .rgb5a3
  | .argb8888 => some .argb8888
  | _ => none

/-- R122 (d): for a direct format TEX.ENC without mipmaps stores what CVT.E and then TILE.F store, run on the
same raster with an intermediate buffer. -/
def Obligations.DirectEncodeDecomposes : Prop :=
  ∀ (f : PixelFormat) (e : Encoding) (s t t1 t2 : State) (mid count : Word),
    directEncoding f = some e → s.optMipmaps = false → count.toNat = rasterPixels s →
    Accepted s (.texEnc f.code) → exec (.texEnc f.code) s = .next t →
    Accepted { s with dst := mid, count := count } (converterOf f) →
    exec (converterOf f) { s with dst := mid, count := count } = .next t1 →
    Accepted { t1 with
        src := mid
        dst := s.dst
        tilew := BitVec.ofNat 32 (formatTile s.params f).w
        tileh := BitVec.ofNat 32 (formatTile s.params f).h
        esize := BitVec.ofNat 32 e.elementSize } .tileF →
    (formatTile s.params f).w < 2 ^ 32 → (formatTile s.params f).h < 2 ^ 32 →
    exec .tileF { t1 with
        src := mid
        dst := s.dst
        tilew := BitVec.ofNat 32 (formatTile s.params f).w
        tileh := BitVec.ofNat 32 (formatTile s.params f).h
        esize := BitVec.ofNat 32 e.elementSize } = .next t2 →
    t2.dstlen = t.dstlen ∧
      t2.mem.readBytes s.dst.toNat t.dstlen.toNat = t.mem.readBytes s.dst.toNat t.dstlen.toNat

/-! ### The Container, a duty of the host -/

/-- R131 to R138: the reader accepts the stream of every legal header, with or without has_external_palette, and a
payload of PayloadLen bytes, and gives back the header, the flags and the payload; this spec's writer makes that
stream unless it has has_external_palette and no index format, where R134 makes it illegal and names no error: that
the writer answers none there is the model's choice (DESIGN CHOICE, Log 14). PayloadLen is R113's wherever its
division is exact; that it rounds up for a level of I4 or INDEX4 of an odd number of padded pixels is the model's
choice (DESIGN CHOICE, Log 9). -/
def Obligations.ContainerRoundTrip : Prop :=
  ∀ (p : Params) (h : ContainerHeader) (payload : List Byte),
    dimsNotTiled h.width h.height (formatTile p h.format).w (formatTile p h.format).h = false →
    (h.format ≠ .index4 → h.format ≠ .index8 → h.palfmt = 0) →
    payload.length = payloadLen p h.format h.width h.height h.mipmaps h.palfmt.toNat →
    14 + payload.length < 2 ^ 32 →
    containerRead p (containerFrame h payload) = .ok (h, payload) ∧
      containerWrite h payload =
        if h.externalPalette = true ∧ h.format ≠ .index4 ∧ h.format ≠ .index8 then none
        else some (containerFrame h payload)
end

