-- ==== Sys2Proof/Laws/Container.lean ====
section
/-! SUPPORT. What a run of host actions and the end of an encode or a decode can be. -/

namespace Sys2Proof.Machine

@[simp] theorem runHost_nil (s : State) : runHost [] s = .next s := rfl

/-- A list that runs to its end: its first action's step, then the rest. -/
theorem runHost_cons_next {a : HostAction} {rest : List HostAction} {s u : State} :
    runHost (a :: rest) s = .next u ↔
      ∃ t, step { s with host := a :: s.host } = .next t ∧ runHost rest t = .next u := by
  simp only [runHost]
  split <;> simp_all

/-- A run of two lists, one after the other. -/
theorem runHost_append_next {xs ys : List HostAction} {s u : State} :
    runHost (xs ++ ys) s = .next u ↔ ∃ t, runHost xs s = .next t ∧ runHost ys t = .next u := by
  induction xs generalizing s with
  | nil => simp
  | cons a rest ih =>
    simp only [List.cons_append, runHost_cons_next, ih]
    constructor
    · rintro ⟨t, h1, r, h2, h3⟩; exact ⟨r, ⟨t, h1, h2⟩, h3⟩
    · rintro ⟨r, ⟨t, h1, h2⟩, h3⟩; exact ⟨t, h1, r, h2, h3⟩

theorem codecError_eq_none {s : State} : s.codecError = none ↔ s.err = 0 := by
  simp only [State.codecError]
  split <;> simp_all

/-- The end of a host procedure: the core's error, or what becomes of the bytes its command stored. -/
theorem commandResult_cases {α : Type} {t u : State} {f : List Byte → CodecResult α}
    {r : CodecResult α} (h : commandResult t f = .next (u, r)) :
    u = t ∧
      ((t.err ≠ 0 ∧ r = .failed ⟨t.err, t.errinfo⟩) ∨
        (t.err = 0 ∧ ∃ bs, t.resultBytes = some bs ∧ r = f bs)) := by
  simp only [commandResult, State.codecError] at h
  split at h
  · rename_i e he
    split at he
    · cases he
    · cases he; cases h; exact ⟨rfl, .inl ⟨‹_›, rfl⟩⟩
  · rename_i he
    split at he
    · split at h
      · cases h
      · cases h; exact ⟨rfl, .inr ⟨‹_›, _, ‹_›, rfl⟩⟩
    · cases he

/-- The writer yields the framed stream, and only for flags it may write (R134). -/
theorem containerWrite_eq_some {h : ContainerHeader} {payload bytes : List Byte} :
    containerWrite h payload = some bytes ↔
      h.writable = true ∧ bytes = containerFrame h payload := by
  simp only [containerWrite, Option.ite_none_right_eq_some, Option.some.injEq, eq_comm (a := bytes)]

end Sys2Proof.Machine
end

