-- ==== Sys2Proof/Laws/Search.lean ====
section
/-! SUPPORT. The two searches answer the least index of the extreme value. -/

namespace Sys2Proof.Machine

theorem argMinFrom_eq (best at0 next : Nat) (ds : List Nat) :
    (argMinFrom best at0 next ds = at0 ∧ ∀ j (h : j < ds.length), best ≤ ds[j]) ∨
    ∃ k, ∃ h : k < ds.length, argMinFrom best at0 next ds = next + k ∧ ds[k] < best ∧
      (∀ j (hj : j < ds.length), ds[k] ≤ ds[j]) ∧ ∀ j (hj : j < k), ds[k] < ds[j] := by
  induction ds generalizing best at0 next with
  | nil => left; simp [argMinFrom]
  | cons d ds ih =>
    simp only [argMinFrom]
    split
    · rename_i hd
      right
      rcases ih d next (next + 1) with ⟨h1, h2⟩ | ⟨k, hk, h1, h2, h3, h4⟩
      · refine ⟨0, by simp, by simpa using h1, by simpa using hd, ?_, by simp⟩
        intro j hj
        cases j with
        | zero => simp
        | succ j => simpa using h2 j (by simpa using hj)
      · refine ⟨k + 1, by simpa using hk, by rw [h1]; omega, ?_, ?_, ?_⟩
        · simpa using lt_trans h2 hd
        · intro j hj
          cases j with
          | zero => simpa using le_of_lt h2
          | succ j => simpa using h3 j (by simpa using hj)
        · intro j hj
          cases j with
          | zero => simpa using h2
          | succ j => simpa using h4 j (by omega)
    · rename_i hd
      rcases ih best at0 (next + 1) with ⟨h1, h2⟩ | ⟨k, hk, h1, h2, h3, h4⟩
      · left
        refine ⟨h1, ?_⟩
        intro j hj
        cases j with
        | zero => simpa using hd
        | succ j => simpa using h2 j (by simpa using hj)
      · right
        refine ⟨k + 1, by simpa using hk, by rw [h1]; omega, by simpa using h2, ?_, ?_⟩
        · intro j hj
          cases j with
          | zero => simp only [List.getElem_cons_succ, List.getElem_cons_zero]; omega
          | succ j => simpa using h3 j (by simpa using hj)
        · intro j hj
          cases j with
          | zero => simp only [List.getElem_cons_succ, List.getElem_cons_zero]; omega
          | succ j => simpa using h4 j (by omega)

/-- `argMin` of a non-empty list: an index in range, at the smallest value, and the least such index. -/
theorem argMin_spec {ds : List Nat} (h : ds ≠ []) :
    ∃ hk : argMin ds < ds.length, (∀ j (hj : j < ds.length), ds[argMin ds] ≤ ds[j]) ∧
      ∀ j (hj : j < argMin ds), ds[argMin ds] < ds[j] := by
  cases ds with
  | nil => exact absurd rfl h
  | cons d ds =>
    rcases argMinFrom_eq d 0 1 ds with ⟨h1, h2⟩ | ⟨k, hk, h1, h2, h3, h4⟩
    · have he : argMin (d :: ds) = 0 := h1
      refine ⟨by rw [he]; simp, ?_, ?_⟩
      · intro j hj
        simp only [he]
        cases j with
        | zero => simp
        | succ j => simpa using h2 j (by simpa using hj)
      · intro j hj; omega
    · have he : argMin (d :: ds) = k + 1 := by rw [argMin, h1]; omega
      refine ⟨by rw [he]; simpa using hk, ?_, ?_⟩
      · intro j hj
        simp only [he, List.getElem_cons_succ]
        cases j with
        | zero => simpa using le_of_lt h2
        | succ j => simpa using h3 j (by simpa using hj)
      · intro j hj
        simp only [he, List.getElem_cons_succ]
        cases j with
        | zero => simpa using h2
        | succ j => simpa using h4 j (by omega)

theorem argMaxFrom_eq (best at0 next : Nat) (ds : List Nat) :
    (argMaxFrom best at0 next ds = at0 ∧ ∀ j (h : j < ds.length), ds[j] ≤ best) ∨
    ∃ k, ∃ h : k < ds.length, argMaxFrom best at0 next ds = next + k ∧ best < ds[k] ∧
      (∀ j (hj : j < ds.length), ds[j] ≤ ds[k]) ∧ ∀ j (hj : j < k), ds[j] < ds[k] := by
  induction ds generalizing best at0 next with
  | nil => left; simp [argMaxFrom]
  | cons d ds ih =>
    simp only [argMaxFrom]
    split
    · rename_i hd
      right
      rcases ih d next (next + 1) with ⟨h1, h2⟩ | ⟨k, hk, h1, h2, h3, h4⟩
      · refine ⟨0, by simp, by simpa using h1, by simpa using hd, ?_, by simp⟩
        intro j hj
        cases j with
        | zero => simp
        | succ j => simpa using h2 j (by simpa using hj)
      · refine ⟨k + 1, by simpa using hk, by rw [h1]; omega, ?_, ?_, ?_⟩
        · simpa using lt_trans hd h2
        · intro j hj
          cases j with
          | zero => simpa using le_of_lt h2
          | succ j => simpa using h3 j (by simpa using hj)
        · intro j hj
          cases j with
          | zero => simpa using h2
          | succ j => simpa using h4 j (by omega)
    · rename_i hd
      rcases ih best at0 (next + 1) with ⟨h1, h2⟩ | ⟨k, hk, h1, h2, h3, h4⟩
      · left
        refine ⟨h1, ?_⟩
        intro j hj
        cases j with
        | zero => simpa using hd
        | succ j => simpa using h2 j (by simpa using hj)
      · right
        refine ⟨k + 1, by simpa using hk, by rw [h1]; omega, by simpa using h2, ?_, ?_⟩
        · intro j hj
          cases j with
          | zero => simp only [List.getElem_cons_succ, List.getElem_cons_zero]; omega
          | succ j => simpa using h3 j (by simpa using hj)
        · intro j hj
          cases j with
          | zero => simp only [List.getElem_cons_succ, List.getElem_cons_zero]; omega
          | succ j => simpa using h4 j (by omega)

/-- `argMax` of a non-empty list: an index in range, at the largest value, and the least such index. -/
theorem argMax_spec {ds : List Nat} (h : ds ≠ []) :
    ∃ hk : argMax ds < ds.length, (∀ j (hj : j < ds.length), ds[j] ≤ ds[argMax ds]) ∧
      ∀ j (hj : j < argMax ds), ds[j] < ds[argMax ds] := by
  cases ds with
  | nil => exact absurd rfl h
  | cons d ds =>
    rcases argMaxFrom_eq d 0 1 ds with ⟨h1, h2⟩ | ⟨k, hk, h1, h2, h3, h4⟩
    · have he : argMax (d :: ds) = 0 := h1
      refine ⟨by rw [he]; simp, ?_, ?_⟩
      · intro j hj
        simp only [he]
        cases j with
        | zero => simp
        | succ j => simpa using h2 j (by simpa using hj)
      · intro j hj; omega
    · have he : argMax (d :: ds) = k + 1 := by rw [argMax, h1]; omega
      refine ⟨by rw [he]; simpa using hk, ?_, ?_⟩
      · intro j hj
        simp only [he, List.getElem_cons_succ]
        cases j with
        | zero => simpa using le_of_lt h2
        | succ j => simpa using h3 j (by simpa using hj)
      · intro j hj
        simp only [he, List.getElem_cons_succ]
        cases j with
        | zero => simpa using h2
        | succ j => simpa using h4 j (by omega)

end Sys2Proof.Machine
end

