-- ==== Sys2Proof/Laws/Lengths.lean ====
section
/-! SUPPORT. How long every byte run and every list a command computes is. -/

namespace Sys2Proof.Machine

/-! ### Elements and pixels (R21, R23, R24) -/

@[simp] theorem bigEndian_length (n v : Nat) : (bigEndian n v).length = n := by simp [bigEndian]

@[simp] theorem elementsOf_length (size n : Nat) (bs : List Byte) :
    (elementsOf size n bs).length = n := by simp [elementsOf]

@[simp] theorem elementStream_length (size : Nat) (codes : List Nat) :
    (elementStream size codes).length = size * codes.length := by
  induction codes with
  | nil => simp [elementStream]
  | cons c cs ih =>
    simp only [elementStream, List.flatMap_cons, List.length_append, bigEndian_length,
      List.length_cons] at ih ⊢
    rw [ih]; ring

@[simp] theorem byteValues_length (bs : List Byte) : (byteValues bs).length = bs.length := by
  simp [byteValues]

@[simp] theorem valueBytes_length (vs : List Nat) : (valueBytes vs).length = vs.length := by
  simp [valueBytes]

@[simp] theorem pixelsOf_length (n : Nat) (bs : List Byte) : (pixelsOf n bs).length = n := by
  simp [pixelsOf]

@[simp] theorem pixelBytes_length (px : List Pixel) : (pixelBytes px).length = 4 * px.length := by
  induction px with
  | nil => simp [pixelBytes]
  | cons p px ih =>
    simp only [pixelBytes, List.flatMap_cons, List.length_append, List.length_cons] at ih ⊢
    rw [ih]; simp [Pixel.bytes]; ring

theorem elementBytes_length {size n k : Nat} {bs : List Byte} (h : bs.length = size * n)
    (hk : k < n) : (elementBytes size bs k).length = size := by
  have : size * (k + 1) ≤ size * n := Nat.mul_le_mul_left _ hk
  simp only [elementBytes, List.length_take, List.length_drop, h]
  rw [Nat.mul_add] at this
  omega

/-! ### BitPacker (R31, R32) -/

@[simp] theorem pack_length (w : Nat) (v : List Nat) :
    (pack w v).length = packedLen v.length w := by simp [pack]

@[simp] theorem unpack_length (w n : Nat) (bs : List Byte) : (unpack w n bs).length = n := by
  simp [unpack]

/-! ### Tiler (R92, R93) -/

@[simp] theorem toTiled_length {α : Type} (w h tw th : Nat) (d : α) (l : List α) :
    (toTiled w h tw th d l).length = w * h := by simp [toTiled]

@[simp] theorem fromTiled_length {α : Type} (w h tw th : Nat) (d : α) (l : List α) :
    (fromTiled w h tw th d l).length = w * h := by simp [fromTiled]

theorem flatten_length_const {l : List (List Byte)} {n : Nat} (h : ∀ x ∈ l, x.length = n) :
    l.flatten.length = n * l.length := by
  induction l with
  | nil => simp
  | cons x l ih =>
    rw [List.flatten_cons, List.length_append, h x (by simp),
      ih fun y hy => h y (by simp [hy]), List.length_cons]
    ring

/-! ### BlockCompressor (R74 to R77) -/

theorem compressed_bytes_length (p : Params) (best : Bool) {blk : List Pixel}
    (h : blk.length = 16) : (compressBlock p best blk).bytes.length = 8 := by
  simp [Compressed.bytes, compressBlock, h, packedLen, ceilDiv]

theorem compressBlocks_length (p : Params) (best : Bool) {n : Nat} {px : List Pixel}
    (h : 16 * n ≤ px.length) : (compressBlocks p best n px).length = 8 * n := by
  rw [compressBlocks, List.flatMap_def, flatten_length_const (n := 8)]
  · simp
  · intro x hx
    obtain ⟨m, hm, rfl⟩ := List.mem_map.1 hx
    have hm := List.mem_range.1 hm
    refine compressed_bytes_length _ _ ?_
    simp only [List.length_take, List.length_drop]
    omega

@[simp] theorem decompressBlock_length (bs : List Byte) : (decompressBlock bs).length = 16 := by
  simp [decompressBlock]

@[simp] theorem decompressBlocks_length (n : Nat) (bs : List Byte) :
    (decompressBlocks n bs).length = 16 * n := by
  simp only [decompressBlocks, List.length_flatMap, decompressBlock_length]
  simp [Nat.mul_comm]

/-! ### Quantizer (R61 to R65) -/

@[simp] theorem splitWidest_length (boxes : List Box) :
    (splitWidest boxes).length = boxes.length + 1 := by simp [splitWidest]

@[simp] theorem splitTimes_length (n : Nat) (boxes : List Box) :
    (splitTimes n boxes).length = boxes.length + n := by
  induction n generalizing boxes with
  | zero => rfl
  | succ n ih => rw [splitTimes, ih, splitWidest_length]; omega

/-- A palette holds at most `max_colors` entries (R69). -/
theorem buildPalette_length {px : List Pixel} {k : Nat} {strict : Bool} {pal : List Pixel}
    (hk : 1 ≤ k) (h : buildPalette px k strict = .ok pal) : pal.length ≤ k := by
  simp only [buildPalette] at h
  split at h
  · cases h; simpa
  · split at h
    · cases h
    · cases h; simp [medianCut]; omega

theorem ditherRow_length (pal : List Pixel) (lastRow : Bool) (x : Nat) (cur nxt : List Diffusion)
    (row : List Pixel) : (ditherRow pal lastRow x cur nxt row).1.length = row.length := by
  induction row generalizing x cur nxt with
  | nil => rfl
  | cons p row ih => simp [ditherRow, ih]

theorem ditherRows_length (pal : List Pixel) (w : Nat) (cur : List Diffusion)
    (rows : List (List Pixel)) :
    (ditherRows pal w cur rows).length = (rows.map List.length).sum := by
  induction rows generalizing cur with
  | nil => rfl
  | cons row rows ih => simp [ditherRows, ih, ditherRow_length]

theorem rasterRows_length_sum {w h : Nat} {px : List Pixel} (hp : px.length = w * h) :
    ((rasterRows w h px).map List.length).sum = w * h := by
  have : (rasterRows w h px).map List.length = List.replicate h w := by
    rw [List.eq_replicate_iff]
    refine ⟨by simp [rasterRows], fun b hb => ?_⟩
    obtain ⟨row, hrow, rfl⟩ := List.mem_map.1 hb
    obtain ⟨y, hy, rfl⟩ := List.mem_map.1 hrow
    have hy := List.mem_range.1 hy
    have : w * (y + 1) ≤ w * h := Nat.mul_le_mul_left _ hy
    simp only [List.length_take, List.length_drop, hp]
    rw [Nat.mul_add] at this
    rw [Nat.mul_comm y w]
    omega
  rw [this, List.sum_replicate, smul_eq_mul, Nat.mul_comm]

/-- One index per pixel (R64, R65). -/
theorem mapIndices_length {px : List Pixel} {w h : Nat} {pal : List Pixel} {dither : Bool}
    (hp : px.length = w * h) : (mapIndices px w h pal dither).length = w * h := by
  cases dither with
  | false => simpa [mapIndices] using hp
  | true => simp [mapIndices, ditherRows_length, rasterRows_length_sum hp]

/-! ### MipBuilder (R100 to R104) -/

@[simp] theorem rasterOf_w (w h : Nat) (bs : List Byte) : (rasterOf w h bs).w = w := rfl
@[simp] theorem rasterOf_h (w h : Nat) (bs : List Byte) : (rasterOf w h bs).h = h := rfl
@[simp] theorem rasterOf_px_length (w h : Nat) (bs : List Byte) :
    (rasterOf w h bs).px.length = w * h := by simp [rasterOf]

@[simp] theorem downRaster_w (r : Raster) : (downRaster r).w = max 1 (r.w >>> 1) := rfl
@[simp] theorem downRaster_h (r : Raster) : (downRaster r).h = max 1 (r.h >>> 1) := rfl
theorem downRaster_px_length (r : Raster) :
    (downRaster r).px.length = (downRaster r).w * (downRaster r).h := by simp [downRaster]

theorem levelDim_succ (b n : Nat) : max 1 (levelDim b n >>> 1) = levelDim b (n + 1) := by
  simp only [levelDim, Nat.shiftRight_succ, Nat.shiftRight_zero]
  omega

@[simp] theorem chainFrom_length (n : Nat) (r : Raster) : (chainFrom n r).length = n := by
  induction n generalizing r with
  | zero => rfl
  | succ n ih => simp [chainFrom, ih]

/-- Every raster of a chain holds one pixel per position. -/
theorem chainFrom_px_length {n : Nat} {r : Raster} (h : r.px.length = r.w * r.h) :
    ∀ q ∈ chainFrom n r, q.px.length = q.w * q.h := by
  induction n generalizing r with
  | zero => simp [chainFrom]
  | succ n ih =>
    intro q hq
    rcases List.mem_cons.1 hq with rfl | hq
    · exact h
    · exact ih (downRaster_px_length r) q hq

/-- The dimensions down a chain: each axis halves on its own (R100). -/
theorem chainFrom_dims (n k w h : Nat) {r : Raster} (hw : r.w = levelDim w k)
    (hh : r.h = levelDim h k) :
    (chainFrom n r).map (fun q => (q.w, q.h)) =
      (List.range n).map fun i => (levelDim w (k + i), levelDim h (k + i)) := by
  induction n generalizing k r with
  | zero => rfl
  | succ n ih =>
    rw [chainFrom, List.map_cons,
      ih (k + 1) (by rw [downRaster_w, hw, levelDim_succ]) (by rw [downRaster_h, hh, levelDim_succ]),
      List.range_succ_eq_map, List.map_cons, List.map_map]
    refine congrArg₂ List.cons (by simp [hw, hh]) (List.map_congr_left fun i _ => ?_)
    simp [Nat.add_comm, Nat.add_left_comm]

theorem levelDim_zero {b : Nat} (h : 1 ≤ b) : levelDim b 0 = b := by
  simp [levelDim]; omega

theorem buildChain_dims {r : Raster} (hw : 1 ≤ r.w) (hh : 1 ≤ r.h) :
    (buildChain r).map (fun q => (q.w, q.h)) =
      (List.range (chainLevels r.w r.h)).map fun i => (levelDim r.w i, levelDim r.h i) := by
  rw [buildChain, chainFrom_dims _ 0 r.w r.h (levelDim_zero hw).symm (levelDim_zero hh).symm]
  simp

/-- The bytes of a whole chain (R104). -/
theorem buildChain_bytes_length {r : Raster} (hw : 1 ≤ r.w) (hh : 1 ≤ r.h)
    (hp : r.px.length = r.w * r.h) :
    ((buildChain r).flatMap fun q => pixelBytes q.px).length = chainBytes r.w r.h := by
  have h1 : (buildChain r).map (fun q => (pixelBytes q.px).length) =
      ((buildChain r).map fun q => (q.w, q.h)).map fun d => 4 * d.1 * d.2 := by
    rw [List.map_map]
    refine List.map_congr_left fun q hq => ?_
    simp [chainFrom_px_length hp q hq, Nat.mul_assoc]
  rw [List.length_flatMap, h1, buildChain_dims hw hh, List.map_map]
  rfl

/-! ### Pipeline (R112 to R120) -/

@[simp] theorem padRaster_length (r : Raster) (pw ph : Nat) :
    (padRaster r pw ph).length = pw * ph := by simp [padRaster]

@[simp] theorem tiledCodes_length (t : Tile) (pw ph : Nat) (codes : List Nat) :
    (tiledCodes t pw ph codes).length = pw * ph := by simp [tiledCodes]

@[simp] theorem indexLevel_length (t : Tile) (pal : List Pixel) (dither : Bool) (r : Raster) :
    (indexLevel t pal dither r).length = padDim r.w t.w * padDim r.h t.h := by
  simp [indexLevel]

theorem padDim_dvd (d t : Nat) : t ∣ padDim d t := ⟨ceilDiv d t, by rw [padDim, Nat.mul_comm]⟩

@[simp] theorem ceilDiv_mul_eight (n : Nat) : ceilDiv (n * 8) 8 = n := by simp only [ceilDiv]; omega

/-- R113's formula, wherever its division is exact. -/
theorem levelBytes_exact {p : Params} {f : PixelFormat} {w h : Nat}
    (hx : padDim w (formatTile p f).w * padDim h (formatTile p f).h * f.bpp % 8 = 0) :
    levelBytes p f w h = padDim w (formatTile p f).w * padDim h (formatTile p f).h * f.bpp / 8 := by
  simp only [levelBytes, ceilDiv]; omega

theorem valid_memBytes {p : Params} (h : p.valid = true) :
    1 ≤ p.memBytes ∧ p.memBytes ≤ 2 ^ 32 := by
  simp only [Params.valid, Bool.and_eq_true, decide_eq_true_eq] at h
  exact ⟨h.1.1.1.1.1.1.1.1.1.1.1.1, h.1.1.1.1.1.1.1.1.1.1.1.2⟩

theorem encodeDirect_length (p : Params) (f : Encoding) (t : Tile) (r : Raster) :
    (encodeDirect p f t r).length = f.elementSize * (padDim r.w t.w * padDim r.h t.h) := by
  simp [encodeDirect]

/-- A level is as long as R113 says. -/
theorem encodeLevel_length (p : Params) (f : PixelFormat) (pal : List Pixel) (dither best : Bool)
    (r : Raster) : (encodeLevel p f pal dither best r).length = levelBytes p f r.w r.h := by
  cases f
  case i4 => simp [encodeLevel, encodeI4Level, levelBytes, PixelFormat.bpp, formatTile, packedLen]
  case index4 => simp [encodeLevel, levelBytes, PixelFormat.bpp, formatTile, packedLen]
  case index8 => simp [encodeLevel, levelBytes, PixelFormat.bpp, formatTile]
  case dxt1 =>
    obtain ⟨a, ha⟩ := padDim_dvd r.w 4
    obtain ⟨b, hb⟩ := padDim_dvd r.h 4
    have h16 : padDim r.w 4 * padDim r.h 4 = 16 * (a * b) := by rw [ha, hb]; ring
    rw [encodeLevel, encodeDxt1Level, compressBlocks_length]
    · simp only [levelBytes, PixelFormat.bpp, formatTile, h16, ceilDiv]; omega
    · rw [toTiled_length, h16]; omega
  all_goals
    simp only [encodeLevel, encodeDirect_length, levelBytes, PixelFormat.bpp, formatTile,
      Encoding.elementSize, ceilDiv]
    omega

/-- The palette block has always `cap` entries (R118). -/
theorem paletteBlock_length (p : Params) {cap : Nat} (palfmt : Nat) {pal : List Pixel}
    (h : pal.length ≤ cap) :
    (paletteBlock p cap palfmt pal).length = cap * (paletteEncoding palfmt).elementSize := by
  simp only [paletteBlock, List.length_append, elementStream_length, List.length_map,
    List.length_replicate]
  rw [Nat.mul_comm _ pal.length, ← Nat.add_mul]
  congr 1; omega

theorem flatMap_encodeLevel_length (p : Params) (f : PixelFormat) (pal : List Pixel)
    (dither best : Bool) (rs : List Raster) :
    (rs.flatMap (encodeLevel p f pal dither best)).length =
      ((rs.map fun q => (q.w, q.h)).map fun d => levelBytes p f d.1 d.2).sum := by
  rw [List.length_flatMap, List.map_map]
  congr 1
  exact List.map_congr_left fun q _ => encodeLevel_length p f pal dither best q

/-- The payload of an encode is as long as R113 says. -/
theorem encodePayload_length {s : State} (f : PixelFormat)
    {base : Raster} {pal : List Pixel} (hw : 1 ≤ base.w) (hh : 1 ≤ base.h)
    (hpal : ∀ cap, f.cap = some cap → pal.length ≤ cap) :
    (encodePayload s f base pal).length =
      payloadLen s.params f base.w base.h s.optMipmaps s.optPalfmt := by
  have hlev :
      ((if s.optMipmaps then buildChain base else [base]).map fun q => (q.w, q.h)) =
        (List.range (levelCount base.w base.h s.optMipmaps)).map fun i =>
          (levelDim base.w i, levelDim base.h i) := by
    cases s.optMipmaps
    · simp [levelCount, levelDim_zero hw, levelDim_zero hh]
    · simpa [levelCount] using buildChain_dims hw hh
  simp only [encodePayload, List.length_append, flatMap_encodeLevel_length, hlev, payloadLen,
    levelOffset, List.map_map]
  refine congrArg₂ (· + ·) ?_ rfl
  simp only [palBytes]
  cases hc : f.cap with
  | none => rfl
  | some cap => exact paletteBlock_length _ _ (hpal cap hc)

@[simp] theorem decodeLevel_length (p : Params) (f : PixelFormat) (pal : List Pixel) (w h : Nat)
    (bs : List Byte) : (decodeLevel p f pal w h bs).length = w * h := by simp [decodeLevel]

end Sys2Proof.Machine
end

