-- ==== Sys2Proof/Laws/State.lean ====
section
/-! SUPPORT. One lemma per field per update of the state, each true by rfl. -/

namespace Sys2Proof.Machine

/-! ### takeFault (R160) -/

@[simp] theorem takeFault_params (s : State) (f : FaultRecord) : (s.takeFault f).params = s.params := rfl

@[simp] theorem takeFault_cmd (s : State) (f : FaultRecord) : (s.takeFault f).cmd = s.cmd := rfl

@[simp] theorem takeFault_options (s : State) (f : FaultRecord) : (s.takeFault f).options = s.options := rfl

@[simp] theorem takeFault_src (s : State) (f : FaultRecord) : (s.takeFault f).src = s.src := rfl

@[simp] theorem takeFault_dst (s : State) (f : FaultRecord) : (s.takeFault f).dst = s.dst := rfl

@[simp] theorem takeFault_aux (s : State) (f : FaultRecord) : (s.takeFault f).aux = s.aux := rfl

@[simp] theorem takeFault_count (s : State) (f : FaultRecord) : (s.takeFault f).count = s.count := rfl

@[simp] theorem takeFault_width (s : State) (f : FaultRecord) : (s.takeFault f).width = s.width := rfl

@[simp] theorem takeFault_height (s : State) (f : FaultRecord) : (s.takeFault f).height = s.height := rfl

@[simp] theorem takeFault_tilew (s : State) (f : FaultRecord) : (s.takeFault f).tilew = s.tilew := rfl

@[simp] theorem takeFault_tileh (s : State) (f : FaultRecord) : (s.takeFault f).tileh = s.tileh := rfl

@[simp] theorem takeFault_esize (s : State) (f : FaultRecord) : (s.takeFault f).esize = s.esize := rfl

@[simp] theorem takeFault_palsize (s : State) (f : FaultRecord) : (s.takeFault f).palsize = s.palsize := rfl

@[simp] theorem takeFault_level (s : State) (f : FaultRecord) : (s.takeFault f).level = s.level := rfl

@[simp] theorem takeFault_mem (s : State) (f : FaultRecord) : (s.takeFault f).mem = s.mem := rfl

@[simp] theorem takeFault_host (s : State) (f : FaultRecord) : (s.takeFault f).host = s.host := rfl

@[simp] theorem takeFault_hostData (s : State) (f : FaultRecord) : (s.takeFault f).hostData = s.hostData := rfl

@[simp] theorem takeFault_fresh (s : State) (f : FaultRecord) : (s.takeFault f).fresh = s.fresh := rfl

@[simp] theorem takeFault_status (s : State) (f : FaultRecord) : (s.takeFault f).status = statusWord true false f.err.code := rfl

@[simp] theorem takeFault_errinfo (s : State) (f : FaultRecord) : (s.takeFault f).errinfo = f.info := rfl

@[simp] theorem takeFault_dstlen (s : State) (f : FaultRecord) : (s.takeFault f).dstlen = 0 := rfl

@[simp] theorem takeFault_pallen (s : State) (f : FaultRecord) : (s.takeFault f).pallen = 0 := rfl

/-! ### succeed (R86 step 7) -/

@[simp] theorem succeed_params (s : State) (m n : Nat) : (s.succeed m n).params = s.params := rfl

@[simp] theorem succeed_cmd (s : State) (m n : Nat) : (s.succeed m n).cmd = s.cmd := rfl

@[simp] theorem succeed_options (s : State) (m n : Nat) : (s.succeed m n).options = s.options := rfl

@[simp] theorem succeed_src (s : State) (m n : Nat) : (s.succeed m n).src = s.src := rfl

@[simp] theorem succeed_dst (s : State) (m n : Nat) : (s.succeed m n).dst = s.dst := rfl

@[simp] theorem succeed_aux (s : State) (m n : Nat) : (s.succeed m n).aux = s.aux := rfl

@[simp] theorem succeed_count (s : State) (m n : Nat) : (s.succeed m n).count = s.count := rfl

@[simp] theorem succeed_width (s : State) (m n : Nat) : (s.succeed m n).width = s.width := rfl

@[simp] theorem succeed_height (s : State) (m n : Nat) : (s.succeed m n).height = s.height := rfl

@[simp] theorem succeed_tilew (s : State) (m n : Nat) : (s.succeed m n).tilew = s.tilew := rfl

@[simp] theorem succeed_tileh (s : State) (m n : Nat) : (s.succeed m n).tileh = s.tileh := rfl

@[simp] theorem succeed_esize (s : State) (m n : Nat) : (s.succeed m n).esize = s.esize := rfl

@[simp] theorem succeed_palsize (s : State) (m n : Nat) : (s.succeed m n).palsize = s.palsize := rfl

@[simp] theorem succeed_level (s : State) (m n : Nat) : (s.succeed m n).level = s.level := rfl

@[simp] theorem succeed_mem (s : State) (m n : Nat) : (s.succeed m n).mem = s.mem := rfl

@[simp] theorem succeed_host (s : State) (m n : Nat) : (s.succeed m n).host = s.host := rfl

@[simp] theorem succeed_hostData (s : State) (m n : Nat) : (s.succeed m n).hostData = s.hostData := rfl

@[simp] theorem succeed_fresh (s : State) (m n : Nat) : (s.succeed m n).fresh = s.fresh := rfl

@[simp] theorem succeed_status (s : State) (m n : Nat) : (s.succeed m n).status = statusWord true false 0 := rfl

@[simp] theorem succeed_errinfo (s : State) (m n : Nat) : (s.succeed m n).errinfo = 0 := rfl

@[simp] theorem succeed_dstlen (s : State) (m n : Nat) : (s.succeed m n).dstlen = BitVec.ofNat 32 m := rfl

@[simp] theorem succeed_pallen (s : State) (m n : Nat) : (s.succeed m n).pallen = BitVec.ofNat 32 n := rfl

/-! ### hardwareReset (R171, R172) -/

@[simp] theorem hardwareReset_params (s : State) : s.hardwareReset.params = s.params := rfl

@[simp] theorem hardwareReset_cmd (s : State) : s.hardwareReset.cmd = 0 := rfl

@[simp] theorem hardwareReset_options (s : State) : s.hardwareReset.options = 0 := rfl

@[simp] theorem hardwareReset_src (s : State) : s.hardwareReset.src = 0 := rfl

@[simp] theorem hardwareReset_dst (s : State) : s.hardwareReset.dst = 0 := rfl

@[simp] theorem hardwareReset_aux (s : State) : s.hardwareReset.aux = 0 := rfl

@[simp] theorem hardwareReset_count (s : State) : s.hardwareReset.count = 0 := rfl

@[simp] theorem hardwareReset_width (s : State) : s.hardwareReset.width = 0 := rfl

@[simp] theorem hardwareReset_height (s : State) : s.hardwareReset.height = 0 := rfl

@[simp] theorem hardwareReset_tilew (s : State) : s.hardwareReset.tilew = 0 := rfl

@[simp] theorem hardwareReset_tileh (s : State) : s.hardwareReset.tileh = 0 := rfl

@[simp] theorem hardwareReset_esize (s : State) : s.hardwareReset.esize = 0 := rfl

@[simp] theorem hardwareReset_palsize (s : State) : s.hardwareReset.palsize = 0 := rfl

@[simp] theorem hardwareReset_level (s : State) : s.hardwareReset.level = 0 := rfl

@[simp] theorem hardwareReset_status (s : State) : s.hardwareReset.status = 0 := rfl

@[simp] theorem hardwareReset_errinfo (s : State) : s.hardwareReset.errinfo = 0 := rfl

@[simp] theorem hardwareReset_dstlen (s : State) : s.hardwareReset.dstlen = 0 := rfl

@[simp] theorem hardwareReset_pallen (s : State) : s.hardwareReset.pallen = 0 := rfl

@[simp] theorem hardwareReset_mem (s : State) : s.hardwareReset.mem = s.mem := rfl

@[simp] theorem hardwareReset_host (s : State) : s.hardwareReset.host = s.host := rfl

@[simp] theorem hardwareReset_hostData (s : State) : s.hardwareReset.hostData = s.hostData := rfl

@[simp] theorem hardwareReset_fresh (s : State) : s.hardwareReset.fresh = s.fresh := rfl

/-! ### freeBytes (R172) -/

@[simp] theorem freeBytes_params (s : State) (a n : Nat) : (s.freeBytes a n).params = s.params := rfl

@[simp] theorem freeBytes_cmd (s : State) (a n : Nat) : (s.freeBytes a n).cmd = s.cmd := rfl

@[simp] theorem freeBytes_options (s : State) (a n : Nat) : (s.freeBytes a n).options = s.options := rfl

@[simp] theorem freeBytes_src (s : State) (a n : Nat) : (s.freeBytes a n).src = s.src := rfl

@[simp] theorem freeBytes_dst (s : State) (a n : Nat) : (s.freeBytes a n).dst = s.dst := rfl

@[simp] theorem freeBytes_aux (s : State) (a n : Nat) : (s.freeBytes a n).aux = s.aux := rfl

@[simp] theorem freeBytes_count (s : State) (a n : Nat) : (s.freeBytes a n).count = s.count := rfl

@[simp] theorem freeBytes_width (s : State) (a n : Nat) : (s.freeBytes a n).width = s.width := rfl

@[simp] theorem freeBytes_height (s : State) (a n : Nat) : (s.freeBytes a n).height = s.height := rfl

@[simp] theorem freeBytes_tilew (s : State) (a n : Nat) : (s.freeBytes a n).tilew = s.tilew := rfl

@[simp] theorem freeBytes_tileh (s : State) (a n : Nat) : (s.freeBytes a n).tileh = s.tileh := rfl

@[simp] theorem freeBytes_esize (s : State) (a n : Nat) : (s.freeBytes a n).esize = s.esize := rfl

@[simp] theorem freeBytes_palsize (s : State) (a n : Nat) : (s.freeBytes a n).palsize = s.palsize := rfl

@[simp] theorem freeBytes_level (s : State) (a n : Nat) : (s.freeBytes a n).level = s.level := rfl

@[simp] theorem freeBytes_status (s : State) (a n : Nat) : (s.freeBytes a n).status = s.status := rfl

@[simp] theorem freeBytes_errinfo (s : State) (a n : Nat) : (s.freeBytes a n).errinfo = s.errinfo := rfl

@[simp] theorem freeBytes_dstlen (s : State) (a n : Nat) : (s.freeBytes a n).dstlen = s.dstlen := rfl

@[simp] theorem freeBytes_pallen (s : State) (a n : Nat) : (s.freeBytes a n).pallen = s.pallen := rfl

@[simp] theorem freeBytes_host (s : State) (a n : Nat) : (s.freeBytes a n).host = s.host := rfl

@[simp] theorem freeBytes_hostData (s : State) (a n : Nat) : (s.freeBytes a n).hostData = s.hostData := rfl

@[simp] theorem freeBytes_fresh (s : State) (a n : Nat) : (s.freeBytes a n).fresh = s.fresh + n := rfl

end Sys2Proof.Machine
end

