-- ==== Sys2Proof/Laws/Memory.lean ====
section
/-! SUPPORT. What the memory operations do: reads after writes, and the canonical form every one keeps. -/

namespace Sys2Proof.Machine

/-! ### Reading after writing -/

@[simp] theorem read_nil (a : Nat) : Memory.read [] a = none := rfl

theorem read_cons (c : Host.Cell) (m : Memory) (a : Nat) :
    Memory.read (c :: m) a = if c.1 = a then some c.2 else Memory.read m a := rfl

@[simp] theorem read_write_same (m : Memory) (a : Nat) (b : Byte) :
    (m.write a b).read a = some b := by
  induction m with
  | nil => simp [Memory.write, read_cons]
  | cons c m ih =>
    simp only [Memory.write]
    split
    · simp [read_cons]
    · split
      · simp [read_cons]
      · rename_i h; simp [read_cons, ih, Ne.symm h]

theorem read_write_other (m : Memory) {a x : Nat} (b : Byte) (h : x ≠ a) :
    (m.write a b).read x = m.read x := by
  induction m with
  | nil => simp [Memory.write, read_cons, Ne.symm h]
  | cons c m ih =>
    simp only [Memory.write]
    split
    · simp [read_cons, Ne.symm h]
    · split
      · rename_i h'; subst h'; simp [read_cons, Ne.symm h]
      · simp [read_cons, ih]

/-- Reading one byte after a run of bytes is stored. -/
theorem read_writeBytes (m : Memory) (a : Nat) (bs : List Byte) (x : Nat) :
    (m.writeBytes a bs).read x =
      if a ≤ x ∧ x < a + bs.length then bs[x - a]? else m.read x := by
  induction bs generalizing m a with
  | nil => simp [Memory.writeBytes]
  | cons b bs ih =>
    rw [Memory.writeBytes, ih]
    by_cases h : x = a
    · subst h
      have h1 : ¬ (x + 1 ≤ x ∧ x < x + 1 + bs.length) := by omega
      have h2 : x ≤ x ∧ x < x + (b :: bs).length := by simp
      rw [if_neg h1, if_pos h2]; simp
    · rw [read_write_other _ _ h]
      by_cases h1 : a + 1 ≤ x ∧ x < a + 1 + bs.length
      · have h2 : a ≤ x ∧ x < a + (b :: bs).length := by simp only [List.length_cons]; omega
        rw [if_pos h1, if_pos h2]
        have : x - a = (x - (a + 1)) + 1 := by omega
        rw [this, List.getElem?_cons_succ]
      · have h2 : ¬ (a ≤ x ∧ x < a + (b :: bs).length) := by simp only [List.length_cons]; omega
        rw [if_neg h1, if_neg h2]

theorem read_writeBytes_outside (m : Memory) (a : Nat) (bs : List Byte) {x : Nat}
    (h : x < a ∨ a + bs.length ≤ x) : (m.writeBytes a bs).read x = m.read x := by
  rw [read_writeBytes, if_neg]; omega

/-- What MemRead answers: the `n` bytes, each the one its address reads as. -/
theorem readBytes_eq_some_iff (m : Memory) (a n : Nat) (bs : List Byte) :
    m.readBytes a n = some bs ↔ bs.length = n ∧ ∀ i < n, m.read (a + i) = bs[i]? := by
  induction n generalizing a bs with
  | zero =>
    cases bs with
    | nil => simp [Memory.readBytes]
    | cons b bs => simp [Memory.readBytes]
  | succ n ih =>
    constructor
    · intro h
      simp only [Memory.readBytes] at h
      split at h
      · cases h
      · rename_i b hb
        split at h
        · cases h
        · rename_i cs hcs
          cases h
          obtain ⟨h1, h2⟩ := (ih _ _).1 hcs
          refine ⟨by simp [h1], fun i hi => ?_⟩
          cases i with
          | zero => simpa using hb
          | succ i =>
            have := h2 i (by omega)
            rw [List.getElem?_cons_succ, ← this]
            congr 1; omega
    · rintro ⟨h1, h2⟩
      cases bs with
      | nil => simp at h1
      | cons b bs =>
        have hb : m.read a = some b := by simpa using h2 0 (by omega)
        have hbs : m.readBytes (a + 1) n = some bs := by
          refine (ih _ _).2 ⟨by simpa using h1, fun i hi => ?_⟩
          have := h2 (i + 1) (by omega)
          rw [List.getElem?_cons_succ] at this
          rw [← this]; congr 1; omega
        simp [Memory.readBytes, hb, hbs]

theorem readBytes_length {m : Memory} {a n : Nat} {bs : List Byte}
    (h : m.readBytes a n = some bs) : bs.length = n :=
  ((readBytes_eq_some_iff m a n bs).1 h).1

/-- MemRead has no answer exactly when a byte of the run has no value (R27). -/
theorem readBytes_eq_none_iff (m : Memory) (a n : Nat) :
    m.readBytes a n = none ↔ ∃ i < n, m.read (a + i) = none := by
  induction n generalizing a with
  | zero => simp [Memory.readBytes]
  | succ n ih =>
    simp only [Memory.readBytes]
    cases hb : m.read a with
    | none => simp only [true_iff]; exact ⟨0, by omega, by simpa using hb⟩
    | some b =>
      have key : m.readBytes (a + 1) n = none ↔ ∃ i < n + 1, m.read (a + i) = none := by
        rw [ih]
        constructor
        · rintro ⟨i, hi, h⟩
          exact ⟨i + 1, by omega, by rw [← h]; congr 1; omega⟩
        · rintro ⟨i, hi, h⟩
          cases i with
          | zero => simp [hb] at h
          | succ i => exact ⟨i, by omega, by rw [← h]; congr 1; omega⟩
      rw [← key]
      cases m.readBytes (a + 1) n <;> simp

/-- MemRead depends on nothing but the bytes of its run. -/
theorem readBytes_congr {m m' : Memory} {a n : Nat}
    (h : ∀ x, a ≤ x → x < a + n → m'.read x = m.read x) : m'.readBytes a n = m.readBytes a n := by
  induction n generalizing a with
  | zero => rfl
  | succ n ih =>
    simp only [Memory.readBytes]
    rw [h a (by omega) (by omega), ih fun x h1 h2 => h x (by omega) (by omega)]

@[simp] theorem readBytes_writeBytes_same (m : Memory) (a : Nat) (bs : List Byte) :
    (m.writeBytes a bs).readBytes a bs.length = some bs := by
  rw [readBytes_eq_some_iff]
  refine ⟨rfl, fun i hi => ?_⟩
  rw [read_writeBytes, if_pos (by omega)]
  congr 1; omega

theorem readBytes_writeBytes_outside (m : Memory) (a : Nat) (bs : List Byte) {x n : Nat}
    (h : x + n ≤ a ∨ a + bs.length ≤ x) : (m.writeBytes a bs).readBytes x n = m.readBytes x n :=
  readBytes_congr fun y h1 h2 => read_writeBytes_outside m a bs (by omega)

/-! ### The canonical form -/

theorem mem_write (m : Memory) (a : Nat) (b : Byte) {c : Host.Cell} (h : c ∈ m.write a b) :
    c = (a, b) ∨ c ∈ m := by
  induction m with
  | nil => simpa [Memory.write] using h
  | cons d m ih =>
    simp only [Memory.write] at h
    split at h
    · simpa using h
    · split at h
      · rcases List.mem_cons.1 h with h | h
        · exact .inl h
        · exact .inr (List.mem_cons_of_mem _ h)
      · rcases List.mem_cons.1 h with h | h
        · exact .inr (by simp [h])
        · rcases ih h with h | h
          · exact .inl h
          · exact .inr (List.mem_cons_of_mem _ h)

theorem wf_write {m : Memory} (h : m.wf) (a : Nat) (b : Byte) : (m.write a b).wf := by
  induction m with
  | nil => simp [Memory.write, Memory.wf]
  | cons c m ih =>
    simp only [Memory.wf, List.map_cons, List.pairwise_cons] at h
    obtain ⟨h1, h2⟩ := h
    simp only [Memory.write]
    split
    · rename_i hlt
      simp only [Memory.wf, List.map_cons, List.pairwise_cons, List.mem_cons]
      refine ⟨?_, h1, h2⟩
      rintro x (rfl | hx)
      · exact hlt
      · exact lt_trans hlt (h1 x hx)
    · split
      · rename_i _ heq
        simp only [Memory.wf, List.map_cons, List.pairwise_cons]
        exact ⟨by rw [heq]; exact h1, h2⟩
      · simp only [Memory.wf, List.map_cons, List.pairwise_cons]
        refine ⟨fun x hx => ?_, ih h2⟩
        obtain ⟨d, hd, rfl⟩ := List.mem_map.1 hx
        rcases mem_write _ _ _ hd with rfl | hd
        · simp only; omega
        · exact h1 _ (List.mem_map_of_mem hd)

theorem within_write {m : Memory} {n : Nat} (h : m.within n) {a : Nat} (ha : a < n) (b : Byte) :
    (m.write a b).within n := by
  intro c hc
  rcases mem_write _ _ _ hc with rfl | hc
  · exact ha
  · exact h c hc

theorem wf_writeBytes {m : Memory} (h : m.wf) (a : Nat) (bs : List Byte) :
    (m.writeBytes a bs).wf := by
  induction bs generalizing m a with
  | nil => exact h
  | cons b bs ih => exact ih (wf_write h a b) (a + 1)

theorem within_writeBytes {m : Memory} {n : Nat} (h : m.within n) {a : Nat} {bs : List Byte}
    (ha : bs = [] ∨ a + bs.length ≤ n) : (m.writeBytes a bs).within n := by
  induction bs generalizing m a with
  | nil => exact h
  | cons b bs ih =>
    simp only [List.length_cons, reduceCtorEq, false_or] at ha
    exact ih (within_write h (by omega) b) (.inr (by omega))

theorem wf_writeAll {m : Memory} (h : m.wf) (rs : List (Nat × List Byte)) : (m.writeAll rs).wf := by
  induction rs generalizing m with
  | nil => exact h
  | cons r rs ih => exact ih (wf_writeBytes h r.1 r.2)

theorem within_writeAll {m : Memory} {n : Nat} (h : m.within n) {rs : List (Nat × List Byte)}
    (hr : ∀ r ∈ rs, r.2 = [] ∨ r.1 + r.2.length ≤ n) : (m.writeAll rs).within n := by
  induction rs generalizing m with
  | nil => exact h
  | cons r rs ih =>
    exact ih (within_writeBytes h (hr r (by simp))) fun q hq => hr q (by simp [hq])

/-- A byte that no run covers reads as before, whatever runs are stored. -/
theorem read_writeAll_outside (m : Memory) (rs : List (Nat × List Byte)) {x : Nat}
    (h : ∀ r ∈ rs, x < r.1 ∨ r.1 + r.2.length ≤ x) : (m.writeAll rs).read x = m.read x := by
  induction rs generalizing m with
  | nil => rfl
  | cons r rs ih =>
    rw [Memory.writeAll, ih _ fun q hq => h q (by simp [hq]),
      read_writeBytes_outside _ _ _ (h r (by simp))]

/-- The canonical form makes equal memories of memories that read alike. -/
theorem memory_ext {m m' : Memory} (h : m.wf) (h' : m'.wf) (heq : ∀ a, m.read a = m'.read a) :
    m = m' := by
  have none_of_lt : ∀ (l : Memory) (a : Nat), (∀ c ∈ l, a < c.1) → l.read a = none := by
    intro l a hl
    induction l with
    | nil => rfl
    | cons c l ih =>
      have := hl c (by simp)
      rw [read_cons, if_neg (by omega)]
      exact ih fun d hd => hl d (by simp [hd])
  induction m generalizing m' with
  | nil =>
    cases m' with
    | nil => rfl
    | cons c m' => have := heq c.1; simp [read_cons] at this
  | cons c m ih =>
    cases m' with
    | nil => have := heq c.1; simp [read_cons] at this
    | cons d m' =>
      simp only [Memory.wf, List.map_cons, List.pairwise_cons, List.mem_map,
        forall_exists_index, and_imp, forall_apply_eq_imp_iff₂] at h h'
      have hcd : c.1 = d.1 := by
        by_contra hne
        rcases Nat.lt_or_gt_of_ne hne with hlt | hlt
        · have := heq c.1
          rw [read_cons, if_pos rfl, read_cons, if_neg (by omega),
            none_of_lt m' _ fun e he => lt_trans hlt (h'.1 e he)] at this
          cases this
        · have := heq d.1
          rw [read_cons, if_neg (by omega), read_cons, if_pos rfl,
            none_of_lt m _ fun e he => lt_trans hlt (h.1 e he)] at this
          cases this
      have hv : c.2 = d.2 := by
        have := heq c.1
        rw [read_cons, if_pos rfl, read_cons, if_pos hcd.symm] at this
        exact Option.some.inj this
      have htail : m = m' := by
        refine ih h.2 h'.2 fun a => ?_
        by_cases ha : c.1 = a
        · rw [none_of_lt m a fun e he => ha ▸ h.1 e he,
            none_of_lt m' a fun e he => by rw [← ha, hcd]; exact h'.1 e he]
        · have := heq a
          rwa [read_cons, if_neg ha, read_cons, if_neg (by omega)] at this
      rw [htail, Prod.ext hcd hv]

end Sys2Proof.Machine
end

