-- ==== Sys2Proof/Laws/PerInstr.lean ====
section
/-! SUPPORT. One lemma per instruction: the fields of its command word (R80). -/

namespace Sys2Proof.Laws

/-- The word of a well-formed instruction has ZERO clear, an assigned UNIT, an OP its unit may define, and
the instruction's own FMT where it carries one (R80, R81). -/
def EncodingFields.Statement (i : Instr) : Prop :=
  i.wf = true →
    zeroField (encode i) = 0 ∧ unitBits (encode i) < 8 ∧ opBits (encode i) < 3 ∧
      (i.fmtField ≠ 0 → fmtBits (encode i) = i.fmtField)

theorem EncodingFields.nop : EncodingFields.Statement .nop := fun _ => by decide

theorem EncodingFields.sreset : EncodingFields.Statement .sreset := fun _ => by decide

theorem EncodingFields.pack1 : EncodingFields.Statement .pack1 := fun _ => by decide

theorem EncodingFields.pack2 : EncodingFields.Statement .pack2 := fun _ => by decide

theorem EncodingFields.pack4 : EncodingFields.Statement .pack4 := fun _ => by decide

theorem EncodingFields.unpack1 : EncodingFields.Statement .unpack1 := fun _ => by decide

theorem EncodingFields.unpack2 : EncodingFields.Statement .unpack2 := fun _ => by decide

theorem EncodingFields.unpack4 : EncodingFields.Statement .unpack4 := fun _ => by decide

theorem EncodingFields.cvtEI4 : EncodingFields.Statement .cvtEI4 := fun _ => by decide

theorem EncodingFields.cvtDI4 : EncodingFields.Statement .cvtDI4 := fun _ => by decide

theorem EncodingFields.cvtEI8 : EncodingFields.Statement .cvtEI8 := fun _ => by decide

theorem EncodingFields.cvtDI8 : EncodingFields.Statement .cvtDI8 := fun _ => by decide

theorem EncodingFields.cvtEIA44 : EncodingFields.Statement .cvtEIA44 := fun _ => by decide

theorem EncodingFields.cvtDIA44 : EncodingFields.Statement .cvtDIA44 := fun _ => by decide

theorem EncodingFields.cvtEIA88 : EncodingFields.Statement .cvtEIA88 := fun _ => by decide

theorem EncodingFields.cvtDIA88 : EncodingFields.Statement .cvtDIA88 := fun _ => by decide

theorem EncodingFields.cvtERGB565 : EncodingFields.Statement .cvtERGB565 := fun _ => by decide

theorem EncodingFields.cvtDRGB565 : EncodingFields.Statement .cvtDRGB565 := fun _ => by decide

theorem EncodingFields.cvtERGB5A3 : EncodingFields.Statement .cvtERGB5A3 := fun _ => by decide

theorem EncodingFields.cvtDRGB5A3 : EncodingFields.Statement .cvtDRGB5A3 := fun _ => by decide

theorem EncodingFields.cvtEARGB8888 : EncodingFields.Statement .cvtEARGB8888 := fun _ => by decide

theorem EncodingFields.cvtDARGB8888 : EncodingFields.Statement .cvtDARGB8888 := fun _ => by decide

theorem EncodingFields.cvtEARGB4444 : EncodingFields.Statement .cvtEARGB4444 := fun _ => by decide

theorem EncodingFields.cvtDARGB4444 : EncodingFields.Statement .cvtDARGB4444 := fun _ => by decide

theorem EncodingFields.quant : EncodingFields.Statement .quant := fun _ => by decide

theorem EncodingFields.qmap : EncodingFields.Statement .qmap := fun _ => by decide

theorem EncodingFields.plut : EncodingFields.Statement .plut := fun _ => by decide

theorem EncodingFields.bcEnc : EncodingFields.Statement .bcEnc := fun _ => by decide

theorem EncodingFields.bcDec : EncodingFields.Statement .bcDec := fun _ => by decide

theorem EncodingFields.tileF : EncodingFields.Statement .tileF := fun _ => by decide

theorem EncodingFields.tileI : EncodingFields.Statement .tileI := fun _ => by decide

theorem EncodingFields.mipDown : EncodingFields.Statement .mipDown := fun _ => by decide

theorem EncodingFields.mipChain : EncodingFields.Statement .mipChain := fun _ => by decide

theorem EncodingFields.texEnc (fmt : Nat) : EncodingFields.Statement (.texEnc fmt) := by
  intro h
  have h16 : fmt < 16 := of_decide_eq_true h
  interval_cases fmt <;> decide

theorem EncodingFields.texDec (fmt : Nat) : EncodingFields.Statement (.texDec fmt) := by
  intro h
  have h16 : fmt < 16 := of_decide_eq_true h
  interval_cases fmt <;> decide

end Sys2Proof.Laws
end

