-- ==== Sys2Proof/Laws/Plans.lean ====
section
/-! SUPPORT. Region admission and the run of a plan: each said once, with everything it can do. -/

namespace Sys2Proof.Machine

/-! ### Regions (R26) -/

theorem inside_iff (r : Region) (n : Nat) :
    r.inside n = true ↔ r.len = 0 ∨ r.start + r.len ≤ n := by
  simp [Region.inside]

theorem disjoint_iff (r q : Region) :
    r.disjoint q = true ↔
      r.len = 0 ∨ q.len = 0 ∨ r.start + r.len ≤ q.start ∨ q.start + q.len ≤ r.start := by
  simp [Region.disjoint, or_assoc]

theorem outputsDisjoint_iff (ins outs : List Region) :
    outputsDisjoint ins outs = true ↔
      (∀ o ∈ outs, ∀ r ∈ ins, o.disjoint r = true) ∧ outs.Pairwise fun o q => o.disjoint q = true := by
  induction outs with
  | nil => simp [outputsDisjoint]
  | cons o os ih =>
    simp only [outputsDisjoint, Bool.and_eq_true, List.all_eq_true, ih, List.mem_cons,
      forall_eq_or_imp, List.pairwise_cons]
    tauto

/-- What admission says. -/
theorem admitted_iff (n : Nat) (ins outs : List Region) :
    admitted n ins outs = true ↔
      (∀ r ∈ ins, r.inside n = true) ∧ (∀ r ∈ outs, r.inside n = true) ∧
      (∀ o ∈ outs, ∀ r ∈ ins, o.disjoint r = true) ∧
      outs.Pairwise fun o q => o.disjoint q = true := by
  simp [admitted, outputsDisjoint_iff, List.all_eq_true, and_assoc]

theorem readRegions_single (m : Memory) (r : Region) :
    readRegions m [r] = (m.readBytes r.start r.len).map fun bs => [bs] := by
  cases h : m.readBytes r.start r.len <;> simp [readRegions, h]

/-- What the read of all input regions answers: the bytes of each, in order. -/
theorem readRegions_eq_some_iff (m : Memory) (rs : List Region) (bss : List (List Byte)) :
    readRegions m rs = some bss ↔
      List.Forall₂ (fun r bs => m.readBytes r.start r.len = some bs) rs bss := by
  induction rs generalizing bss with
  | nil => cases bss <;> simp [readRegions]
  | cons r rs ih =>
    simp only [readRegions]
    cases hr : m.readBytes r.start r.len with
    | none => cases bss <;> simp [hr]
    | some bs =>
      cases hrs : readRegions m rs with
      | none =>
        cases bss with
        | nil => simp
        | cons c cs =>
          have := (ih cs).not.1 (by simp [hrs])
          simp [this]
      | some css =>
        cases bss with
        | nil => simp
        | cons c cs =>
          have := ih cs
          simp only [hrs, Option.some.injEq] at this
          simp [hr, ← this]

/-! ### The first failing check (R86, R159) -/

@[simp] theorem firstFault_nil : firstFault [] = none := rfl

@[simp] theorem firstFault_cons (b : Bool) (f : FaultRecord) (rest : List (Bool × FaultRecord)) :
    firstFault ((b, f) :: rest) = if b then some f else firstFault rest := rfl

/-! ### runPlan -/

theorem runPlan_check {s : State} {p : Plan} {f : FaultRecord} (h : p.check = some f) :
    s.runPlan p = .next (s.takeFault f) := by
  simp [State.runPlan, h]

@[simp] theorem runPlan_faulting (s : State) (f : FaultRecord) :
    s.runPlan (Plan.faulting f) = .next (s.takeFault f) := rfl

theorem runPlan_not_admitted {s : State} {p : Plan} (h : p.check = none)
    (ha : admitted s.params.memBytes p.ins p.outs = false) :
    s.runPlan p = .next (s.takeFault ⟨.addressError, 0⟩) := by
  simp [State.runPlan, h, ha]

theorem runPlan_unwritten {s : State} {p : Plan} (h : p.check = none)
    (ha : admitted s.params.memBytes p.ins p.outs = true) (hr : readRegions s.mem p.ins = none) :
    s.runPlan p = .refused .unwrittenByte := by
  simp [State.runPlan, h, ha, hr]

theorem runPlan_error {s : State} {p : Plan} {bss : List (List Byte)} {f : FaultRecord}
    (h : p.check = none) (ha : admitted s.params.memBytes p.ins p.outs = true)
    (hr : readRegions s.mem p.ins = some bss) (hc : p.compute bss = .error f) :
    s.runPlan p = .next (s.takeFault f) := by
  simp [State.runPlan, h, ha, hr, hc]

theorem runPlan_ok {s : State} {p : Plan} {bss : List (List Byte)} {r : Result}
    (h : p.check = none) (ha : admitted s.params.memBytes p.ins p.outs = true)
    (hr : readRegions s.mem p.ins = some bss) (hc : p.compute bss = .ok r) :
    s.runPlan p = .next ({ s with mem := s.mem.writeAll r.writes }.succeed r.dstlen r.pallen) := by
  simp [State.runPlan, h, ha, hr, hc]

/-- Everything a plan can lead to when it answers a next state: a fault of its checks, of admission or of its
computation, or the writes of its result. -/
theorem runPlan_cases {s t : State} {p : Plan} (h : s.runPlan p = .next t) :
    (∃ f, p.check = some f ∧ t = s.takeFault f) ∨
    (p.check = none ∧ admitted s.params.memBytes p.ins p.outs = false ∧
      t = s.takeFault ⟨.addressError, 0⟩) ∨
    (p.check = none ∧ admitted s.params.memBytes p.ins p.outs = true ∧
      ∃ bss, readRegions s.mem p.ins = some bss ∧
        ((∃ f, p.compute bss = .error f ∧ t = s.takeFault f) ∨
         ∃ r, p.compute bss = .ok r ∧
          t = { s with mem := s.mem.writeAll r.writes }.succeed r.dstlen r.pallen)) := by
  simp only [State.runPlan] at h
  split at h
  · rename_i f hf
    exact .inl ⟨f, hf, by cases h; rfl⟩
  · rename_i hc
    split at h
    · rename_i ha
      split at h
      · cases h
      · rename_i bss hb
        refine .inr (.inr ⟨hc, ha, bss, hb, ?_⟩)
        split at h
        · rename_i f hf
          exact .inl ⟨f, hf, by cases h; rfl⟩
        · rename_i r hr
          exact .inr ⟨r, hr, by cases h; rfl⟩
    · rename_i ha
      exact .inr (.inl ⟨hc, by simpa using ha, by cases h; rfl⟩)

/-- A plan never stops the machine with a fault of the model. -/
theorem runPlan_ne_fault (s : State) (p : Plan) (r : Fault) : s.runPlan p ≠ .fault r := by
  simp only [State.runPlan]
  repeat' split
  all_goals simp

/-- The only refusal of a plan is a byte of an input region that has no value (R27). -/
theorem runPlan_refused {s : State} {p : Plan} {r : Refusal} (h : s.runPlan p = .refused r) :
    r = .unwrittenByte ∧ p.check = none ∧ admitted s.params.memBytes p.ins p.outs = true ∧
      readRegions s.mem p.ins = none := by
  simp only [State.runPlan] at h
  split at h
  · cases h
  · rename_i hc
    split at h
    · rename_i ha
      split at h
      · rename_i hb
        cases h
        exact ⟨rfl, hc, ha, hb⟩
      · split at h <;> cases h
    · cases h

/-! ### The writes of a plan stay inside its output regions -/

theorem readRegions_lengths {m : Memory} {rs : List Region} {bss : List (List Byte)}
    (h : readRegions m rs = some bss) : bss.map List.length = rs.map Region.len := by
  have h2 := (readRegions_eq_some_iff m rs bss).1 h
  clear h
  induction h2 with
  | nil => rfl
  | cons h1 _ ih => simp [readBytes_length h1, ih]

/-- Every byte run a computation writes lies inside one of the output regions of its plan, once the plan's
checks have passed and its input regions have been read (R26, R177). -/
def WritesInside (p : Plan) : Prop :=
  p.check = none → ∀ bss r, bss.map List.length = p.ins.map Region.len → p.compute bss = .ok r →
    ∀ w ∈ r.writes, ∃ o ∈ p.outs, o.start = w.1 ∧ w.2.length ≤ o.len

/-- A plan whose writes stay inside its outputs keeps every byte inside the memory (R20). -/
theorem runPlan_within {s t : State} {p : Plan} (hw : WritesInside p)
    (hm : s.mem.within s.params.memBytes) (h : s.runPlan p = .next t) :
    t.mem.within t.params.memBytes := by
  rcases runPlan_cases h with
    ⟨f, _, rfl⟩ | ⟨_, _, rfl⟩ | ⟨hc, ha, bss, hb, ⟨f, _, rfl⟩ | ⟨r, hr, rfl⟩⟩
  · simpa using hm
  · simpa using hm
  · simpa using hm
  · simp only [succeed_mem, succeed_params]
    refine within_writeAll hm fun w hwr => ?_
    obtain ⟨o, ho, h1, h2⟩ := hw hc bss r (readRegions_lengths hb) hr w hwr
    rcases (inside_iff o _).1 (((admitted_iff _ _ _).1 ha).2.1 o ho) with h0 | h0
    · exact .inl (List.eq_nil_of_length_eq_zero (by omega))
    · right; omega

/-- A plan keeps the canonical form of memory. -/
theorem runPlan_wf {s t : State} {p : Plan} (hm : s.mem.wf) (h : s.runPlan p = .next t) :
    t.mem.wf := by
  rcases runPlan_cases h with ⟨f, _, rfl⟩ | ⟨_, _, rfl⟩ | ⟨_, _, bss, _, ⟨f, _, rfl⟩ | ⟨r, _, rfl⟩⟩
  · exact hm
  · exact hm
  · exact hm
  · exact wf_writeAll hm _

end Sys2Proof.Machine
end

