-- ==== Sys2Proof/Laws/Writes.lean ====
section
/-! SUPPORT. The computation of every command writes inside the output regions its plan was admitted with. -/

namespace Sys2Proof.Machine

/-- The bytes of one input region. -/
theorem lengths_one {bss : List (List Byte)} {n : Nat} (h : bss.map List.length = [n]) :
    ∃ bs, bss = [bs] ∧ bs.length = n := by
  rcases bss with _ | ⟨bs, _ | ⟨_, _⟩⟩ <;> simp at h
  exact ⟨bs, rfl, h⟩

/-- The bytes of two input regions. -/
theorem lengths_two {bss : List (List Byte)} {n m : Nat} (h : bss.map List.length = [n, m]) :
    ∃ bs cs, bss = [bs, cs] ∧ bs.length = n ∧ cs.length = m := by
  rcases bss with _ | ⟨bs, _ | ⟨cs, _ | ⟨_, _⟩⟩⟩ <;> simp at h
  exact ⟨bs, cs, rfl, h.1, h.2⟩

theorem streamPlan_writesInside {s : State} {inLen outLen : Nat} {f : List Byte → List Byte}
    (h : ∀ bs : List Byte, bs.length = inLen → (f bs).length ≤ outLen) :
    WritesInside (streamPlan s inLen outLen f) := by
  intro _ bss r hl hr w hw
  cases hr
  obtain ⟨bs, rfl, hbs⟩ := lengths_one hl
  simp only [List.mem_singleton] at hw
  subst hw
  exact ⟨_, List.mem_singleton_self _, rfl, by simpa using h bs hbs⟩

theorem packPlan_writesInside (w : Nat) (s : State) : WritesInside (packPlan w s) :=
  streamPlan_writesInside fun bs hb => by simp [hb]

theorem unpackPlan_writesInside (w : Nat) (s : State) : WritesInside (unpackPlan w s) :=
  streamPlan_writesInside fun bs _ => by simp

theorem cvtEPlan_writesInside (f : Encoding) (s : State) : WritesInside (cvtEPlan f s) :=
  streamPlan_writesInside fun bs _ => by simp

theorem cvtDPlan_writesInside (f : Encoding) (s : State) : WritesInside (cvtDPlan f s) :=
  streamPlan_writesInside fun bs _ => by simp

theorem bcEncPlan_writesInside (s : State) : WritesInside (bcEncPlan s) :=
  streamPlan_writesInside fun bs _ => by rw [compressBlocks_length _ _ (by simp)]

theorem bcDecPlan_writesInside (s : State) : WritesInside (bcDecPlan s) :=
  streamPlan_writesInside fun bs _ => by simp; omega

/-- What the palette check lets pass. -/
theorem palsizeIllegal_false {k cap : Nat} (h : palsizeIllegal k cap = false) :
    1 ≤ k ∧ k ≤ cap := by
  simp only [palsizeIllegal, Bool.or_eq_false_iff, beq_eq_false_iff_ne, decide_eq_false_iff_not] at h
  omega

/-- What the range check lets pass. -/
theorem dimsOutOfRange_false {w h : Nat} (hd : dimsOutOfRange w h = false) :
    1 ≤ w ∧ w ≤ 65535 ∧ 1 ≤ h ∧ h ≤ 65535 := by
  simp only [dimsOutOfRange, Bool.or_eq_false_iff, beq_eq_false_iff_ne, decide_eq_false_iff_not] at hd
  omega

theorem dimsNotTiled_false {w h tw th : Nat} (hd : dimsNotTiled w h tw th = false) :
    (1 ≤ w ∧ w ≤ 65535 ∧ 1 ≤ h ∧ h ≤ 65535) ∧ w % tw = 0 ∧ h % th = 0 := by
  simp only [dimsNotTiled, Bool.or_eq_false_iff, bne_eq_false_iff_eq] at hd
  exact ⟨dimsOutOfRange_false hd.1.1, hd.1.2, hd.2⟩

theorem firstFault_eq_none_cons {b : Bool} {f : FaultRecord} {rest : List (Bool × FaultRecord)}
    (h : firstFault ((b, f) :: rest) = none) : b = false ∧ firstFault rest = none := by
  cases b <;> simp_all

theorem quantPlan_writesInside (s : State) : WritesInside (quantPlan s) := by
  intro hc bss r _ hr w hw
  have hk := palsizeIllegal_false (firstFault_eq_none_cons hc).1
  simp only [quantPlan] at hr
  split at hr
  · cases hr
  · rename_i pal hpal
    cases hr
    simp only [List.mem_cons, List.not_mem_nil, or_false] at hw
    rcases hw with rfl | rfl
    · refine ⟨_, List.mem_cons_self, rfl, ?_⟩
      have := buildPalette_length hk.1 hpal
      simp only [pixelBytes_length]; omega
    · refine ⟨_, List.mem_cons_of_mem _ (List.mem_singleton_self _), rfl, ?_⟩
      simp [mapIndices_length]

theorem qmapPlan_writesInside (s : State) : WritesInside (qmapPlan s) := by
  intro _ bss r _ hr w hw
  cases hr
  simp only [List.mem_singleton] at hw
  subst hw
  exact ⟨_, List.mem_singleton_self _, rfl, by simp [mapIndices_length]⟩

theorem plutPlan_writesInside (s : State) : WritesInside (plutPlan s) := by
  intro _ bss r hl hr w hw
  simp only [plutPlan] at hr
  split at hr
  · cases hr
    simp only [List.mem_singleton] at hw
    subst hw
    refine ⟨_, List.mem_singleton_self _, rfl, ?_⟩
    obtain ⟨bs, cs, rfl, h1, _⟩ := lengths_two hl
    simp [h1]
  · cases hr

theorem flatten_toTiled_length {es w h tw th : Nat} {elems : List (List Byte)}
    (he : ∀ x ∈ elems, x.length = es) : (toTiled w h tw th [] elems).flatten.length ≤ es * (w * h) := by
  have : ∀ (ks : List Nat), (ks.map fun k => elems.getD (tileLinear w tw th k) []).flatten.length ≤
      es * ks.length := by
    intro ks
    induction ks with
    | nil => simp
    | cons k ks ih =>
      have h1 : (elems.getD (tileLinear w tw th k) []).length ≤ es := by
        rcases Nat.lt_or_ge (tileLinear w tw th k) elems.length with hlt | hge
        · rw [List.getD_eq_getElem _ _ hlt, he _ (List.getElem_mem hlt)]
        · rw [List.getD_eq_default _ _ hge]; simp
      simp only [List.map_cons, List.flatten_cons, List.length_append, List.length_cons]
      rw [Nat.mul_add]; omega
  simpa [toTiled] using this (List.range (w * h))

theorem flatten_fromTiled_length {es w h tw th : Nat} {elems : List (List Byte)}
    (he : ∀ x ∈ elems, x.length = es) :
    (fromTiled w h tw th [] elems).flatten.length ≤ es * (w * h) := by
  have : ∀ (ks : List Nat),
      (ks.map fun j => elems.getD (tilePlace w tw th (j / w) (j % w)) []).flatten.length ≤
        es * ks.length := by
    intro ks
    induction ks with
    | nil => simp
    | cons k ks ih =>
      have h1 : (elems.getD (tilePlace w tw th (k / w) (k % w)) []).length ≤ es := by
        rcases Nat.lt_or_ge (tilePlace w tw th (k / w) (k % w)) elems.length with hlt | hge
        · rw [List.getD_eq_getElem _ _ hlt, he _ (List.getElem_mem hlt)]
        · rw [List.getD_eq_default _ _ hge]; simp
      simp only [List.map_cons, List.flatten_cons, List.length_append, List.length_cons]
      rw [Nat.mul_add]; omega
  simpa [fromTiled] using this (List.range (w * h))

/-- The elements a Tiler command moves, each of ESIZE bytes (R24, R92). -/
theorem tiler_elements_length {size n : Nat} {bs : List Byte} (h : bs.length = size * n) :
    ∀ x ∈ (List.range n).map (elementBytes size bs), x.length = size := by
  intro x hx
  obtain ⟨k, hk, rfl⟩ := List.mem_map.1 hx
  exact elementBytes_length h (List.mem_range.1 hk)

theorem tileFPlan_writesInside (s : State) : WritesInside (tileFPlan s) := by
  intro _ bss r hl hr w hw
  cases hr
  simp only [List.mem_singleton] at hw
  subst hw
  refine ⟨_, List.mem_singleton_self _, rfl, ?_⟩
  obtain ⟨bs, rfl, hb⟩ := lengths_one hl
  exact flatten_toTiled_length (tiler_elements_length hb)

theorem tileIPlan_writesInside (s : State) : WritesInside (tileIPlan s) := by
  intro _ bss r hl hr w hw
  cases hr
  simp only [List.mem_singleton] at hw
  subst hw
  refine ⟨_, List.mem_singleton_self _, rfl, ?_⟩
  obtain ⟨bs, rfl, hb⟩ := lengths_one hl
  exact flatten_fromTiled_length (tiler_elements_length hb)

theorem mipDownPlan_writesInside (s : State) : WritesInside (mipDownPlan s) := by
  intro _ bss r _ hr w hw
  cases hr
  simp only [List.mem_singleton] at hw
  subst hw
  refine ⟨_, List.mem_singleton_self _, rfl, ?_⟩
  simp [downRaster_px_length, levelDim, Nat.mul_assoc]

theorem mipChainPlan_writesInside (s : State) : WritesInside (mipChainPlan s) := by
  intro hc bss r _ hr w hw
  have hd := dimsOutOfRange_false (firstFault_eq_none_cons hc).1
  cases hr
  simp only [List.mem_singleton] at hw
  subst hw
  refine ⟨_, List.mem_singleton_self _, rfl, ?_⟩
  simp only
  rw [buildChain_bytes_length (by simpa using hd.1) (by simpa using hd.2.2.1) (by simp)]
  rfl

/-- The palette an encode builds fits its format's palette block (R110, R118). -/
theorem encodePalette_length {s : State} {f : PixelFormat} {base : Raster} {pal : List Pixel}
    (hk : ∀ cap, f.cap = some cap → palsizeIllegal s.palsizeVal cap = false)
    (h : encodePalette s f base = .ok pal) : ∀ cap, f.cap = some cap → pal.length ≤ cap := by
  intro cap hcap
  have := palsizeIllegal_false (hk cap hcap)
  simp only [encodePalette, hcap] at h
  exact (buildPalette_length this.1 h).trans this.2

theorem texEncFormatPlan_writesInside {s : State} (f : PixelFormat) :
    WritesInside (texEncFormatPlan f s) := by
  intro hc bss r _ hr w hw
  obtain ⟨hk, hc⟩ := firstFault_eq_none_cons hc
  have hd := (dimsNotTiled_false (firstFault_eq_none_cons hc).1).1
  simp only [texEncFormatPlan] at hr
  split at hr
  · cases hr
  · rename_i pal hpal
    cases hr
    simp only [List.mem_singleton] at hw
    subst hw
    refine ⟨_, List.mem_singleton_self _, rfl, ?_⟩
    simp only
    rw [encodePayload_length f (by simpa using hd.1) (by simpa using hd.2.2.1)
      (encodePalette_length (fun cap hcap => by simpa [hcap] using hk) hpal)]
    rfl

theorem faulting_writesInside (f : FaultRecord) : WritesInside (Plan.faulting f) := by
  intro hc; cases hc

theorem texDecFormatPlan_writesInside (f : PixelFormat) (s : State) :
    WritesInside (texDecFormatPlan f s) := by
  simp only [texDecFormatPlan]
  split
  · exact faulting_writesInside _
  · intro _ bss r _ hr w hw
    cases hr
    simp only [List.mem_singleton] at hw
    subst hw
    exact ⟨_, List.mem_singleton_self _, rfl, by simp⟩

/-- Every command's writes stay inside the output regions its plan was admitted with. -/
theorem commandPlan_writesInside {s : State} {i : Instr} {p : Plan}
    (h : commandPlan s i = some p) : WritesInside p := by
  cases i
  case nop => cases h
  case sreset => cases h
  case texEnc fmt =>
    cases h
    simp only [texEncPlan]
    split
    · exact texEncFormatPlan_writesInside _
    · exact faulting_writesInside _
  case texDec fmt =>
    cases h
    simp only [texDecPlan]
    split
    · exact texDecFormatPlan_writesInside _ _
    · exact faulting_writesInside _
  all_goals cases h
  all_goals first
    | exact packPlan_writesInside _ _
    | exact unpackPlan_writesInside _ _
    | exact cvtEPlan_writesInside _ _
    | exact cvtDPlan_writesInside _ _
    | exact bcEncPlan_writesInside _
    | exact bcDecPlan_writesInside _
    | exact quantPlan_writesInside _
    | exact qmapPlan_writesInside _
    | exact plutPlan_writesInside _
    | exact tileFPlan_writesInside _
    | exact tileIPlan_writesInside _
    | exact mipDownPlan_writesInside _
    | exact mipChainPlan_writesInside _

/-- Every command but NOP and SRESET is the run of its plan (R86). -/
theorem exec_eq_runPlan {s : State} {i : Instr} {p : Plan} (h : commandPlan s i = some p) :
    exec i s = s.runPlan p := by
  cases i <;> cases h <;> rfl

/-- Every instruction: NOP, SRESET, or the run of a plan. -/
theorem exec_cases (i : Instr) (s : State) :
    (i = .nop ∧ exec i s = .next (s.succeed 0 0)) ∨
    (i = .sreset ∧
      exec i s = .next { s with status := 0, errinfo := 0, dstlen := 0, pallen := 0 }) ∨
    ∃ p, commandPlan s i = some p ∧ exec i s = s.runPlan p := by
  cases i
  case nop => exact .inl ⟨rfl, rfl⟩
  case sreset => exact .inr (.inl ⟨rfl, rfl⟩)
  all_goals exact .inr (.inr ⟨_, rfl, rfl⟩)

end Sys2Proof.Machine
end

