-- ==== Sys2Proof/Tests/Slice0.lean ====
section
/-! SUPPORT. The model's own tests: WellFormed, the decoder and the encoder, one small command per instruction,
the host's side, and a witness for the hypotheses of every obligation that has some. Expected values are those of
spec/95_test_vectors.md (their id beside each test) or of the rule named beside the test. -/

namespace Sys2Proof.Tests

open Sys2Proof.Machine

/-! ### WellFormed: an FMT operand is four bits wide (R80) -/

theorem test_wf_refuses_texEnc_fmt : (Instr.texEnc 16).wf = false := by decide

theorem test_wf_refuses_texDec_fmt : (Instr.texDec 16).wf = false := by decide

/-! ### The decoder and the encoder, on the words of the table of R81 -/

/-- `w` is the word of `i`: it decodes to it, and encodes it. -/
def wordOf (i : Instr) (w : Word) : Bool := decodeTableWord 32 w.toNat == some i && encode i == w

theorem test_words_system :
    wordOf .nop 0x00000000 = true ∧
    wordOf .sreset 0x00000001 = true := by
  decide

theorem test_words_bitPacker :
    wordOf .pack1 0x00000110 = true ∧
    wordOf .pack2 0x00000210 = true ∧
    wordOf .pack4 0x00000410 = true ∧
    wordOf .unpack1 0x00000111 = true ∧
    wordOf .unpack2 0x00000211 = true ∧
    wordOf .unpack4 0x00000411 = true := by
  decide

theorem test_words_converter_encode :
    wordOf .cvtEI4 0x00000020 = true ∧
    wordOf .cvtEI8 0x00000120 = true ∧
    wordOf .cvtEIA44 0x00000220 = true ∧
    wordOf .cvtEIA88 0x00000320 = true ∧
    wordOf .cvtERGB565 0x00000420 = true ∧
    wordOf .cvtERGB5A3 0x00000520 = true ∧
    wordOf .cvtEARGB8888 0x00000620 = true ∧
    wordOf .cvtEARGB4444 0x00000720 = true := by
  decide

theorem test_words_converter_decode :
    wordOf .cvtDI4 0x00000021 = true ∧
    wordOf .cvtDI8 0x00000121 = true ∧
    wordOf .cvtDIA44 0x00000221 = true ∧
    wordOf .cvtDIA88 0x00000321 = true ∧
    wordOf .cvtDRGB565 0x00000421 = true ∧
    wordOf .cvtDRGB5A3 0x00000521 = true ∧
    wordOf .cvtDARGB8888 0x00000621 = true ∧
    wordOf .cvtDARGB4444 0x00000721 = true := by
  decide

theorem test_words_quantizer :
    wordOf .quant 0x00000030 = true ∧
    wordOf .qmap 0x00000031 = true ∧
    wordOf .plut 0x00000032 = true := by
  decide

theorem test_words_blockCompressor :
    wordOf .bcEnc 0x00000040 = true ∧
    wordOf .bcDec 0x00000041 = true := by
  decide

theorem test_words_tiler :
    wordOf .tileF 0x00000050 = true ∧
    wordOf .tileI 0x00000051 = true := by
  decide

theorem test_words_mipBuilder :
    wordOf .mipDown 0x00000060 = true ∧
    wordOf .mipChain 0x00000061 = true := by
  decide

theorem test_words_pipeline :
    wordOf (.texEnc 4) 0x00000470 = true ∧ wordOf (.texEnc 7) 0x00000770 = true ∧
    wordOf (.texEnc 14) 0x00000E70 = true ∧ wordOf (.texDec 10) 0x00000A71 = true ∧
    wordOf (.texDec 0) 0x00000071 = true ∧ wordOf (.texDec 15) 0x00000F71 = true := by
  decide

/-- The words of S4 to S11 are no command. -/
theorem test_illegal_words :
    ∀ w ∈ [0x00001000, 0x00000100, 0x00000310, 0x00000820, 0x00000033, 0x00000080, 0x00000130, 0xFFFFFFFF],
      decodeTableWord 32 w = none := by
  decide

/-! ### Small states, and what is looked at of a command's end -/

/-- An instance with a buffer memory of `n` bytes, after reset. -/
def freshCore (n : Nat) : State := State.resetWith (Config.defaultParams n)

/-- Bytes at address 0, COUNT, and an output region at 0x80. -/
def stream (count : Nat) (input : List Nat) : State :=
  { freshCore 256 with
    dst := 0x80
    count := BitVec.ofNat 32 count
    mem := Memory.writeBytes [] 0 (valueBytes input) }

/-- A raster at address 0, WIDTH and HEIGHT, a palette buffer at 0x60 and an output region at 0x80. -/
def raster (w h : Nat) (px : List (List Nat)) : State :=
  { freshCore 256 with
    dst := 0x80
    aux := 0x60
    width := BitVec.ofNat 32 w
    height := BitVec.ofNat 32 h
    mem := Memory.writeBytes [] 0 (valueBytes px.flatten) }

/-- `s` with bytes stored from `a` on. -/
def poke (s : State) (a : Nat) (bytes : List Nat) : State :=
  { s with mem := s.mem.writeBytes a (valueBytes bytes) }

/-- The state an outcome leads to, where there is one. -/
def next? (o : Host.Outcome State Fault Refusal) : Option State :=
  match o with
  | .next s => some s
  | _ => none

/-- The `n` bytes from `a` after an outcome. -/
def bytesAt (o : Host.Outcome State Fault Refusal) (a n : Nat) : Option (List Nat) :=
  (next? o).bind fun s => (s.mem.readBytes a n).map byteValues

/-- STATUS, ERRINFO, DSTLEN and PALLEN after an outcome. -/
def record (o : Host.Outcome State Fault Refusal) : Option (List Nat) :=
  (next? o).map fun s => [s.status.toNat, s.errinfo.toNat, s.dstlen.toNat, s.pallen.toNat]

/-- `o` is the refusal `r`. -/
def refusedBy (o : Host.Outcome State Fault Refusal) (r : Refusal) : Bool :=
  match o with
  | .refused q => q == r
  | _ => false

/-- `o` is the fault `f`. -/
def stoppedBy (o : Host.Outcome State Fault Refusal) (f : Fault) : Bool :=
  match o with
  | .fault g => g == f
  | _ => false

/-! ### One command each -/

/-- S1. -/
theorem test_nop : record (step (State.reset.withFetchWord 32 0)) = some [1, 0, 0, 0] := by decide

/-- S3. -/
theorem test_sreset :
    record (exec .sreset { freshCore 256 with status := 0x41, errinfo := 16 }) = some [0, 0, 0, 0] ∧
    (next? (exec .sreset { freshCore 256 with options := 8, width := 4 })).map
      (fun s => (s.options, s.width)) = some (8, 4) := by
  decide

/-- B6. -/
theorem test_pack1 :
    bytesAt (exec .pack1 (stream 9 [0x01, 0x00, 0x01, 0x01, 0x00, 0x00, 0x00, 0x01, 0x01])) 0x80 2 = some [0xB1, 0x80] := by
  decide

/-- B4. -/
theorem test_pack2 :
    bytesAt (exec .pack2 (stream 5 [0x03, 0x00, 0x01, 0x02, 0x01])) 0x80 2 = some [0xC6, 0x40] := by
  decide

/-- B1, the upper bits of the first value set as in B2. -/
theorem test_pack4 :
    bytesAt (exec .pack4 (stream 3 [0xF1, 0x02, 0x03])) 0x80 2 = some [0x12, 0x30] := by
  decide

/-- B8. -/
theorem test_pack4_nothing :
    record (exec .pack4 (stream 0 [])) = some [1, 0, 0, 0] := by
  decide

/-- B12. -/
theorem test_unpack1 :
    bytesAt (exec .unpack1 (stream 9 [0xB1, 0x80])) 0x80 9 =
      some [0x01, 0x00, 0x01, 0x01, 0x00, 0x00, 0x00, 0x01, 0x01] := by
  decide

/-- B11. -/
theorem test_unpack2 :
    bytesAt (exec .unpack2 (stream 5 [0xC6, 0x40])) 0x80 5 = some [0x03, 0x00, 0x01, 0x02, 0x01] := by
  decide

/-- B10. -/
theorem test_unpack4 :
    bytesAt (exec .unpack4 (stream 3 [0x12, 0x3F])) 0x80 3 = some [0x01, 0x02, 0x03] := by
  decide

/-- The rows (12,34,56,78) and (200,100,50,236) of the encode table. -/
theorem test_cvtEI4 :
    bytesAt (exec .cvtEI4 (stream 2 [12, 34, 56, 78, 200, 100, 50, 236])) 0x80 2 = some [0x02, 0x07] := by
  decide

/-- The rows (12,34,56,78) and (200,100,50,236) of the encode table. -/
theorem test_cvtEI8 :
    bytesAt (exec .cvtEI8 (stream 2 [12, 34, 56, 78, 200, 100, 50, 236])) 0x80 2 = some [0x1E, 0x7C] := by
  decide

/-- The rows (12,34,56,78) and (200,100,50,236) of the encode table. -/
theorem test_cvtEIA44 :
    bytesAt (exec .cvtEIA44 (stream 2 [12, 34, 56, 78, 200, 100, 50, 236])) 0x80 2 = some [0x52, 0xE7] := by
  decide

/-- The rows (12,34,56,78) and (200,100,50,236) of the encode table. -/
theorem test_cvtEIA88 :
    bytesAt (exec .cvtEIA88 (stream 2 [12, 34, 56, 78, 200, 100, 50, 236])) 0x80 4 = some [0x4E, 0x1E, 0xEC, 0x7C] := by
  decide

/-- The rows (12,34,56,78) and (200,100,50,236) of the encode table. -/
theorem test_cvtERGB565 :
    bytesAt (exec .cvtERGB565 (stream 2 [12, 34, 56, 78, 200, 100, 50, 236])) 0x80 4 = some [0x09, 0x07, 0xC3, 0x26] := by
  decide

/-- The rows (12,34,56,78) and (200,100,50,236) of the encode table. -/
theorem test_cvtERGB5A3 :
    bytesAt (exec .cvtERGB5A3 (stream 2 [12, 34, 56, 78, 200, 100, 50, 236])) 0x80 4 = some [0x21, 0x23, 0x6C, 0x63] := by
  decide

/-- The rows (12,34,56,78) and (200,100,50,236) of the encode table. -/
theorem test_cvtEARGB8888 :
    bytesAt (exec .cvtEARGB8888 (stream 2 [12, 34, 56, 78, 200, 100, 50, 236])) 0x80 8 = some [0x4E, 0x0C, 0x22, 0x38, 0xEC, 0xC8, 0x64, 0x32] := by
  decide

/-- The rows (12,34,56,78) and (200,100,50,236) of the encode table. -/
theorem test_cvtEARGB4444 :
    bytesAt (exec .cvtEARGB4444 (stream 2 [12, 34, 56, 78, 200, 100, 50, 236])) 0x80 4 = some [0x51, 0x23, 0xEC, 0x63] := by
  decide

/-- The row (200,100,50,237): the opaque mode. -/
theorem test_cvtERGB5A3_opaque :
    bytesAt (exec .cvtERGB5A3 (stream 1 [200, 100, 50, 237])) 0x80 2 = some [0xE1, 0x86] := by
  decide

/-- The decode table. -/
theorem test_cvtDI4 :
    bytesAt (exec .cvtDI4 (stream 2 [0x08, 0xF5])) 0x80 8 =
      some [136, 136, 136, 255, 85, 85, 85, 255] := by
  decide

/-- The decode table. -/
theorem test_cvtDI8 :
    bytesAt (exec .cvtDI8 (stream 2 [0x4D, 0x00])) 0x80 8 =
      some [77, 77, 77, 255, 0, 0, 0, 255] := by
  decide

/-- The decode table. -/
theorem test_cvtDIA44 :
    bytesAt (exec .cvtDIA44 (stream 2 [0x89, 0x5A])) 0x80 8 =
      some [153, 153, 153, 136, 170, 170, 170, 85] := by
  decide

/-- The decode table. -/
theorem test_cvtDIA88 :
    bytesAt (exec .cvtDIA88 (stream 2 [0x4E, 0x1E, 0x80, 0x95])) 0x80 8 =
      some [30, 30, 30, 78, 149, 149, 149, 128] := by
  decide

/-- The decode table. -/
theorem test_cvtDRGB565 :
    bytesAt (exec .cvtDRGB565 (stream 2 [0x09, 0x07, 0x12, 0x34])) 0x80 8 =
      some [8, 32, 57, 255, 16, 69, 165, 255] := by
  decide

/-- The decode table. -/
theorem test_cvtDRGB5A3 :
    bytesAt (exec .cvtDRGB5A3 (stream 2 [0x12, 0x34, 0x92, 0x34])) 0x80 8 =
      some [34, 51, 68, 36, 33, 140, 165, 255] := by
  decide

/-- The decode table. -/
theorem test_cvtDARGB8888 :
    bytesAt (exec .cvtDARGB8888 (stream 2 [0x4E, 0x0C, 0x22, 0x38, 0xED, 0xC8, 0x64, 0x32])) 0x80 8 =
      some [12, 34, 56, 78, 200, 100, 50, 237] := by
  decide

/-- The decode table. -/
theorem test_cvtDARGB4444 :
    bytesAt (exec .cvtDARGB4444 (stream 2 [0x51, 0x23, 0x80, 0xF0])) 0x80 8 =
      some [17, 34, 51, 85, 0, 255, 0, 136] := by
  decide

/-- The raster of Q2 to Q7. -/
def quantRaster (k : Word) : State :=
  { raster 8 1 [[0, 0, 0, 255], [0, 0, 0, 255], [0, 0, 0, 255], [10, 20, 0, 255], [200, 0, 0, 255],
      [200, 0, 0, 255], [255, 40, 0, 255], [255, 40, 0, 255]] with palsize := k }

/-- The raster of Q9 to Q11 with its two-entry palette. -/
def greyRaster (v : Nat) : State :=
  poke { raster 4 2 (List.replicate 8 [v, v, v, 255]) with palsize := 2 } 0x60
    [0, 0, 0, 255, 255, 255, 255, 255]

/-- Q4: the palette, the indices and the record. -/
theorem test_quant :
    bytesAt (exec .quant (quantRaster 3)) 0x60 12 =
      some [3, 5, 0, 255, 200, 0, 0, 255, 255, 40, 0, 255] ∧
    bytesAt (exec .quant (quantRaster 3)) 0x80 8 = some [0, 0, 0, 0, 1, 1, 2, 2] ∧
    record (exec .quant (quantRaster 3)) = some [1, 0, 8, 3] := by
  decide

/-- Q6. -/
theorem test_quant_strict :
    record (exec .quant { quantRaster 2 with options := 8 }) = some [0x41, 4, 0, 0] := by
  decide

/-- Q9: without dither. -/
theorem test_qmap :
    bytesAt (exec .qmap (greyRaster 128)) 0x80 8 = some [1, 1, 1, 1, 1, 1, 1, 1] := by
  decide

/-- Q10. -/
theorem test_qmap_dither :
    bytesAt (exec .qmap { greyRaster 128 with options := 2 }) 0x80 8 = some [1, 0, 1, 0, 0, 1, 0, 1] := by
  decide

/-- The operands of Q13 and Q14. -/
def lookup (k : Word) : State :=
  poke { stream 4 [2, 0, 2, 1] with aux := 0x40, palsize := k } 0x40
    [0, 0, 0, 255, 0, 0, 5, 255, 10, 0, 0, 255]

/-- Q13. -/
theorem test_plut :
    bytesAt (exec .plut (lookup 3)) 0x80 16 =
      some [10, 0, 0, 255, 0, 0, 0, 255, 10, 0, 0, 255, 0, 0, 5, 255] := by
  decide

/-- Q14. -/
theorem test_plut_no_entry :
    record (exec .plut (lookup 2)) = some [0x61, 0, 0, 0] := by
  decide

/-- The pixels of K6. -/
def blockPixels : List Nat :=
  (List.replicate 4 [255, 0, 0, 255] ++ List.replicate 4 [0, 0, 255, 255] ++
    List.replicate 4 [40, 40, 40, 255] ++ List.replicate 4 [200, 200, 200, 255]).flatten

/-- K6, best. -/
theorem test_bcEnc_best :
    bytesAt (exec .bcEnc { stream 1 blockPixels with options := 4 }) 0x80 8 =
      some [0xF8, 0x00, 0x00, 0x1F, 0x00, 0x55, 0xAA, 0xAA] := by
  decide

/-- K6, fast. -/
theorem test_bcEnc_fast :
    bytesAt (exec .bcEnc (stream 1 blockPixels)) 0x80 8 = some [0xC6, 0x38, 0x00, 0x1F, 0xAA, 0x55, 0xFF, 0x00] := by
  decide

/-- Row 0 of K8: the codes stand in rising order, and there are still four colours. -/
theorem test_bcDec :
    bytesAt (exec .bcDec (stream 1 [0x00, 0x1F, 0xF8, 0x00, 0x1B, 0x00, 0x00, 0xFF])) 0x80 16 =
      some [0, 0, 255, 255, 255, 0, 0, 255, 85, 0, 170, 255, 170, 0, 85, 255] := by
  decide

/-- A raster of elements for the Tiler. -/
def tiles (w h tw th es : Word) (input : List Nat) : State :=
  { stream 0 input with width := w, height := h, tilew := tw, tileh := th, esize := es }

/-- T5: the bytes of an element stay together. -/
theorem test_tileF :
    bytesAt (exec .tileF (tiles 4 2 2 2 2 [0x10, 0x00, 0x10, 0x01, 0x10, 0x02, 0x10, 0x03, 0x10, 0x04, 0x10, 0x05, 0x10, 0x06, 0x10, 0x07])) 0x80 16 =
      some [0x10, 0x00, 0x10, 0x01, 0x10, 0x04, 0x10, 0x05, 0x10, 0x02, 0x10, 0x03, 0x10, 0x06, 0x10, 0x07] := by
  decide

/-- T12: the operand check comes before the dimension check. -/
theorem test_tileF_operand_first :
    record (exec .tileF (tiles 6 4 4 4 3 [])) = some [0x61, 0, 0, 0] := by
  decide

/-- T4 undone (R93). -/
theorem test_tileI :
    bytesAt (exec .tileI (tiles 8 2 4 2 1 [0x00, 0x01, 0x02, 0x03, 0x08, 0x09, 0x0A, 0x0B, 0x04, 0x05, 0x06, 0x07, 0x0C, 0x0D, 0x0E, 0x0F])) 0x80 16 =
      some (List.range 16) := by
  decide

/-- T7. -/
theorem test_tileI_dimensions :
    record (exec .tileI (tiles 6 4 4 4 1 [])) = some [0x21, 0, 0, 0] := by
  decide

/-- The raster of M8 and M9. -/
def mipRaster : State := raster 4 2 ((List.range 8).map fun i => [10 * i, i, 255 - i, 255])

/-- M1. -/
theorem test_mipDown :
    bytesAt (exec .mipDown (raster 2 2 [[0, 0, 0, 255], [255, 255, 255, 255], [10, 20, 30, 40], [1, 2, 3, 4]]))
      0x80 4 = some [67, 69, 72, 139] := by
  decide

/-- M4: an odd dimension drops its last column. -/
theorem test_mipDown_odd :
    bytesAt (exec .mipDown (raster 5 1 ([0, 10, 20, 30, 40].map fun r => [r, 0, 0, 255]))) 0x80 8 =
      some [5, 0, 0, 255, 25, 0, 0, 255] := by
  decide

/-- M9: the levels past the base. -/
theorem test_mipChain :
    bytesAt (exec .mipChain mipRaster) 0xA0 12 =
      some [25, 3, 253, 255, 45, 5, 251, 255, 35, 4, 252, 255] ∧
    record (exec .mipChain mipRaster) = some [1, 0, 44, 0] := by
  decide

/-- The raster of X4. -/
def indexRaster : State :=
  { raster 8 4 ((List.range 32).map fun k =>
      [[255, 0, 0, 255], [0, 255, 0, 255], [0, 0, 255, 255], [255, 255, 255, 128]].getD
        ((k % 8 / 2 + k / 8) % 4) []) with
    palsize := 16
    options := 0x20 }

/-- Level 2 of X10's output and nothing else of it, at its place in the payload. -/
def lastLevel : State :=
  { poke { freshCore 256 with dst := 0x80, width := 4, height := 4 } 0x40
      (List.replicate 16 [0x80, 0x10]).flatten with
    options := 1
    level := 2 }

set_option maxRecDepth 4000 in
/-- X4: palette block and level. -/
theorem test_texEnc_index4 :
    bytesAt (exec (.texEnc 8) indexRaster) 0x80 48 =
      some ([0x80, 0x1F, 0x83, 0xE0, 0xFC, 0x00, 0x4F, 0xFF] ++ List.replicate 24 0 ++
        [0x22, 0x11, 0x00, 0x33, 0x11, 0x00, 0x33, 0x22, 0x00, 0x33, 0x22, 0x11, 0x33, 0x22, 0x11, 0x00]) ∧
    record (exec (.texEnc 8) indexRaster) = some [1, 0, 48, 4] := by
  decide

/-- X9 with MIPMAPS. -/
theorem test_texEnc_dxt1 :
    bytesAt (exec (.texEnc 14) { raster 4 4 (List.replicate 16 [255, 0, 0, 255]) with options := 1 }) 0x80 24 =
      some (List.replicate 3 [0xF8, 0x00, 0xF8, 0x00, 0x00, 0x00, 0x00, 0x00]).flatten := by
  decide

/-- X11, LEVEL 2: no other level is read. -/
theorem test_texDec_level :
    bytesAt (exec (.texDec 4) lastLevel) 0x80 4 = some [132, 0, 132, 255] := by
  decide

/-- X11, LEVEL 3, and X17. -/
theorem test_texDec_no_level :
    record (exec (.texDec 4) { lastLevel with level := 3 }) = some [0x61, 0, 0, 0] ∧
    record (exec (.texDec 10) (freshCore 256)) = some [0x31, 10, 0, 0] := by
  decide

/-! ### Regions and never-written bytes -/

/-- S12, S13. -/
theorem test_admission_S12_S13 :
    record (exec .pack4 { stream 32 [] with src := 0xF0, dst := 0 }) = some [0x71, 0, 0, 0] ∧
    record (exec .pack4 { stream 8 [] with dst := 2 }) = some [0x71, 0, 0, 0] := by
  decide

/-- S14, S15. -/
theorem test_admission_S14_S15 :
    record (exec .pack4 { stream 8 [1, 2, 3, 4, 5, 6, 7, 8] with dst := 8 }) = some [1, 0, 4, 0] ∧
    record (exec .pack4 { stream 0 [] with src := 0xFFFFFFFF, dst := 0xFFFFFFFF }) = some [1, 0, 0, 0] := by
  decide

/-- S16: the palette region is admitted at its largest size. -/
theorem test_admission_S16 :
    record (exec .quant { raster 2 2 [] with palsize := 64, aux := 0x80, dst := 0x40 }) = some [0x71, 0, 0, 0] := by
  decide

/-- R27: the last byte of the input region was never written. -/
theorem test_unwritten_byte :
    refusedBy (exec .pack4 (stream 3 [1, 2])) .unwrittenByte = true := by
  decide

/-! ### The host's side -/

/-- An instance whose host has these actions to do. -/
def hosted (actions : List HostAction) : State := { freshCore 256 with host := actions }

/-- The writes of P6 up to its first command, and that command: R84, R85, R11, R156. -/
theorem test_host_writes_registers :
    (next? (step (hosted (setReg .width 6)))).map (·.width) = some 6 ∧
    (next? (step (hosted (setReg .options 0xFFFFFFFF)))).map (·.options) = some 0x3F ∧
    (next? (step (hosted [.writeReg .word 0x04 7]))).map (·.status) = some 0 ∧
    record (step (hosted [goWord 0x1870])) = some [0x51, 0x1870, 0, 0] := by
  decide

/-- R11: PALLEN at 0x40, nothing at 0x44. -/
theorem test_host_reads_registers :
    (next? (step { hosted [.readReg .word 0x40] with pallen := 9 })).map (·.hostData) = some 9 ∧
    (next? (step { hosted [.readReg .word 0x44] with hostData := 9 })).map (·.hostData) = some 0 := by
  decide

/-- The last byte of the memory is reached, the one after it is not (R20); a byte never written has no value
(R27). -/
theorem test_host_memory :
    bytesAt (step (hosted [.storeMem 254 [1, 2]])) 254 2 = some [1, 2] ∧
    stoppedBy (step (hosted [.storeMem 255 [1, 2]])) .noSuchAddress = true ∧
    refusedBy (step (hosted [.loadMem 255])) .unwrittenByte = true := by
  decide

/-- R11, R174. -/
theorem test_host_refusals :
    refusedBy (step (hosted [.writeReg .byte 0x10 7])) .notAWordAccess = true ∧
    refusedBy (step (hosted [.readReg .word 0x12])) .notAWordAccess = true ∧
    refusedBy (step { hosted [goWord 0] with status := 2 }) .hostAccessWhileBusy = true := by
  decide

/-- R171, R172: a reset leaves the memory and takes the registers to 0. -/
theorem test_reset :
    bytesAt (step { stream 3 [1, 2, 3] with host := [.reset], status := 0x21 }) 0 3 = some [1, 2, 3] ∧
    (next? (step { stream 3 [1, 2, 3] with host := [.reset], status := 0x21 })).map
      (fun s => (s.status, s.count)) = some (0, 0) := by
  decide

/-- R172: the output region (0x80, 2) has a value after the cut, the bytes around it have none. -/
theorem test_cut_by_reset :
    (next? (step { stream 3 [1, 2, 3] with host := [.cutByReset 0x410] })).map
      (fun s => [0x7F, 0x80, 0x81, 0x82].map fun a => (s.mem.read a).isSome) =
      some [false, true, true, false] := by
  decide

/-! ### The Container -/

/-- The header of C1. -/
def headerC1 : ContainerHeader where
  format := .dxt1
  width := 4
  height := 4
  mipmaps := false
  externalPalette := false
  palfmt := 0
  globalIndex := none

/-- The payload of C1. -/
def payloadC1 : List Byte := [0xF8, 0, 0xF8, 0, 0, 0, 0, 0]

/-- C1 and C2. -/
theorem test_container_write :
    containerWrite headerC1 payloadC1 =
      some [0x47, 0x56, 0x52, 0x54, 0, 0, 0, 0x16, 0x0E, 0, 0, 4, 0, 4, 0xF8, 0, 0xF8, 0, 0, 0, 0, 0] ∧
    (containerFrame { headerC1 with globalIndex := some 5 } payloadC1).take 16 =
      [0x47, 0x42, 0x49, 0x58, 0, 0, 0, 0x10, 0, 0, 0, 5, 0, 0, 0, 0] := by
  decide

/-- R134: has_external_palette is written with the two index formats only. -/
theorem test_container_flags :
    containerWrite { headerC1 with externalPalette := true } payloadC1 = none ∧
    { headerC1 with externalPalette := true, format := .index4 }.writable = true ∧
    { headerC1 with externalPalette := true, format := .index8 }.writable = true ∧
    { headerC1 with externalPalette := true, format := .rgb565 }.writable = false := by
  decide

/-- The fault of the reader on C1 with byte `k` set to `b`; 0 where it accepts. -/
def readerFault (k : Nat) (b : Byte) : Nat :=
  match containerRead (Config.defaultParams 256) ((containerFrame headerC1 payloadC1).set k b) with
  | .error f => f.err.code.toNat
  | .ok _ => 0

/-- The reader faults of Part 4. -/
theorem test_container_read :
    [readerFault 0 0x58, readerFault 7 0x17, readerFault 8 0x0A, readerFault 8 0x8E, readerFault 8 0x1E,
      readerFault 9 0x04, readerFault 9 0x10, readerFault 9 0x01, readerFault 9 0x02, readerFault 11 0x06] =
      [1, 1, 3, 1, 1, 1, 1, 1, 0, 2] := by
  decide

/-- What a host procedure yields; the fault's or reader's code where it fails. -/
def outcome? {α : Type} (o : Host.Outcome (State × CodecResult α) Fault Refusal) : Option (Nat ⊕ α) :=
  match o with
  | .next (_, .done a) => some (.inr a)
  | .next (_, .failed e) => some (.inl e.err.toNat)
  | _ => none

set_option maxRecDepth 4000 in
/-- C1 as a whole: the raster goes in, the 22 bytes come out; with a width of 6 the core's error and no bytes. -/
theorem test_encodeImage :
    outcome? (encodeImage ⟨headerC1, false, false, false, 0, 0, 0x80, List.replicate 16 ⟨255, 0, 0, 255⟩⟩
      (freshCore 256)) = some (.inr (containerFrame headerC1 payloadC1)) ∧
    outcome? (encodeImage ⟨{ headerC1 with width := 6 }, false, false, false, 0, 0, 0x80, []⟩
      (freshCore 256)) = some (.inl 2) := by
  decide

set_option maxRecDepth 4000 in
/-- R138: the stream of C1 gives the raster back; a level the chain lacks is the core's error, a bad magic the
reader's. -/
theorem test_decodeImage :
    outcome? (decodeImage ⟨0, 0, 0x80⟩ (containerFrame headerC1 payloadC1) (freshCore 256)) =
      some (.inr ⟨headerC1, ⟨4, 4, List.replicate 16 ⟨255, 0, 0, 255⟩⟩⟩) ∧
    outcome? (decodeImage ⟨1, 0, 0x80⟩ (containerFrame headerC1 payloadC1) (freshCore 256)) =
      some (.inl 6) ∧
    outcome? (decodeImage ⟨0, 0, 0x80⟩ ((containerFrame headerC1 payloadC1).set 0 0x58) (freshCore 256)) =
      some (.inl 1) := by
  decide

/-! ### Witnesses: every statement's hypotheses are met -/

/-- The command passes its checks and its input regions can be read. -/
def Meets (s : State) (i : Instr) : Prop :=
  Accepted s i ∧ ∀ r ∈ inputRegions s i, ∃ v, s.mem.readBytes r.start r.len = some v

/-- `Meets`, computed. -/
def meets (s : State) (i : Instr) : Bool :=
  s.params.valid && !formatUnknown i && !operandIllegal s i && !dimensionsIllegal s i &&
    regionsAdmitted s i && (inputRegions s i).all fun r => (s.mem.readBytes r.start r.len).isSome

theorem meets_of (s : State) (i : Instr) (h : meets s i = true) : Meets s i := by
  simp only [meets, Bool.and_eq_true, Bool.not_eq_true', List.all_eq_true] at h
  obtain ⟨⟨⟨⟨⟨h1, h2⟩, h3⟩, h4⟩, h5⟩, h6⟩ := h
  exact ⟨⟨h1, h2, h3, h4, h5⟩, fun r hr => Option.isSome_iff_exists.mp (h6 r hr)⟩

/-- The outcome is the next state `next?` gives. -/
theorem next_of (o : Host.Outcome State Fault Refusal) (t : State) (h : next? o = some t) : o = .next t := by
  cases o <;> simp_all [next?]

/-- A command that leads to a next state. -/
theorem leads (o : Host.Outcome State Fault Refusal) (h : (next? o).isSome = true) : ∃ t, o = .next t := by
  obtain ⟨t, ht⟩ := Option.isSome_iff_exists.mp h
  exact ⟨t, next_of o t ht⟩

/-- A command that ends with the fault of the given code. -/
theorem leads_to_fault (o : Host.Outcome State Fault Refusal) (c : BitVec 4) (hc : c ≠ 0)
    (h : (next? o).map State.err = some c) : ∃ t, o = .next t ∧ t.err = c ∧ t.err ≠ 0 := by
  obtain ⟨t, ht, he⟩ := Option.map_eq_some_iff.mp h
  exact ⟨t, next_of o t ht, he, he ▸ hc⟩

/-- Both ends of the FMT field. -/
theorem witness_DecodeOfEncode :
    Instr.wf .nop = true ∧ Instr.wf (.texEnc 0) = true ∧ Instr.wf (.texDec 15) = true := by
  decide

/-- A word of every kind that R83 lists. -/
def illegalWords : List Word :=
  [0x00001000, 0x80000000, 0x00000080, 0x000000F0, 0x00000003, 0x00000042, 0x0000007F, 0x00000310, 0x00000011,
    0x00000820, 0x00000F21, 0x00000100, 0x00000132]

theorem illegalWords_noCommand : ∀ w ∈ illegalWords,
    noCommand (w.toNat / 4096) (w.toNat / 256 % 16) (w.toNat / 16 % 16) (w.toNat % 16) := by
  simp [noCommand, illegalWords]

theorem witness_IllegalWordFaults : ∀ w ∈ illegalWords,
    (hosted [goWord w]).host = goWord w :: [] ∧ (hosted [goWord w]).busy = false ∧
      noCommand (w.toNat / 4096) (w.toNat / 256 % 16) (w.toNat / 16 % 16) (w.toNat % 16) :=
  fun w hw => ⟨rfl, by simp [hosted, freshCore, State.resetWith, State.busy], illegalWords_noCommand w hw⟩

theorem witness_StepRunsDecodedCommand :
    (hosted [goWord 0xF71, .reset]).host = goWord 0xF71 :: [.reset] ∧
      (hosted [goWord 0xF71, .reset]).busy = false ∧ decodeTableWord 32 0xF71 = some (.texDec 15) ∧
      Instr.wf (.texDec 15) = true := by
  decide

/-- The first register past CMD, OPTIONS, a read-only register at the end of the window, a reserved offset. -/
theorem witness_WindowWriteEffect :
    ∀ offset ∈ [0x04, 0x0C, 0x40, 0x44],
      (hosted [.writeReg .word offset 0xFFFFFFFF]).host = .writeReg .word offset 0xFFFFFFFF :: [] ∧
        (hosted [.writeReg .word offset 0xFFFFFFFF]).busy = false ∧ offset % 4 = 0 ∧ offset ≠ 0 := by
  decide

/-- CMD, the last register, the first reserved offset. -/
theorem witness_WindowReadEffect :
    ∀ offset ∈ [0x00, 0x40, 0x44],
      (hosted [.readReg .word offset]).host = .readReg .word offset :: [] ∧ offset % 4 = 0 := by
  decide

/-- Narrow and unaligned accesses, and while BUSY the memory accesses and writes of CMD, of a read-only register at
either end, of the last writable one and at the first reserved offset. -/
theorem witness_UndefinedAccessRefused :
    (∀ x ∈ [(AccessWidth.byte, 0x10), (AccessWidth.half, 0x10), (AccessWidth.word, 0x11)],
      (x.1 ≠ .word ∨ x.2 % 4 ≠ 0) ∧
        (hosted [.writeReg x.1 x.2 5]).host = .writeReg x.1 x.2 5 :: [] ∧
        (hosted [.readReg x.1 x.2]).host = .readReg x.1 x.2 :: []) ∧
    ∀ a ∈ [HostAction.writeReg .word 0 0, .writeReg .word 0x04 0, .writeReg .word 0x38 0, .writeReg .word 0x40 0,
        .writeReg .word 0x44 0, .storeMem 0 [1], .loadMem 0],
      { hosted [a] with status := 2 }.busy = true ∧ { hosted [a] with status := 2 }.host = a :: [] := by
  decide

/-- Runs of bytes that end at the last address and past it, the empty run, and loads of a written byte, of one
never written, and past the end. -/
theorem witness_HostMemoryAccess :
    (hosted [.storeMem 254 [1, 2]]).busy = false ∧
    254 + [(1 : Byte), 2].length ≤ (hosted []).params.memBytes ∧
    ¬ (255 + [(1 : Byte), 2].length ≤ (hosted []).params.memBytes) ∧
    (hosted [.storeMem 300 []]).host = .storeMem 300 [] :: [] ∧
    255 < (hosted [.loadMem 255]).params.memBytes ∧
    { stream 1 [9] with host := [.loadMem 0] }.mem.read 0 = some 9 ∧
    (hosted [.loadMem 255]).mem.read 255 = none ∧ ¬ 256 < (hosted [.loadMem 256]).params.memBytes := by
  decide

theorem witness_ResetState : (freshCore 256).host = [] := rfl

theorem witness_HardwareResetEffect : (hosted [.reset]).host = .reset :: [] := rfl

/-- A command that is admitted, with a byte outside its output region and one inside; a word that is no command; and a
command under each of the four failing checks. -/
theorem witness_ResetDuringCommand :
    { stream 3 [1, 2, 3] with host := [.cutByReset 0x410] }.host = .cutByReset 0x410 :: [] ∧
    (stream 3 [1, 2, 3]).busy = false ∧ decodeTableWord 32 0x410 = some .pack4 ∧
    Meets (stream 3 [1, 2, 3]) .pack4 ∧
    outputRegions (stream 3 [1, 2, 3]) .pack4 = [⟨0x80, 2⟩] ∧
    decodeTableWord 32 0x1000 = none ∧
    regionsAdmitted { stream 8 [] with dst := 2 } .pack4 = false ∧
    (decodeTableWord 32 0xA71 = some (.texDec 10) ∧ formatUnknown (.texDec 10) = true) ∧
    (decodeTableWord 32 0x30 = some .quant ∧ operandIllegal (quantRaster 0) .quant = true) ∧
    (decodeTableWord 32 0x60 = some .mipDown ∧ dimensionsIllegal (freshCore 256) .mipDown = true) :=
  ⟨rfl, by decide, by decide, meets_of _ _ (by decide), by decide, by decide, by decide, by decide, by decide,
    by decide⟩

/-- A state that meets the invariant after a fault, with a command to run. -/
def afterFault : State :=
  { stream 3 [1, 2, 3] with host := [goWord 0x410], status := 0x41, errinfo := 16, options := 0x3F }

theorem witness_Inv : Inv afterFault where
  paramsValid := by decide
  memSorted := by decide
  memWithin := by decide
  statusReserved := by decide
  notBusy := by decide
  errLegal := by decide
  optionsReserved := by decide
  recordEmpty := by decide
  successInfo := by decide
  faultLengths := by decide

/-- A step from a state that meets the invariant. -/
theorem witness_InvariantStep : Inv afterFault ∧ ∃ t, step afterFault = .next t :=
  ⟨witness_Inv, leads _ (by decide)⟩

theorem witness_ParametersConstant : ∃ t, step afterFault = .next t := leads _ (by decide)

theorem witness_CommandsKeepHostRegisters :
    (∃ t, exec .pack4 afterFault = .next t) ∧ ∃ t, exec (.texDec 10) afterFault = .next t :=
  ⟨leads _ (by decide), leads _ (by decide)⟩

/-- Each of the five faults a command can end with. -/
theorem witness_FaultEffect :
    (∃ t, exec .mipDown (freshCore 256) = .next t ∧ t.err = 2 ∧ t.err ≠ 0) ∧
    (∃ t, exec (.texEnc 15) (freshCore 256) = .next t ∧ t.err = 3 ∧ t.err ≠ 0) ∧
    (∃ t, exec .quant { quantRaster 2 with options := 8 } = .next t ∧ t.err = 4 ∧ t.err ≠ 0) ∧
    (∃ t, exec .plut (lookup 2) = .next t ∧ t.err = 6 ∧ t.err ≠ 0) ∧
    ∃ t, exec .pack1 { stream 8 [] with dst := 2 } = .next t ∧ t.err = 7 ∧ t.err ≠ 0 :=
  ⟨leads_to_fault _ _ (by decide) (by decide), leads_to_fault _ _ (by decide) (by decide),
    leads_to_fault _ _ (by decide) (by decide), leads_to_fault _ _ (by decide) (by decide),
    leads_to_fault _ _ (by decide) (by decide)⟩

theorem witness_FaultRepeats :
    ∃ t, exec .quant { quantRaster 2 with options := 8 } = .next t ∧ t.err = 4 ∧ t.err ≠ 0 :=
  leads_to_fault _ _ (by decide) (by decide)

/-- QUANT, whose palette region counts, on a byte between the two, and a command without one. -/
theorem witness_BytesWritten :
    (quantRaster 3).params.valid = true ∧ (∃ t, exec .quant (quantRaster 3) = .next t) ∧
    record (exec .quant (quantRaster 3)) = some [1, 0, 8, 3] ∧
    (0x6C < (quantRaster 3).dst.toNat ∧ (quantRaster 3).aux.toNat + 4 * 3 ≤ 0x6C) ∧
    ∃ t, exec .mipChain mipRaster = .next t :=
  ⟨by decide, leads _ (by decide), by decide, by decide, leads _ (by decide)⟩

/-- Two states that differ in the record, in a byte past the input region and in CMD. -/
theorem witness_DependsOnInputsOnly :
    SameOperands (stream 3 [1, 2, 3]) { poke (stream 3 [1, 2, 3, 4]) 0x82 [7] with status := 0x41, cmd := 5 } ∧
    (∀ r ∈ inputRegions (stream 3 [1, 2, 3]) .pack4, ∀ a, r.start ≤ a → a < r.start + r.len →
      (poke (stream 3 [1, 2, 3, 4]) 0x82 [7]).mem.read a = (stream 3 [1, 2, 3]).mem.read a) ∧
    ∃ t, exec .pack4 (stream 3 [1, 2, 3]) = .next t := by
  refine ⟨by unfold SameOperands; decide, ?_, leads _ (by decide)⟩
  intro r hr a _ h2
  have hr' : r = ⟨0, 3⟩ := by
    have : inputRegions (stream 3 [1, 2, 3]) .pack4 = [⟨0, 3⟩] := by decide
    rw [this] at hr
    exact List.mem_singleton.mp hr
  subst hr'
  have h3 : a < 3 := by simpa using h2
  interval_cases a <;> decide

/-- A command under each of the four failing checks, with every earlier one passed. -/
theorem witness_FaultPriority :
    formatUnknown (.texDec 10) = true ∧
    (formatUnknown (.texEnc 8) = false ∧ operandIllegal { indexRaster with palsize := 17 } (.texEnc 8) = true) ∧
    (operandIllegal { indexRaster with width := 6 } (.texEnc 8) = false ∧
      dimensionsIllegal { indexRaster with width := 6 } (.texEnc 8) = true) ∧
    (dimensionsIllegal { indexRaster with src := 0xF0 } (.texEnc 8) = false ∧
      regionsAdmitted { indexRaster with src := 0xF0 } (.texEnc 8) = false) := by
  decide

/-- The first and the last byte of an input region, each missing. -/
theorem witness_UnwrittenInputRefused :
    (∀ s ∈ [{ freshCore 256 with src := 4, dst := 0x80, count := 3, mem := [(5, 1), (6, 2)] },
        { freshCore 256 with src := 4, dst := 0x80, count := 3, mem := [(4, 0), (5, 1)] }],
      s.params.valid = true ∧ formatUnknown .pack4 = false ∧ operandIllegal s .pack4 = false ∧
        dimensionsIllegal s .pack4 = false ∧ regionsAdmitted s .pack4 = true ∧
        inputRegions s .pack4 = [⟨4, 3⟩]) ∧
    Memory.read [(5, 1), (6, 2)] 4 = none ∧ Memory.read [(4, 0), (5, 1)] 6 = none := by
  decide

/-- No value, and nine, of which the last does not fill its byte. -/
theorem witness_PackCompletes :
    ∀ i ∈ [Instr.pack1, .pack2, .pack4],
      Meets (stream 0 []) i ∧ Meets (stream 9 [1, 0, 1, 1, 0, 0, 0, 1, 255]) i := by
  intro i hi
  simp only [List.mem_cons, List.not_mem_nil, or_false] at hi
  obtain rfl | rfl | rfl := hi <;> exact ⟨meets_of _ _ (by decide), meets_of _ _ (by decide)⟩

theorem witness_UnpackCompletes :
    ∀ i ∈ [Instr.unpack1, .unpack2, .unpack4],
      Meets (stream 0 []) i ∧ Meets (stream 9 [1, 2, 3, 4, 255]) i := by
  intro i hi
  simp only [List.mem_cons, List.not_mem_nil, or_false] at hi
  obtain rfl | rfl | rfl := hi <;> exact ⟨meets_of _ _ (by decide), meets_of _ _ (by decide)⟩

theorem witness_UnpackFunction : (4 : Nat) ∈ [1, 2, 4] ∧ (0 : Nat) < 1 := by decide

/-- The two ends of the channel, and a code that is not the nearest one. -/
theorem witness_NarrowingIsNearest : (6 : Nat) ∈ [3, 4, 5, 6] ∧ (255 : Nat) < 256 ∧ 0 ≠ narrow 6 255 := by
  decide

theorem witness_WideningLaws :
    (3, widen3, 18) ∈ [(3, widen3, 18), (4, widen4, 8), (5, widen5, 4), (6, widen6, 2)] ∧
      (7 : Nat) < 2 ^ 3 ∧ (255 : Nat) < 256 := by
  simp

/-- No pixel, and two. -/
theorem witness_ConverterEncodes :
    ∀ i ∈ [Instr.cvtEI4, .cvtEI8, .cvtEIA44, .cvtEIA88, .cvtERGB565, .cvtERGB5A3, .cvtEARGB4444, .cvtEARGB8888],
      Meets (stream 0 []) i ∧ Meets (stream 2 [12, 34, 56, 78, 200, 100, 50, 237]) i := by
  intro i hi
  simp only [List.mem_cons, List.not_mem_nil, or_false] at hi
  obtain rfl | rfl | rfl | rfl | rfl | rfl | rfl | rfl := hi <;>
    exact ⟨meets_of _ _ (by decide), meets_of _ _ (by decide)⟩

theorem witness_ConverterDecodes :
    ∀ i ∈ [Instr.cvtDI4, .cvtDI8, .cvtDIA44, .cvtDIA88, .cvtDRGB565, .cvtDRGB5A3, .cvtDARGB4444, .cvtDARGB8888],
      Meets (stream 0 []) i ∧ Meets (stream 2 [12, 34, 56, 78, 200, 100, 50, 237]) i := by
  intro i hi
  simp only [List.mem_cons, List.not_mem_nil, or_false] at hi
  obtain rfl | rfl | rfl | rfl | rfl | rfl | rfl | rfl := hi <;>
    exact ⟨meets_of _ _ (by decide), meets_of _ _ (by decide)⟩

/-- The pixels of a raster that a state holds at SRC. -/
def coloursOf (s : State) : Option Nat :=
  (s.mem.readBytes s.src.toNat (4 * rasterPixels s)).map fun v => distinctColours (pixelsOf (rasterPixels s) v)

/-- Strict with as many colours as entries; not strict with fewer entries, with and without dither. -/
theorem witness_QuantCompletes :
    Meets { quantRaster 4 with options := 8 } .quant ∧ coloursOf (quantRaster 4) = some 4 ∧
    Meets (quantRaster 1) .quant ∧ Meets { quantRaster 2 with options := 2 } .quant :=
  ⟨meets_of _ _ (by decide), by decide, meets_of _ _ (by decide), meets_of _ _ (by decide)⟩

set_option maxRecDepth 4000 in
/-- Each of the three commands with one colour too many. -/
theorem witness_TooManyColoursFaults :
    (Meets { quantRaster 3 with options := 8 } .quant ∧ coloursOf (quantRaster 3) = some 4) ∧
    (Meets { indexRaster with palsize := 3, options := 8 } (.texEnc 8) ∧ coloursOf indexRaster = some 4) ∧
    { indexRaster with palsize := 3, options := 8 }.optStrict = true :=
  ⟨⟨meets_of _ _ (by decide), by decide⟩, ⟨meets_of _ _ (by decide), by decide⟩, by decide⟩

/-- Two colours, one entry: as an INDEX8 texture. -/
def twoColours : State :=
  { freshCore 1024 with
    dst := 0x100
    width := 4
    height := 4
    palsize := 1
    options := 8
    mem := Memory.writeBytes [] 0 (valueBytes (List.replicate 32 0 ++ List.replicate 32 1)) }

theorem witness_TooManyColoursFaults_index8 :
    Meets twoColours (.texEnc 9) ∧ coloursOf twoColours = some 2 ∧ twoColours.optStrict = true :=
  ⟨meets_of _ _ (by decide), by decide, by decide⟩

/-- Three colours: no split, which leaves a box to split, and two, which do not. -/
theorem witness_MedianCutRule :
    0 < distinctColours [Pixel.zero, ⟨1, 0, 0, 0⟩, ⟨0, 0, 2, 0⟩] ∧
      0 + 1 < distinctColours [Pixel.zero, ⟨1, 0, 0, 0⟩, ⟨0, 0, 2, 0⟩] ∧
      2 < distinctColours [Pixel.zero, ⟨1, 0, 0, 0⟩, ⟨0, 0, 2, 0⟩] := by
  decide

/-- A bound that just holds the colours, one that does not, and a raster with its pixels exchanged. -/
theorem witness_PaletteRule :
    distinctColours [Pixel.zero, ⟨1, 0, 0, 0⟩] ≤ 2 ∧ 1 < distinctColours [Pixel.zero, ⟨1, 0, 0, 0⟩] ∧
      [Pixel.zero, ⟨1, 0, 0, 0⟩].Perm [⟨1, 0, 0, 0⟩, Pixel.zero] :=
  ⟨by decide, by decide, List.Perm.swap _ _ _⟩

/-- A palette of one entry, and one that holds every colour. -/
theorem witness_AssignmentRule :
    [Pixel.zero, ⟨1, 0, 0, 0⟩].length = 1 * 2 ∧ [Pixel.zero] ≠ [] ∧
      ∀ x ∈ [Pixel.zero, ⟨1, 0, 0, 0⟩], x ∈ [(⟨1, 0, 0, 0⟩ : Pixel), Pixel.zero] := by
  decide

theorem witness_QmapCompletes :
    Meets (greyRaster 128) .qmap ∧ Meets { greyRaster 128 with options := 2 } .qmap :=
  ⟨meets_of _ _ (by decide), meets_of _ _ (by decide)⟩

/-- Every index names an entry, the largest the last one; and one does not. -/
theorem witness_PlutOutcome :
    Meets (lookup 3) .plut ∧ (∀ b ∈ [(2 : Byte), 0, 2, 1], b.toNat < (lookup 3).palsize.toNat) ∧
    Meets (lookup 2) .plut ∧ ¬ ∀ b ∈ [(2 : Byte), 0, 2, 1], b.toNat < (lookup 2).palsize.toNat :=
  ⟨meets_of _ _ (by decide), by decide, meets_of _ _ (by decide), by decide⟩

theorem witness_CompressedBlockRule : (List.replicate 16 Pixel.zero).length = 16 := by decide

theorem witness_BlockEncodeCompletes :
    Meets (stream 0 []) .bcEnc ∧ Meets { stream 1 blockPixels with options := 4 } .bcEnc :=
  ⟨meets_of _ _ (by decide), meets_of _ _ (by decide)⟩

theorem witness_BlockDecodeCompletes :
    Meets (stream 0 []) .bcDec ∧ Meets (stream 1 [0, 31, 248, 0, 27, 0, 0, 255]) .bcDec :=
  ⟨meets_of _ _ (by decide), meets_of _ _ (by decide)⟩

/-- A grid of several tiles, at its last place and position. -/
theorem witness_TileOrderBijection :
    1 ≤ 4 ∧ 1 ≤ 2 ∧ 8 % 4 = 0 ∧ 2 % 2 = 0 ∧ 15 < 8 * 2 ∧ placeOf 8 4 2 1 7 = 15 := by
  decide

/-- The raster of T1. -/
def squareRaster : State := tiles 4 4 2 2 1 (List.range 16)

theorem witness_TileForwardCompletes : Meets squareRaster .tileF ∧ rasterPixels squareRaster = 16 :=
  ⟨meets_of _ _ (by decide), by decide⟩

theorem witness_TileInverseCompletes : Meets squareRaster .tileI ∧ rasterPixels squareRaster = 16 :=
  ⟨meets_of _ _ (by decide), by decide⟩

/-- The state after a command, with SRC at its output and DST elsewhere. -/
def thenOn (o : Host.Outcome State Fault Refusal) (src dst : Word) : State :=
  match o with
  | .next t => { t with src := src, dst := dst, level := 0 }
  | _ => freshCore 1

theorem witness_TilerRoundTrip :
    Meets squareRaster .tileF ∧ (∃ t, exec .tileF squareRaster = .next t) ∧
    Meets (thenOn (exec .tileF squareRaster) 0x80 0xC0) .tileI ∧
    Meets squareRaster .tileI ∧ (∃ t, exec .tileI squareRaster = .next t) ∧
    Meets (thenOn (exec .tileI squareRaster) 0x80 0xC0) .tileF :=
  ⟨meets_of _ _ (by decide), leads _ (by decide), meets_of _ _ (by decide), meets_of _ _ (by decide),
    leads _ (by decide), meets_of _ _ (by decide)⟩

/-- A raster of one row, of one column and of more. -/
theorem witness_MipDownCompletes :
    Meets mipRaster .mipDown ∧ Meets (raster 1 1 [[7, 7, 7, 7]]) .mipDown ∧
      Meets (raster 1 3 (List.replicate 3 [7, 7, 7, 7])) .mipDown :=
  ⟨meets_of _ _ (by decide), meets_of _ _ (by decide), meets_of _ _ (by decide)⟩

theorem witness_MipChainCompletes :
    Meets mipRaster .mipChain ∧ Meets (raster 1 1 [[7, 7, 7, 7]]) .mipChain :=
  ⟨meets_of _ _ (by decide), meets_of _ _ (by decide)⟩

set_option maxRecDepth 4000 in
/-- A direct format with mipmaps, the block format, an index format that is strict with just enough entries. -/
theorem witness_TexEncodeCompletes :
    Meets { raster 4 4 (List.replicate 16 [255, 0, 0, 255]) with options := 1 } (.texEnc PixelFormat.rgb565.code) ∧
    Meets (raster 4 4 (List.replicate 16 [255, 0, 0, 255])) (.texEnc PixelFormat.dxt1.code) ∧
    Meets { indexRaster with palsize := 4, options := 8 } (.texEnc PixelFormat.index4.code) ∧
    coloursOf indexRaster = some 4 :=
  ⟨meets_of _ _ (by decide), meets_of _ _ (by decide), meets_of _ _ (by decide), by decide⟩

/-- One level of every kind of format, at the last position of its padded raster. -/
theorem witness_EncodedLevelLayout :
    (Config.defaultParams 256).valid = true ∧
    (rasterOf 1 1 [1, 2, 3, 4]).px.length = (rasterOf 1 1 [1, 2, 3, 4]).w * (rasterOf 1 1 [1, 2, 3, 4]).h ∧
    (∀ cap, PixelFormat.index4.cap = some cap → [Pixel.zero] ≠ [] ∧ [Pixel.zero].length ≤ cap) ∧
    3 < padDim 1 (formatTile (Config.defaultParams 256) .index4).h ∧
    7 < padDim 1 (formatTile (Config.defaultParams 256) .index4).w ∧
    3 < padDim 1 (formatTile (Config.defaultParams 256) .dxt1).w ∧
    3 < padDim 1 (formatTile (Config.defaultParams 256) .argb8888).w := by
  refine ⟨by decide, by decide, ?_, by decide, by decide, by decide, by decide⟩
  intro cap h
  have : cap = 16 := by simpa [PixelFormat.cap] using h.symm
  subst this
  decide

/-- The last level of a chain, and an index format. -/
theorem witness_TexDecodeCompletes :
    Meets lastLevel (.texDec PixelFormat.rgb565.code) ∧
    Meets { poke { freshCore 256 with dst := 0x80, width := 8, height := 4 } 0 (List.replicate 48 17) with
      level := 0 } (.texDec PixelFormat.index4.code) ∧
    Meets { poke { freshCore 256 with dst := 0x80, width := 4, height := 4 } 0 [0, 31, 248, 0, 27, 0, 0, 255] with
      level := 0 } (.texDec PixelFormat.dxt1.code) :=
  ⟨meets_of _ _ (by decide), meets_of _ _ (by decide), meets_of _ _ (by decide)⟩

/-- A level of the block format, of a 4-bit one and of a wide one. -/
theorem witness_DecodedLevelPixels :
    (Config.defaultParams 256).valid = true ∧ 1 ≤ 1 ∧
    (List.replicate 8 (0 : Byte)).length = levelBytes (Config.defaultParams 256) .dxt1 1 1 ∧
    (List.replicate 16 (0 : Byte)).length = levelBytes (Config.defaultParams 256) .index4 5 3 ∧
    (∀ cap, PixelFormat.index4.cap = some cap → (List.replicate 16 Pixel.zero).length = cap) ∧
    (List.replicate 64 (0 : Byte)).length = levelBytes (Config.defaultParams 256) .argb8888 4 4 := by
  refine ⟨by decide, by decide, by decide, by decide, ?_, by decide⟩
  intro cap h
  have : cap = 16 := by simpa [PixelFormat.cap] using h.symm
  subst this
  decide

/-- R6 allows a 1×1 tile for I4, with an odd padded raster: three pixels in two bytes (R115, Log 9). -/
def oddTiles : Params :=
  { Config.defaultParams 256 with tiles := { Config.defaultTiles with i4 := ⟨1, 1⟩ } }

theorem test_odd_tile :
    oddTiles.valid = true ∧ levelBytes oddTiles .i4 3 1 = 2 ∧
    bytesAt (exec (.texEnc 0) { raster 3 1 [[0, 0, 0, 255], [136, 136, 136, 255], [255, 255, 255, 255]] with
      params := oddTiles }) 0x80 2 = some [0x08, 0xF0] := by
  decide

/-- A raster that goes round by way of ARGB8888, with and without mipmaps. -/
def roundRaster (options : Word) : State :=
  { freshCore 1024 with
    dst := 0x100
    width := 4
    height := 4
    options := options
    mem := Memory.writeBytes [] 0 (valueBytes (List.range 64)) }

set_option maxRecDepth 4000 in
theorem witness_Argb8888RoundTrip :
    Meets (roundRaster 1) (.texEnc 6) ∧ (∃ t, exec (.texEnc 6) (roundRaster 1) = .next t) ∧
    Meets (thenOn (exec (.texEnc 6) (roundRaster 1)) 0x100 0x200) (.texDec 6) ∧
    Meets (roundRaster 0) (.texEnc 6) :=
  ⟨meets_of _ _ (by decide), leads _ (by decide), meets_of _ _ (by decide), meets_of _ _ (by decide)⟩

/-- The state in which TILE.F runs after CVT.E.RGB565. -/
def converted : State :=
  { thenOn (exec .cvtERGB565 { roundRaster 0 with dst := 0x200, count := 16 }) 0x200 0x100 with
    tilew := 4
    tileh := 4
    esize := 2 }

theorem witness_DirectEncodeDecomposes :
    directEncoding .rgb565 = some .rgb565 ∧ (roundRaster 0).optMipmaps = false ∧
    (16 : Word).toNat = rasterPixels (roundRaster 0) ∧
    Meets (roundRaster 0) (.texEnc PixelFormat.rgb565.code) ∧
    (∃ t, exec (.texEnc PixelFormat.rgb565.code) (roundRaster 0) = .next t) ∧
    Meets { roundRaster 0 with dst := 0x200, count := 16 } (converterOf .rgb565) ∧
    (∃ t, exec (converterOf .rgb565) { roundRaster 0 with dst := 0x200, count := 16 } = .next t) ∧
    formatTile (roundRaster 0).params .rgb565 = ⟨4, 4⟩ ∧ Encoding.rgb565.elementSize = 2 ∧
    Meets converted .tileF ∧ ∃ t, exec .tileF converted = .next t :=
  ⟨by decide, by decide, by decide, meets_of _ _ (by decide), leads _ (by decide), meets_of _ _ (by decide),
    leads _ (by decide), by decide, by decide, meets_of _ _ (by decide), leads _ (by decide)⟩

/-- The block format without PALFMT, and an index format with has_external_palette and the largest PALFMT. -/
theorem witness_ContainerRoundTrip :
    dimsNotTiled 4 4 (formatTile (Config.defaultParams 256) .dxt1).w
      (formatTile (Config.defaultParams 256) .dxt1).h = false ∧
    headerC1.palfmt = 0 ∧
    payloadC1.length = payloadLen (Config.defaultParams 256) .dxt1 4 4 false 0 ∧
    14 + payloadC1.length < 2 ^ 32 ∧
    dimsNotTiled 8 4 (formatTile (Config.defaultParams 256) .index4).w
      (formatTile (Config.defaultParams 256) .index4).h = false ∧
    (List.replicate 80 (0 : Byte)).length = payloadLen (Config.defaultParams 256) .index4 8 4 false 3 := by
  decide

end Sys2Proof.Tests
end

section
/-! PROOFS. Noninterference (R5, R18): the plan of a command is a function of the operand registers and the
parameters, it reads its input regions alone, and two runs of one plan on the same input bytes agree. -/

namespace Sys2Proof.Machine

/-! ### Reads and writes on two memories -/

/-- The read of the input regions depends on nothing but their bytes. -/
theorem readRegions_congr {m m' : Memory} {rs : List Region}
    (h : ∀ r ∈ rs, ∀ a, r.start ≤ a → a < r.start + r.len → m'.read a = m.read a) :
    readRegions m' rs = readRegions m rs := by
  induction rs with
  | nil => rfl
  | cons r rs ih =>
    have hr : m'.readBytes r.start r.len = m.readBytes r.start r.len :=
      readBytes_congr (h r List.mem_cons_self)
    have hrs : readRegions m' rs = readRegions m rs :=
      ih fun q hq => h q (List.mem_cons_of_mem r hq)
    simp only [readRegions, hr, hrs]

/-- From `m` to `n` and from `m'` to `n'` the same bytes were stored: each byte ends equal in both, or as it was
in both. -/
def SameBytesStored (m m' n n' : Memory) : Prop :=
  ∀ a, n'.read a = n.read a ∨ (n'.read a = m'.read a ∧ n.read a = m.read a)

theorem sameBytesStored_refl (m m' : Memory) : SameBytesStored m m' m m' :=
  fun _ => .inr ⟨rfl, rfl⟩

/-- One byte run stored in two memories: covered bytes are equal, the others are kept. -/
theorem sameBytesStored_writeBytes (m m' : Memory) (a : Nat) (bs : List Byte) :
    SameBytesStored m m' (m.writeBytes a bs) (m'.writeBytes a bs) := by
  intro x
  by_cases hx : a ≤ x ∧ x < a + bs.length
  · left; rw [read_writeBytes, read_writeBytes, if_pos hx, if_pos hx]
  · right; rw [read_writeBytes, read_writeBytes, if_neg hx, if_neg hx]; exact ⟨rfl, rfl⟩

/-- Several byte runs: a byte equal in both after the first run is equal or kept, so equal, after the rest. -/
theorem sameBytesStored_writeAll (m m' : Memory) (ws : List (Nat × List Byte)) :
    SameBytesStored m m' (m.writeAll ws) (m'.writeAll ws) := by
  induction ws generalizing m m' with
  | nil => exact sameBytesStored_refl m m'
  | cons w ws ih =>
    intro x
    rcases ih (m.writeBytes w.1 w.2) (m'.writeBytes w.1 w.2) x with hsame | ⟨hkept', hkept⟩
    · exact .inl hsame
    · simpa only [Memory.writeAll, hkept', hkept] using
        sameBytesStored_writeBytes m m' w.1 w.2 x

/-! ### Two runs of one plan -/

/-- The commands that led from `s` to `t` and from `s'` to `t'` left the same completion record and stored the
same bytes. -/
structure SameEffect (s s' t t' : State) : Prop where
  status : t'.status = t.status
  errinfo : t'.errinfo = t.errinfo
  dstlen : t'.dstlen = t.dstlen
  pallen : t'.pallen = t.pallen
  bytes : SameBytesStored s.mem s'.mem t.mem t'.mem

theorem sameEffect_takeFault (s s' : State) (f : FaultRecord) :
    SameEffect s s' (s.takeFault f) (s'.takeFault f) :=
  ⟨rfl, rfl, rfl, rfl, sameBytesStored_refl _ _⟩

theorem sameEffect_succeed (s s' : State) (r : Result) :
    SameEffect s s' ({ s with mem := s.mem.writeAll r.writes }.succeed r.dstlen r.pallen)
      ({ s' with mem := s'.mem.writeAll r.writes }.succeed r.dstlen r.pallen) :=
  ⟨rfl, rfl, rfl, rfl, sameBytesStored_writeAll _ _ _⟩

/-- One plan on two states with the same MEM_BYTES and the same bytes in the plan's input regions takes the same
branch of steps 2 to 7 of R86. -/
theorem runPlan_sameEffect {s s' t : State} {p : Plan} (hp : s'.params = s.params)
    (hins : ∀ r ∈ p.ins, ∀ a, r.start ≤ a → a < r.start + r.len → s'.mem.read a = s.mem.read a)
    (h : s.runPlan p = .next t) : ∃ t', s'.runPlan p = .next t' ∧ SameEffect s s' t t' := by
  have hread := readRegions_congr hins
  rcases runPlan_cases h with
    ⟨f, hc, rfl⟩ | ⟨hc, ha, rfl⟩ | ⟨hc, ha, bss, hb, ⟨f, hf, rfl⟩ | ⟨r, hr, rfl⟩⟩
  · exact ⟨_, runPlan_check hc, sameEffect_takeFault s s' f⟩
  · exact ⟨_, runPlan_not_admitted hc (hp ▸ ha), sameEffect_takeFault s s' _⟩
  · exact ⟨_, runPlan_error hc (hp ▸ ha) (hread.trans hb) hf, sameEffect_takeFault s s' f⟩
  · exact ⟨_, runPlan_ok hc (hp ▸ ha) (hread.trans hb) hr, sameEffect_succeed s s' r⟩

/-! ### The plan of a command -/

/-- States with the same operands differ at most in CMD, the completion record, the memory and the host's own
fields. -/
theorem eq_of_sameOperands {s s' : State} (h : SameOperands s s') :
    s' = { s with
      cmd := s'.cmd
      status := s'.status
      errinfo := s'.errinfo
      dstlen := s'.dstlen
      pallen := s'.pallen
      mem := s'.mem
      host := s'.host
      hostData := s'.hostData
      fresh := s'.fresh } := by
  cases s'
  simp only [SameOperands] at h
  simp only [h]

/-- The plan is a function of the operand registers and the parameters: no plan mentions another field. -/
theorem commandPlan_congr {s s' : State} (h : SameOperands s s') (i : Instr) :
    commandPlan s' i = commandPlan s i := by
  rw [eq_of_sameOperands h]
  cases i <;> rfl

theorem texEncPlan_ins_subset (fmt : Nat) (s : State) :
    (texEncPlan fmt s).ins ⊆ inputRegions s (.texEnc fmt) := by
  simp only [texEncPlan, inputRegions]
  cases PixelFormat.ofCode fmt with
  | none => exact List.nil_subset _
  | some f => exact List.Subset.refl _

/-- A TEX.DEC that fails its LEVEL check reads nothing; any other reads its palette block and its level. -/
theorem texDecPlan_ins_subset (fmt : Nat) (s : State) :
    (texDecPlan fmt s).ins ⊆ inputRegions s (.texDec fmt) := by
  simp only [texDecPlan, inputRegions]
  cases PixelFormat.ofCode fmt with
  | none => exact List.nil_subset _
  | some f =>
    simp only [texDecFormatPlan]
    split
    · exact List.nil_subset _
    · exact List.Subset.refl _

/-- A plan reads only the input regions the command's rule lists. -/
theorem commandPlan_ins_subset {s : State} {i : Instr} {p : Plan} (h : commandPlan s i = some p) :
    p.ins ⊆ inputRegions s i := by
  cases i
  case texEnc fmt => cases h; exact texEncPlan_ins_subset fmt s
  case texDec fmt => cases h; exact texDecPlan_ins_subset fmt s
  all_goals cases h
  all_goals exact List.Subset.refl _

/-! ### The obligation -/

/-- Two runs of one instruction on states with the same operands and the same input bytes. -/
theorem exec_sameEffect {i : Instr} {s s' t : State} (hops : SameOperands s s')
    (hins : ∀ r ∈ inputRegions s i, ∀ a, r.start ≤ a → a < r.start + r.len →
      s'.mem.read a = s.mem.read a)
    (h : exec i s = .next t) : ∃ t', exec i s' = .next t' ∧ SameEffect s s' t t' := by
  rcases exec_cases i s with ⟨rfl, _⟩ | ⟨rfl, _⟩ | ⟨p, hp, hrun⟩
  · cases h
    exact ⟨_, rfl, rfl, rfl, rfl, rfl, sameBytesStored_refl _ _⟩
  · cases h
    exact ⟨_, rfl, rfl, rfl, rfl, rfl, sameBytesStored_refl _ _⟩
  · have hp' : commandPlan s' i = some p := (commandPlan_congr hops i).trans hp
    rw [exec_eq_runPlan hp']
    exact runPlan_sameEffect hops.1 (fun r hr => hins r (commandPlan_ins_subset hp hr))
      (hrun.symm.trans h)

/-- Settles O20: both runs have the same plan, which reads only the input regions and so takes the same branch. -/
theorem dependsOnInputsOnly : Obligations.DependsOnInputsOnly := by
  intro i s s' t hops hins h
  obtain ⟨t', h', heff⟩ := exec_sameEffect hops hins h
  exact ⟨t', h', heff.status, heff.errinfo, heff.dstlen, heff.pallen, heff.bytes⟩

end Sys2Proof.Machine
end

section
/-! PROOFS. The host's accesses to the register window (R11, R12, R15, R174) and the state after reset (R19): the
window's offsets, reads after writes, and the one action a step performs. -/

namespace Sys2Proof.Machine

/-! ### The offsets of the window (R11) -/

@[simp] theorem regAt_offset (r : Reg) : regAt r.offset = some r := by cases r <;> rfl

theorem offset_of_regAt {o : Nat} {r : Reg} (h : regAt o = some r) : r.offset = o := by
  simp only [regAt] at h
  split at h <;> cases h <;> rfl

/-- The window's offsets and the registers' are one table. -/
theorem regAt_eq_some_iff {o : Nat} {r : Reg} : regAt o = some r ↔ r.offset = o :=
  ⟨offset_of_regAt, fun h => h ▸ regAt_offset r⟩

theorem offset_lt (r : Reg) : r.offset < 0x44 := by cases r <;> decide

/-- The offsets 0x44 and above are reserved. -/
theorem regAt_reserved {o : Nat} (h : 0x44 ≤ o) : regAt o = none := by
  cases hr : regAt o with
  | none => rfl
  | some r => have := offset_lt r; have := offset_of_regAt hr; omega

/-! ### Reading a register after a write (R11, R15) -/

/-- OPTIONS keeps bits 5:0 of what is written. -/
theorem optionsMask_eq (v : Word) : optionsMask v = BitVec.ofNat 32 (v.toNat % 64) := by
  have hlt : v.toNat % 64 < 2 ^ 32 := by omega
  apply BitVec.eq_of_toNat_eq
  rw [BitVec.toNat_ofNat, Nat.mod_eq_of_lt hlt]
  exact Nat.and_two_pow_sub_one_eq_mod v.toNat 6

/-- The register written: OPTIONS without its reserved bits, a read-only register as it was. -/
theorem readReg_writeReg_same (s : State) (v : Word) (r : Reg) :
    (s.writeReg v r).readReg r =
      if r.writable then (if r = .options then optionsMask v else v) else s.readReg r := by
  cases r <;> rfl

theorem readReg_writeReg_other (s : State) (v : Word) {r q : Reg} (h : q ≠ r) :
    (s.writeReg v r).readReg q = s.readReg q := by
  cases r
  all_goals
    cases q
    all_goals first
      | rfl
      | exact absurd rfl h

theorem writable_iff (r : Reg) :
    r.writable = true ↔ r ≠ .status ∧ r ≠ .errinfo ∧ r ≠ .dstlen ∧ r ≠ .pallen := by
  cases r <;> decide

@[simp] theorem writeReg_host (s : State) (v : Word) (r : Reg) : (s.writeReg v r).host = s.host := by
  cases r <;> rfl

@[simp] theorem writeReg_params (s : State) (v : Word) (r : Reg) :
    (s.writeReg v r).params = s.params := by cases r <;> rfl

@[simp] theorem writeReg_mem (s : State) (v : Word) (r : Reg) : (s.writeReg v r).mem = s.mem := by
  cases r <;> rfl

@[simp] theorem writeReg_hostData (s : State) (v : Word) (r : Reg) :
    (s.writeReg v r).hostData = s.hostData := by cases r <;> rfl

@[simp] theorem writeReg_fresh (s : State) (v : Word) (r : Reg) :
    (s.writeReg v r).fresh = s.fresh := by cases r <;> rfl

/-- A write of the window is a write of the register there, or nothing at a reserved offset. -/
theorem writeWindow_cases (s : State) (o : Nat) (v : Word) :
    (∃ r, r.offset = o ∧ s.writeWindow o v = s.writeReg v r) ∨
      ((∀ r : Reg, r.offset ≠ o) ∧ s.writeWindow o v = s) := by
  simp only [State.writeWindow]
  cases hr : regAt o with
  | some r => exact .inl ⟨r, offset_of_regAt hr, rfl⟩
  | none =>
    refine .inr ⟨fun r h => ?_, rfl⟩
    rw [← h, regAt_offset] at hr
    cases hr

/-- A write of the window touches no field but the registers. -/
theorem writeWindow_keeps (s : State) (o : Nat) (v : Word) :
    (s.writeWindow o v).host = s.host ∧ (s.writeWindow o v).params = s.params ∧
      (s.writeWindow o v).mem = s.mem ∧ (s.writeWindow o v).hostData = s.hostData ∧
      (s.writeWindow o v).fresh = s.fresh := by
  rcases writeWindow_cases s o v with ⟨r, _, hw⟩ | ⟨_, hw⟩
  · simp [hw]
  · simp [hw]

/-- What every register reads after a write of the window. -/
theorem readReg_writeWindow (s : State) (o : Nat) (v : Word) (q : Reg) :
    (s.writeWindow o v).readReg q =
      if q.offset = o ∧ q.writable = true then (if q = .options then optionsMask v else v)
      else s.readReg q := by
  rcases writeWindow_cases s o v with ⟨r, rfl, hw⟩ | ⟨hnone, hw⟩
  · rw [hw]
    by_cases hq : q = r
    · subst hq
      simp [readReg_writeReg_same]
    · have ho : q.offset ≠ r.offset := fun h =>
        hq (Option.some.inj (by rw [← regAt_offset q, h, regAt_offset]))
      rw [readReg_writeReg_other s v hq, if_neg fun h => ho h.1]
  · rw [hw, if_neg fun h => hnone q h.1]

/-- What the pending actions are is nothing a register holds. -/
@[simp] theorem readReg_host (s : State) (rest : List HostAction) (r : Reg) :
    { s with host := rest }.readReg r = s.readReg r := by cases r <;> rfl

theorem readWindow_offset (s : State) (r : Reg) : s.readWindow r.offset = s.readReg r := by
  rw [State.readWindow, regAt_offset]

theorem readWindow_reserved (s : State) {o : Nat} (h : 0x44 ≤ o) : s.readWindow o = 0 := by
  rw [State.readWindow, regAt_reserved h]

/-! ### One step (R4, R28) -/

theorem step_idle {s : State} (h : s.host = []) : step s = .next s := by
  simp only [step, nextAction, h]

theorem step_of_host {s : State} {a : HostAction} {rest : List HostAction} (h : s.host = a :: rest) :
    step s = hostAction a { s with host := rest } := by
  simp only [step, nextAction, h]

/-- A step that answers a next state: nothing pending and nothing done, or the first pending action. -/
theorem step_cases {s t : State} (h : step s = .next t) :
    (s.host = [] ∧ t = s) ∨
      ∃ a rest, s.host = a :: rest ∧ hostAction a { s with host := rest } = .next t := by
  cases hh : s.host with
  | nil => rw [step_idle hh] at h; cases h; exact .inl ⟨rfl, rfl⟩
  | cons a rest => exact .inr ⟨a, rest, rfl, (step_of_host hh).symm.trans h⟩

theorem wholeWord_iff (width : AccessWidth) (o : Nat) :
    wholeWord width o = true ↔ width = .word ∧ o % 4 = 0 := by
  simp [wholeWord]

theorem wholeWord_eq_false {width : AccessWidth} {o : Nat} (h : width ≠ .word ∨ o % 4 ≠ 0) :
    wholeWord width o = false := by
  rw [← Bool.not_eq_true, wholeWord_iff]
  tauto

theorem hostWriteReg_cmd (s : State) (v : Word) (hb : s.busy = false) :
    hostWriteReg .word 0 v s = startCommand v s := by
  simp [hostWriteReg, wholeWord, hb]

theorem hostWriteReg_window {s : State} {o : Nat} (v : Word) (hb : s.busy = false)
    (h4 : o % 4 = 0) (h0 : o ≠ 0) : hostWriteReg .word o v s = .next (s.writeWindow o v) := by
  simp [hostWriteReg, (wholeWord_iff .word o).2 ⟨rfl, h4⟩, hb, h0]

theorem hostWriteReg_busy {s : State} {o : Nat} (v : Word) (hb : s.busy = true)
    (h4 : o % 4 = 0) : hostWriteReg .word o v s = .refused .hostAccessWhileBusy := by
  simp [hostWriteReg, (wholeWord_iff .word o).2 ⟨rfl, h4⟩, hb]

theorem hostWriteReg_not_word {width : AccessWidth} {o : Nat} (v : Word) (s : State)
    (h : width ≠ .word ∨ o % 4 ≠ 0) : hostWriteReg width o v s = .refused .notAWordAccess := by
  simp [hostWriteReg, wholeWord_eq_false h]

theorem hostReadReg_word (s : State) {o : Nat} (h4 : o % 4 = 0) :
    hostReadReg .word o s = .next { s with hostData := s.readWindow o } := by
  simp [hostReadReg, (wholeWord_iff .word o).2 ⟨rfl, h4⟩]

theorem hostReadReg_not_word {width : AccessWidth} {o : Nat} (s : State)
    (h : width ≠ .word ∨ o % 4 ≠ 0) : hostReadReg width o s = .refused .notAWordAccess := by
  simp [hostReadReg, wholeWord_eq_false h]

theorem hostStore_busy {s : State} (a : Nat) (bs : List Byte) (hb : s.busy = true) :
    hostStore a bs s = .refused .hostAccessWhileBusy := by
  simp [hostStore, hb]

theorem hostLoad_busy {s : State} (a : Nat) (hb : s.busy = true) :
    hostLoad a s = .refused .hostAccessWhileBusy := by
  simp [hostLoad, hb]

theorem startCommand_decoded {w : Word} {i : Instr} (s : State) (h : decode w = .ok i) :
    startCommand w s = exec i { s with cmd := w } := by
  simp only [startCommand, h]

/-! ### The obligations -/

/-- Settles O5: the action is a whole-word write at offset 0, and `startCommand` runs the decoded word. -/
theorem stepRunsDecodedCommand : Obligations.StepRunsDecodedCommand := by
  intro s w i rest hhost hbusy hdec _
  calc step s = hostAction (goWord w) { s with host := rest } := step_of_host hhost
    _ = startCommand w { s with host := rest } := hostWriteReg_cmd { s with host := rest } w hbusy
    _ = exec i { s with cmd := w, host := rest } := startCommand_decoded _ hdec

/-- Settles O6: the step is `writeWindow`, and `readReg_writeWindow` says what each register reads after it. -/
theorem windowWriteEffect : Obligations.WindowWriteEffect := by
  intro s o v rest hhost hbusy h4 h0
  refine ⟨_, (step_of_host hhost).trans (hostWriteReg_window v hbusy h4 h0), ?_⟩
  obtain ⟨hh, hparams, hmem, hdata, hfresh⟩ := writeWindow_keeps { s with host := rest } o v
  refine ⟨hh, hparams, hmem, hdata, hfresh, fun r => ?_⟩
  rw [readReg_writeWindow, readReg_host, optionsMask_eq]
  simp only [writable_iff]

/-- Settles O7: the step is the read of `readWindow`, which is the register at the offset or 0. -/
theorem windowReadEffect : Obligations.WindowReadEffect := by
  intro s o rest hhost h4
  refine ⟨_, (step_of_host hhost).trans (hostReadReg_word _ h4), ?_, readWindow_reserved _⟩
  rintro r rfl
  rw [readWindow_offset, readReg_host]

/-- Settles O8: each refusal is the first test its access makes. -/
theorem undefinedAccessRefused : Obligations.UndefinedAccessRefused := by
  intro s rest
  refine ⟨fun width o v hw => ⟨fun hhost => ?_, fun hhost => ?_⟩,
    fun hbusy o a v bs => ⟨fun h4 hhost => ?_, fun hhost => ?_, fun hhost => ?_⟩⟩
  all_goals rw [step_of_host hhost]
  · exact hostWriteReg_not_word v _ hw
  · exact hostReadReg_not_word _ hw
  · exact hostWriteReg_busy v hbusy h4
  · exact hostStore_busy a bs hbusy
  · exact hostLoad_busy a hbusy

/-- Settles O10: every field of the reset state is written out, and an idle host leaves the state alone. -/
theorem resetState : Obligations.ResetState :=
  ⟨fun r => by cases r <;> rfl, read_nil, fun _ => step_idle⟩

end Sys2Proof.Machine
end

section
/-! PROOFS. The invariant (R13 to R16, R20, R151, R160): what a command may change (R11), which faults it may raise
(R152), and that every action of the host keeps the parameters, the memory and the completion record legal. -/

namespace Sys2Proof.Machine

/-! ### What a command leaves unchanged (R11) -/

theorem registersKept_takeFault (s : State) (f : FaultRecord) : RegistersKept s (s.takeFault f) := rfl

theorem registersKept_succeed (s : State) (r : Result) :
    RegistersKept s ({ s with mem := s.mem.writeAll r.writes }.succeed r.dstlen r.pallen) := rfl

theorem runPlan_registersKept {s t : State} {p : Plan} (h : s.runPlan p = .next t) :
    RegistersKept s t := by
  rcases runPlan_cases h with
    ⟨f, _, rfl⟩ | ⟨_, _, rfl⟩ | ⟨_, _, _, _, ⟨f, _, rfl⟩ | ⟨r, _, rfl⟩⟩
  · exact registersKept_takeFault s f
  · exact registersKept_takeFault s _
  · exact registersKept_takeFault s f
  · exact registersKept_succeed s r

theorem exec_registersKept {i : Instr} {s t : State} (h : exec i s = .next t) : RegistersKept s t := by
  rcases exec_cases i s with ⟨_, he⟩ | ⟨_, he⟩ | ⟨p, _, he⟩ <;> rw [he] at h
  · cases h; rfl
  · cases h; rfl
  · exact runPlan_registersKept h

theorem RegistersKept.params {s t : State} (h : RegistersKept s t) : t.params = s.params :=
  (congrArg State.params h).trans rfl

theorem RegistersKept.options {s t : State} (h : RegistersKept s t) : t.options = s.options :=
  (congrArg State.options h).trans rfl

/-- Settles O16: NOP and SRESET write the record alone, and so do the two ends of a plan, but for the memory. -/
theorem commandsKeepHostRegisters : Obligations.CommandsKeepHostRegisters :=
  fun _ _ _ => exec_registersKept

/-! ### The completion record (R13, R14, R16) -/

theorem statusWord_done (done busy : Bool) (err : BitVec 4) :
    (statusWord done busy err).getLsbD 0 = done := by revert done busy err; decide

theorem statusWord_busy (done busy : Bool) (err : BitVec 4) :
    (statusWord done busy err).getLsbD 1 = busy := by revert done busy err; decide

theorem statusWord_err (done busy : Bool) (err : BitVec 4) :
    (statusWord done busy err).extractLsb' 4 4 = err := by revert done busy err; decide

theorem statusWord_reserved (done busy : Bool) (err : BitVec 4) :
    statusWord done busy err &&& 0xFFFFFF0C = 0 := by revert done busy err; decide

/-- The part of the invariant that speaks of STATUS, ERRINFO, DSTLEN and PALLEN. -/
structure RecordLegal (s : State) : Prop where
  statusReserved : s.status &&& 0xFFFFFF0C = 0
  notBusy : s.busy = false
  errLegal : s.err.toNat ≤ 7 ∧ s.err ≠ 1
  recordEmpty : s.done = false → s.status = 0 ∧ s.errinfo = 0 ∧ s.dstlen = 0 ∧ s.pallen = 0
  successInfo : s.err = 0 → s.errinfo = 0
  faultLengths : s.err ≠ 0 → s.dstlen = 0 ∧ s.pallen = 0

/-- The part of the invariant that speaks of the parameters, the memory and OPTIONS. -/
structure StorageLegal (s : State) : Prop where
  paramsValid : s.params.valid = true
  memSorted : s.mem.wf
  memWithin : s.mem.within s.params.memBytes
  optionsReserved : s.options &&& 0xFFFFFFC0 = 0

theorem inv_iff (s : State) : Inv s ↔ StorageLegal s ∧ RecordLegal s :=
  ⟨fun h => ⟨⟨h.paramsValid, h.memSorted, h.memWithin, h.optionsReserved⟩,
      ⟨h.statusReserved, h.notBusy, h.errLegal, h.recordEmpty, h.successInfo, h.faultLengths⟩⟩,
    fun ⟨h, r⟩ => ⟨h.paramsValid, h.memSorted, h.memWithin, r.statusReserved, r.notBusy, r.errLegal,
      h.optionsReserved, r.recordEmpty, r.successInfo, r.faultLengths⟩⟩

/-- The record is legal or not by its four registers alone. -/
theorem RecordLegal.congr {s t : State} (h : RecordLegal s) (hstatus : t.status = s.status)
    (hinfo : t.errinfo = s.errinfo) (hdst : t.dstlen = s.dstlen) (hpal : t.pallen = s.pallen) :
    RecordLegal t := by
  obtain ⟨hreserved, hbusy, herr, hempty, hsuccess, hfault⟩ := h
  constructor <;> simp only [State.busy, State.err, State.done, hstatus, hinfo, hdst, hpal]
  · exact hreserved
  · exact hbusy
  · exact herr
  · exact hempty
  · exact hsuccess
  · exact hfault

theorem recordLegal_cleared {s : State} (hstatus : s.status = 0) (hinfo : s.errinfo = 0)
    (hdst : s.dstlen = 0) (hpal : s.pallen = 0) : RecordLegal s where
  statusReserved := by rw [hstatus]; decide
  notBusy := by rw [State.busy, hstatus]; decide
  errLegal := by rw [State.err, hstatus]; decide
  recordEmpty _ := ⟨hstatus, hinfo, hdst, hpal⟩
  successInfo _ := hinfo
  faultLengths _ := ⟨hdst, hpal⟩

theorem succeed_err (s : State) (m n : Nat) : (s.succeed m n).err = 0 := statusWord_err _ _ _

theorem succeed_done (s : State) (m n : Nat) : (s.succeed m n).done = true := statusWord_done _ _ _

theorem takeFault_err (s : State) (f : FaultRecord) : (s.takeFault f).err = f.err.code :=
  statusWord_err _ _ _

theorem takeFault_done (s : State) (f : FaultRecord) : (s.takeFault f).done = true :=
  statusWord_done _ _ _

theorem recordLegal_succeed (s : State) (m n : Nat) : RecordLegal (s.succeed m n) where
  statusReserved := statusWord_reserved _ _ _
  notBusy := statusWord_busy _ _ _
  errLegal := by rw [succeed_err]; decide
  recordEmpty h := absurd h (by simp [succeed_done])
  successInfo _ := rfl
  faultLengths h := absurd (succeed_err s m n) h

/-- A fault the core may raise: CorruptHeader is the host's reader's (R152). -/
def CoreFault (f : FaultRecord) : Prop := f.err ≠ .corruptHeader

theorem code_legal {e : ErrCode} (h : e ≠ .corruptHeader) :
    e.code.toNat ≤ 7 ∧ e.code ≠ 1 ∧ e.code ≠ 0 := by
  cases e
  case corruptHeader => exact absurd rfl h
  all_goals decide

theorem recordLegal_takeFault (s : State) {f : FaultRecord} (hf : CoreFault f) :
    RecordLegal (s.takeFault f) := by
  obtain ⟨hle, hne1, hne0⟩ := code_legal hf
  exact
    { statusReserved := statusWord_reserved _ _ _
      notBusy := statusWord_busy _ _ _
      errLegal := by rw [takeFault_err]; exact ⟨hle, hne1⟩
      recordEmpty := fun h => absurd h (by simp [takeFault_done])
      successInfo := fun h => absurd ((takeFault_err s f).symm.trans h) hne0
      faultLengths := fun _ => ⟨rfl, rfl⟩ }

/-! ### Which faults a plan raises (R151, R152) -/

/-- Neither a register check nor the computation of a plan raises CorruptHeader. -/
structure RaisesCoreFaults (p : Plan) : Prop where
  check : ∀ f, p.check = some f → CoreFault f
  compute : ∀ bss f, p.compute bss = .error f → CoreFault f

theorem coreFault_badOperand : CoreFault badOperand := nofun

theorem coreFault_badDimensions : CoreFault badDimensions := nofun

theorem coreFault_unknownFormat (fmt : Nat) : CoreFault (unknownFormat fmt) := nofun

theorem coreFault_illegalCommand (w : Word) : CoreFault (illegalCommand w) := nofun

theorem firstFault_coreFault {l : List (Bool × FaultRecord)} (hl : ∀ e ∈ l, CoreFault e.2)
    {f : FaultRecord} (h : firstFault l = some f) : CoreFault f := by
  induction l with
  | nil => cases h
  | cons e l ih =>
    rw [firstFault_cons] at h
    split at h
    · cases h; exact hl e List.mem_cons_self
    · exact ih (fun q hq => hl q (List.mem_cons_of_mem e hq)) h

/-- The one register check of a command: its dimensions. -/
theorem dimensionCheck_coreFault {b : Bool} {f : FaultRecord}
    (h : firstFault [(b, badDimensions)] = some f) : CoreFault f :=
  firstFault_coreFault (by simp [coreFault_badDimensions]) h

/-- The one register check of a command: an operand. -/
theorem operandCheck_coreFault {b : Bool} {f : FaultRecord}
    (h : firstFault [(b, badOperand)] = some f) : CoreFault f :=
  firstFault_coreFault (by simp [coreFault_badOperand]) h

/-- The two register checks of a command: an operand, then the dimensions (R86, R159). -/
theorem operandDimensionCheck_coreFault {b c : Bool} {f : FaultRecord}
    (h : firstFault [(b, badOperand), (c, badDimensions)] = some f) : CoreFault f :=
  firstFault_coreFault (by simp [coreFault_badOperand, coreFault_badDimensions]) h

theorem buildPalette_coreFault {px : List Pixel} {k : Nat} {strict : Bool} {f : FaultRecord}
    (h : buildPalette px k strict = .error f) : CoreFault f := by
  simp only [buildPalette] at h
  split at h
  · cases h
  · split at h
    · cases h; exact nofun
    · cases h

theorem encodePalette_coreFault {s : State} {f : PixelFormat} {base : Raster} {e : FaultRecord}
    (h : encodePalette s f base = .error e) : CoreFault e := by
  simp only [encodePalette] at h
  split at h
  · exact buildPalette_coreFault h
  · cases h

theorem streamPlan_raises (s : State) (m n : Nat) (f : List Byte → List Byte) :
    RaisesCoreFaults (streamPlan s m n f) := ⟨nofun, nofun⟩

theorem faulting_raises {f : FaultRecord} (hf : CoreFault f) : RaisesCoreFaults (Plan.faulting f) where
  check _ h := by cases h; exact hf
  compute _ _ h := by cases h; exact hf

theorem quantPlan_raises (s : State) : RaisesCoreFaults (quantPlan s) where
  check _ h := operandDimensionCheck_coreFault h
  compute bss f h := by
    simp only [quantPlan] at h
    split at h
    · rename_i e he
      cases h
      exact buildPalette_coreFault he
    · cases h

theorem qmapPlan_raises (s : State) : RaisesCoreFaults (qmapPlan s) where
  check _ h := operandDimensionCheck_coreFault h
  compute := nofun

theorem plutPlan_raises (s : State) : RaisesCoreFaults (plutPlan s) where
  check _ h := operandCheck_coreFault h
  compute bss f h := by
    simp only [plutPlan] at h
    split at h
    · cases h
    · cases h; exact coreFault_badOperand

theorem tilerPlan_raises (s : State) (move : List (List Byte) → List (List Byte)) :
    RaisesCoreFaults (tilerPlan s move) where
  check _ h := operandDimensionCheck_coreFault h
  compute := nofun

theorem mipDownPlan_raises (s : State) : RaisesCoreFaults (mipDownPlan s) where
  check _ h := dimensionCheck_coreFault h
  compute := nofun

theorem mipChainPlan_raises (s : State) : RaisesCoreFaults (mipChainPlan s) where
  check _ h := dimensionCheck_coreFault h
  compute := nofun

theorem texEncPlan_raises (fmt : Nat) (s : State) : RaisesCoreFaults (texEncPlan fmt s) := by
  rw [texEncPlan]
  split
  · rename_i f _
    refine ⟨fun _ h => operandDimensionCheck_coreFault h, fun bss e h => ?_⟩
    simp only [texEncFormatPlan] at h
    split at h
    · rename_i e' he
      cases h
      exact encodePalette_coreFault he
    · cases h
  · exact faulting_raises (coreFault_unknownFormat fmt)

theorem texDecPlan_raises (fmt : Nat) (s : State) : RaisesCoreFaults (texDecPlan fmt s) := by
  rw [texDecPlan]
  split
  · rw [texDecFormatPlan]
    split
    · exact faulting_raises coreFault_badOperand
    · exact ⟨fun _ h => dimensionCheck_coreFault h, nofun⟩
  · exact faulting_raises (coreFault_unknownFormat fmt)

/-- No command's plan raises CorruptHeader. -/
theorem commandPlan_raises {s : State} {i : Instr} {p : Plan} (h : commandPlan s i = some p) :
    RaisesCoreFaults p := by
  cases i <;> cases h
  case quant => exact quantPlan_raises s
  case qmap => exact qmapPlan_raises s
  case plut => exact plutPlan_raises s
  case tileF => exact tilerPlan_raises s _
  case tileI => exact tilerPlan_raises s _
  case mipDown => exact mipDownPlan_raises s
  case mipChain => exact mipChainPlan_raises s
  case texEnc fmt => exact texEncPlan_raises fmt s
  case texDec fmt => exact texDecPlan_raises fmt s
  all_goals exact streamPlan_raises s _ _ _

theorem runPlan_recordLegal {s t : State} {p : Plan} (hp : RaisesCoreFaults p)
    (h : s.runPlan p = .next t) : RecordLegal t := by
  rcases runPlan_cases h with
    ⟨f, hf, rfl⟩ | ⟨_, _, rfl⟩ | ⟨_, _, bss, _, ⟨f, hf, rfl⟩ | ⟨r, _, rfl⟩⟩
  · exact recordLegal_takeFault s (hp.check f hf)
  · exact recordLegal_takeFault s nofun
  · exact recordLegal_takeFault s (hp.compute bss f hf)
  · exact recordLegal_succeed _ _ _

/-! ### A command keeps the invariant -/

/-- Whatever the record before it, a command leaves a legal one. -/
theorem exec_recordLegal {i : Instr} {s t : State} (h : exec i s = .next t) : RecordLegal t := by
  rcases exec_cases i s with ⟨_, he⟩ | ⟨_, he⟩ | ⟨p, hp, he⟩ <;> rw [he] at h
  · cases h; exact recordLegal_succeed s 0 0
  · cases h; exact recordLegal_cleared rfl rfl rfl rfl
  · exact runPlan_recordLegal (commandPlan_raises hp) h

/-- A command stores inside its admitted output regions, so inside the memory (R20, R26). -/
theorem exec_memory {i : Instr} {s t : State} (hs : StorageLegal s) (h : exec i s = .next t) :
    t.mem.wf ∧ t.mem.within t.params.memBytes := by
  rcases exec_cases i s with ⟨_, he⟩ | ⟨_, he⟩ | ⟨p, hp, he⟩ <;> rw [he] at h
  · cases h; exact ⟨hs.memSorted, hs.memWithin⟩
  · cases h; exact ⟨hs.memSorted, hs.memWithin⟩
  · exact ⟨runPlan_wf hs.memSorted h, runPlan_within (commandPlan_writesInside hp) hs.memWithin h⟩

theorem exec_inv {i : Instr} {s t : State} (hs : StorageLegal s) (h : exec i s = .next t) : Inv t := by
  have hkept := exec_registersKept h
  obtain ⟨hwf, hwithin⟩ := exec_memory hs h
  refine (inv_iff t).2 ⟨⟨?_, hwf, hwithin, ?_⟩, exec_recordLegal h⟩
  · rw [hkept.params]; exact hs.paramsValid
  · rw [hkept.options]; exact hs.optionsReserved

/-- A command word, legal or not, leads to a state that meets the invariant. -/
theorem startCommand_inv {w : Word} {s t : State} (hs : StorageLegal s)
    (h : startCommand w s = .next t) : Inv t := by
  obtain ⟨hvalid, hwf, hwithin, hoptions⟩ := hs
  simp only [startCommand] at h
  split at h
  · cases h
    exact (inv_iff _).2 ⟨⟨hvalid, hwf, hwithin, hoptions⟩,
      recordLegal_takeFault _ (coreFault_illegalCommand w)⟩
  · exact exec_inv (s := { s with cmd := w }) ⟨hvalid, hwf, hwithin, hoptions⟩ h

/-! ### A command cut by a reset (R172) -/

@[simp] theorem freeRegions_params (s : State) (rs : List Region) :
    (s.freeRegions rs).params = s.params := by
  induction rs generalizing s with
  | nil => rfl
  | cons r rs ih => rw [State.freeRegions, ih, freeBytes_params]

theorem freeBytes_mem (s : State) (a n : Nat) :
    (s.freeBytes a n).mem =
      s.mem.writeBytes a ((List.range n).map fun i => Config.freeByte (s.fresh + i)) := rfl

theorem freeRegions_wf {s : State} (h : s.mem.wf) (rs : List Region) : (s.freeRegions rs).mem.wf := by
  induction rs generalizing s with
  | nil => exact h
  | cons r rs ih => exact ih (by rw [freeBytes_mem]; exact wf_writeBytes h _ _)

theorem freeRegions_within {s : State} {n : Nat} (h : s.mem.within n) {rs : List Region}
    (hr : ∀ r ∈ rs, r.inside n = true) : (s.freeRegions rs).mem.within n := by
  induction rs generalizing s with
  | nil => exact h
  | cons r rs ih =>
    refine ih ?_ fun q hq => hr q (List.mem_cons_of_mem r hq)
    rw [freeBytes_mem]
    refine within_writeBytes h ?_
    rcases (inside_iff r n).1 (hr r List.mem_cons_self) with h0 | hin
    · left; simp [h0]
    · right; simpa using hin

/-- The output regions a command holds have been admitted. -/
theorem heldRegions_inside {w : Word} {s : State} :
    ∀ r ∈ heldRegions w s, r.inside s.params.memBytes = true := by
  intro r hr
  simp only [heldRegions] at hr
  split at hr
  · cases hr
  · split at hr
    · cases hr
    · rename_i p _
      simp only [Plan.outputsHeld] at hr
      split at hr
      · cases hr
      · split at hr
        · rename_i ha
          exact ((admitted_iff _ _ _).1 ha).2.1 r hr
        · cases hr

/-- A hardware reset needs only the parameters and the memory to be legal. -/
theorem hardwareReset_inv {s : State} (hvalid : s.params.valid = true) (hwf : s.mem.wf)
    (hwithin : s.mem.within s.params.memBytes) : Inv s.hardwareReset :=
  (inv_iff _).2 ⟨⟨hvalid, hwf, hwithin, by rw [hardwareReset_options]; decide⟩,
    recordLegal_cleared rfl rfl rfl rfl⟩

theorem cutCommand_inv {w : Word} {s : State} (hs : StorageLegal s) : Inv (cutCommand w s) := by
  refine hardwareReset_inv ?_ (freeRegions_wf hs.memSorted _) ?_
  · rw [freeRegions_params]; exact hs.paramsValid
  · rw [freeRegions_params]; exact freeRegions_within hs.memWithin heldRegions_inside

/-! ### The actions of the host -/

theorem optionsMask_reserved (v : Word) : optionsMask v &&& 0xFFFFFFC0 = 0 := by
  have hbits : (0x3F : Word) &&& 0xFFFFFFC0 = 0 := by decide
  rw [optionsMask, BitVec.and_assoc, hbits]
  exact BitVec.and_zero

theorem writeWindow_readOnly (s : State) (o : Nat) (v : Word) {q : Reg} (h : q.writable = false) :
    (s.writeWindow o v).readReg q = s.readReg q := by
  simp [readReg_writeWindow, h]

theorem writeWindow_options (s : State) (o : Nat) (v : Word) :
    (s.writeWindow o v).options = optionsMask v ∨ (s.writeWindow o v).options = s.options := by
  have hread := readReg_writeWindow s o v .options
  split at hread
  · exact .inl hread
  · exact .inr hread

theorem writeWindow_inv {s : State} (h : Inv s) (o : Nat) (v : Word) : Inv (s.writeWindow o v) := by
  obtain ⟨hstore, hrecord⟩ := (inv_iff s).1 h
  obtain ⟨_, hparams, hmem, _, _⟩ := writeWindow_keeps s o v
  refine (inv_iff _).2 ⟨⟨?_, ?_, ?_, ?_⟩, hrecord.congr ?_ ?_ ?_ ?_⟩
  · rw [hparams]; exact hstore.paramsValid
  · rw [hmem]; exact hstore.memSorted
  · rw [hmem, hparams]; exact hstore.memWithin
  · rcases writeWindow_options s o v with hopt | hopt <;> rw [hopt]
    · exact optionsMask_reserved v
    · exact hstore.optionsReserved
  · exact writeWindow_readOnly s o v (q := .status) rfl
  · exact writeWindow_readOnly s o v (q := .errinfo) rfl
  · exact writeWindow_readOnly s o v (q := .dstlen) rfl
  · exact writeWindow_readOnly s o v (q := .pallen) rfl

/-- The model's own fields that stand for the host are no part of the invariant. -/
theorem inv_host {s : State} (h : Inv s) (rest : List HostAction) : Inv { s with host := rest } := by
  obtain ⟨⟨hvalid, hwf, hwithin, hoptions⟩, hrecord⟩ := (inv_iff s).1 h
  exact (inv_iff _).2 ⟨⟨hvalid, hwf, hwithin, hoptions⟩, hrecord.congr rfl rfl rfl rfl⟩

theorem inv_hostData {s : State} (h : Inv s) (d : Word) : Inv { s with hostData := d } := by
  obtain ⟨⟨hvalid, hwf, hwithin, hoptions⟩, hrecord⟩ := (inv_iff s).1 h
  exact (inv_iff _).2 ⟨⟨hvalid, hwf, hwithin, hoptions⟩, hrecord.congr rfl rfl rfl rfl⟩

theorem hostWriteReg_inv {width : AccessWidth} {o : Nat} {v : Word} {s t : State} (hs : Inv s)
    (h : hostWriteReg width o v s = .next t) : Inv t := by
  simp only [hostWriteReg] at h
  split at h
  · split at h
    · cases h
    · split at h
      · exact startCommand_inv ((inv_iff s).1 hs).1 h
      · cases h; exact writeWindow_inv hs o v
  · cases h

theorem hostReadReg_inv {width : AccessWidth} {o : Nat} {s t : State} (hs : Inv s)
    (h : hostReadReg width o s = .next t) : Inv t := by
  simp only [hostReadReg] at h
  split at h
  · cases h; exact inv_hostData hs _
  · cases h

theorem addressesExist_iff (memBytes a n : Nat) :
    addressesExist memBytes a n = true ↔ n = 0 ∨ a + n ≤ memBytes := by
  simp [addressesExist]

theorem hostStore_inv {a : Nat} {bs : List Byte} {s t : State} (hs : Inv s)
    (h : hostStore a bs s = .next t) : Inv t := by
  simp only [hostStore] at h
  split at h
  · cases h
  · split at h
    · rename_i ha
      cases h
      obtain ⟨⟨hvalid, hwf, hwithin, hoptions⟩, hrecord⟩ := (inv_iff s).1 hs
      have hin : bs = [] ∨ a + bs.length ≤ s.params.memBytes := by
        simpa using (addressesExist_iff _ _ _).1 ha
      exact (inv_iff _).2 ⟨⟨hvalid, wf_writeBytes hwf a bs, within_writeBytes hwithin hin, hoptions⟩,
        hrecord.congr rfl rfl rfl rfl⟩
    · cases h

theorem hostLoad_inv {a : Nat} {s t : State} (hs : Inv s) (h : hostLoad a s = .next t) : Inv t := by
  simp only [hostLoad] at h
  split at h
  · cases h
  · split at h
    · split at h
      · cases h
      · cases h; exact inv_hostData hs _
    · cases h

theorem hostCut_inv {w : Word} {s t : State} (hs : Inv s) (h : hostCut w s = .next t) : Inv t := by
  simp only [hostCut] at h
  split at h
  · cases h
  · cases h; exact cutCommand_inv ((inv_iff s).1 hs).1

theorem hostAction_inv {a : HostAction} {s t : State} (hs : Inv s) (h : hostAction a s = .next t) :
    Inv t := by
  cases a with
  | writeReg width o v => exact hostWriteReg_inv hs h
  | readReg width o => exact hostReadReg_inv hs h
  | storeMem a bs => exact hostStore_inv hs h
  | loadMem a => exact hostLoad_inv hs h
  | reset => cases h; exact hardwareReset_inv hs.paramsValid hs.memSorted hs.memWithin
  | cutByReset w => exact hostCut_inv hs h

/-! ### The obligations -/

/-- MEM_BYTES is one of 1 to 2^32 whatever the free value is, and R6's defaults meet its constraints. -/
theorem defaultParams_valid : (Config.defaultParams Config.memBytes).valid = true := by
  have hlt := Config.memShortfall.isLt
  have hmem : 1 ≤ Config.memBytes ∧ Config.memBytes ≤ 2 ^ 32 := by
    rw [Config.memBytes]; omega
  simp only [Params.valid, Bool.and_eq_true, decide_eq_true_eq]
  simpa [Config.defaultParams, Config.defaultTiles, Tile.positive] using hmem

/-- Settles O13: the memory is empty, the registers 0, and the parameters R6's defaults. -/
theorem invariantAtReset : Obligations.InvariantAtReset :=
  (inv_iff _).2 ⟨⟨defaultParams_valid, List.Pairwise.nil, nofun, by decide⟩,
    recordLegal_cleared rfl rfl rfl rfl⟩

/-- Settles O14: an idle step changes nothing, and each action of the host keeps the invariant. -/
theorem invariantStep : Obligations.InvariantStep := by
  intro s t hs h
  rcases step_cases h with ⟨_, rfl⟩ | ⟨a, rest, _, ha⟩
  · exact hs
  · exact hostAction_inv (inv_host hs rest) ha

end Sys2Proof.Machine
end

section
/-! PROOFS. Region admission byte by byte (R26), what a command that passes its checks runs (R86), and the host's own
accesses to the buffer memory (R20, R27). -/

namespace Sys2Proof.Machine

/-! ### Region admission (R26) -/

/-- The byte at `a` lies in the region. -/
def Region.Covers (r : Region) (a : Nat) : Prop := r.start ≤ a ∧ a < r.start + r.len

/-- The test by the ends of two regions says that they have no byte in common. -/
theorem disjoint_iff_no_common_byte (r q : Region) :
    r.disjoint q = true ↔ ∀ a, ¬ (r.Covers a ∧ q.Covers a) := by
  simp only [disjoint_iff, Region.Covers]
  constructor
  · intro h a ha
    omega
  · intro h
    -- the larger of the two starts is the first byte they could share
    have hmax := h (max r.start q.start)
    omega

/-- Pairwise, by the positions of a list. -/
theorem pairwise_iff_getElem? {α : Type} {R : α → α → Prop} {l : List α} :
    l.Pairwise R ↔ ∀ (j k : Nat) (x y : α), j < k → l[j]? = some x → l[k]? = some y → R x y := by
  rw [List.pairwise_iff_getElem]
  constructor
  · intro h j k x y hjk hx hy
    obtain ⟨hj, rfl⟩ := List.getElem?_eq_some_iff.1 hx
    obtain ⟨hk, rfl⟩ := List.getElem?_eq_some_iff.1 hy
    exact h j k hj hk hjk
  · intro h j k hj hk hjk
    exact h j k _ _ hjk (List.getElem?_eq_getElem hj) (List.getElem?_eq_getElem hk)

theorem inside_iff_ne_zero (r : Region) (n : Nat) :
    r.inside n = true ↔ (r.len ≠ 0 → r.start + r.len ≤ n) := by
  rw [inside_iff, or_iff_not_imp_left]

/-- Settles O21: `admitted_iff` says it by the ends of the regions, `disjoint_iff_no_common_byte` byte by byte. -/
theorem admissionRule : Obligations.AdmissionRule := by
  intro memBytes ins outs
  simp only [admitted_iff, inside_iff_ne_zero, disjoint_iff_no_common_byte, pairwise_iff_getElem?,
    List.forall_mem_append, Region.Covers, and_assoc]

/-! ### The checks and regions of a command's plan (R86, R159) -/

/-- The register checks of a command as its rule lists them: format, operand registers, dimensions. -/
def registerChecks (s : State) (i : Instr) : List (Bool × FaultRecord) :=
  [(formatUnknown i, unknownFormat i.fmtField), (operandIllegal s i, badOperand),
    (dimensionsIllegal s i, badDimensions)]

theorem tilerCheck_eq (s : State) : tilerCheck s = firstFault (registerChecks s .tileF) := by
  have hesize : ∀ a b c : Bool, (!a && !b && !c) = !(a || b || c) := by decide
  simp only [tilerCheck, registerChecks, operandIllegal, bne, hesize]
  rfl

theorem texEncPlan_check (fmt : Nat) (s : State) :
    (texEncPlan fmt s).check = firstFault (registerChecks s (.texEnc fmt)) := by
  simp only [texEncPlan, registerChecks, formatUnknown, operandIllegal, dimensionsIllegal]
  cases PixelFormat.ofCode fmt with
  | none => rfl
  | some f => cases f <;> rfl

/-- A level the chain does not have is an operand fault; the dimensions are checked only past it. -/
theorem texDecPlan_check (fmt : Nat) (s : State) :
    (texDecPlan fmt s).check = firstFault (registerChecks s (.texDec fmt)) := by
  simp only [texDecPlan, registerChecks, formatUnknown, operandIllegal, dimensionsIllegal]
  cases PixelFormat.ofCode fmt with
  | none => rfl
  | some f =>
    by_cases hlevel : levelCount s.width.toNat s.height.toNat s.optMipmaps ≤ s.level.toNat
    · simp only [texDecFormatPlan, State.widthVal, State.heightVal, hlevel, if_true, decide_true]
      rfl
    · simp only [texDecFormatPlan, State.widthVal, State.heightVal, hlevel, if_false, decide_false]
      rfl

/-- Every plan checks what the command's rule lists, in its order. -/
theorem commandPlan_check {s : State} {i : Instr} {p : Plan} (h : commandPlan s i = some p) :
    p.check = firstFault (registerChecks s i) := by
  cases i <;> cases h
  case tileF => exact tilerCheck_eq s
  case tileI => exact tilerCheck_eq s
  case texEnc fmt => exact texEncPlan_check fmt s
  case texDec fmt => exact texDecPlan_check fmt s
  all_goals rfl

/-- Every plan whose operand check passes has the regions the command's rule lists. -/
theorem commandPlan_regions {s : State} {i : Instr} {p : Plan} (h : commandPlan s i = some p)
    (hop : operandIllegal s i = false) :
    p.ins = inputRegions s i ∧ p.outs = outputRegions s i := by
  cases i <;> cases h
  case mipDown =>
    exact ⟨rfl, congrArg (fun n => [Region.mk s.dst.toNat n]) (Nat.mul_assoc 4 _ _)⟩
  case texEnc fmt =>
    simp only [texEncPlan, inputRegions, outputRegions]
    cases PixelFormat.ofCode fmt with
    | none => exact ⟨rfl, rfl⟩
    | some f => exact ⟨rfl, rfl⟩
  case texDec fmt =>
    have hlevel : ¬ levelCount s.widthVal s.heightVal s.optMipmaps ≤ s.level.toNat :=
      of_decide_eq_false hop
    simp only [texDecPlan, inputRegions, outputRegions]
    cases PixelFormat.ofCode fmt with
    | none => exact ⟨rfl, rfl⟩
    | some f =>
      simp only [texDecFormatPlan, if_neg hlevel]
      exact ⟨rfl, rfl⟩
  all_goals exact ⟨rfl, rfl⟩

/-- A command that passes its checks has a plan that passes check and admission, on the regions of its rule. -/
theorem accepted_plan {s : State} {i : Instr} {p : Plan} (h : Accepted s i)
    (hp : commandPlan s i = some p) :
    p.check = none ∧ p.ins = inputRegions s i ∧
      admitted s.params.memBytes p.ins p.outs = true := by
  obtain ⟨_, hformat, hoperand, hdims, hregions⟩ := h
  obtain ⟨hins, houts⟩ := commandPlan_regions hp hoperand
  refine ⟨?_, hins, ?_⟩
  · simp [commandPlan_check hp, registerChecks, hformat, hoperand, hdims]
  · rw [hins, houts]; exact hregions

/-! ### Bytes nothing has written (R27) -/

theorem readRegions_eq_none {m : Memory} {rs : List Region} {r : Region} (hr : r ∈ rs)
    (hread : m.readBytes r.start r.len = none) : readRegions m rs = none := by
  induction rs with
  | nil => cases hr
  | cons q rs ih =>
    simp only [readRegions]
    rcases List.mem_cons.1 hr with rfl | hr
    · rw [hread]
    · rw [ih hr]
      cases m.readBytes q.start q.len <;> rfl

/-- One byte without a value anywhere in a region, and MemRead has no answer for the region. -/
theorem readBytes_eq_none_of_covers {m : Memory} {r : Region} {a : Nat} (ha : r.Covers a)
    (hnone : m.read a = none) : m.readBytes r.start r.len = none := by
  obtain ⟨hle, hlt⟩ := ha
  exact (readBytes_eq_none_iff _ _ _).2
    ⟨a - r.start, by omega, by rwa [Nat.add_sub_cancel' hle]⟩

/-- Settles O23: NOP and SRESET have no input region; every other command is the run of its plan, whose read of
the input regions has no answer. -/
theorem unwrittenInputRefused : Obligations.UnwrittenInputRefused := by
  intro i s r a hacc hr hle hlt hnone
  rcases exec_cases i s with ⟨rfl, _⟩ | ⟨rfl, _⟩ | ⟨p, hp, hrun⟩
  · cases hr
  · cases hr
  · obtain ⟨hcheck, hins, hadm⟩ := accepted_plan hacc hp
    rw [hrun]
    exact runPlan_unwritten hcheck hadm
      (readRegions_eq_none (hins ▸ hr) (readBytes_eq_none_of_covers ⟨hle, hlt⟩ hnone))

/-! ### The host's accesses to the buffer memory (R20) -/

theorem addressesExist_one (memBytes a : Nat) : addressesExist memBytes a 1 = decide (a < memBytes) := by
  simp [addressesExist]

theorem hostStore_inside {a : Nat} {bs : List Byte} {s : State} (hb : s.busy = false)
    (h : bs = [] ∨ a + bs.length ≤ s.params.memBytes) :
    hostStore a bs s = .next { s with mem := s.mem.writeBytes a bs } := by
  have hexist : addressesExist s.params.memBytes a bs.length = true :=
    (addressesExist_iff _ _ _).2 (by simpa using h)
  simp [hostStore, hb, hexist]

theorem hostStore_outside {a : Nat} {bs : List Byte} {s : State} (hb : s.busy = false)
    (h : ¬ (bs = [] ∨ a + bs.length ≤ s.params.memBytes)) :
    hostStore a bs s = .fault .noSuchAddress := by
  have hexist : ¬ addressesExist s.params.memBytes a bs.length = true := fun he =>
    h (by simpa using (addressesExist_iff _ _ _).1 he)
  simp [hostStore, hb, hexist]

theorem hostLoad_written {a : Nat} {b : Byte} {s : State} (hb : s.busy = false)
    (h : a < s.params.memBytes) (hread : s.mem.read a = some b) :
    hostLoad a s = .next { s with hostData := BitVec.ofNat 32 b.toNat } := by
  simp [hostLoad, hb, addressesExist_one, h, hread]

theorem hostLoad_unwritten {a : Nat} {s : State} (hb : s.busy = false)
    (h : a < s.params.memBytes) (hread : s.mem.read a = none) :
    hostLoad a s = .refused .unwrittenByte := by
  simp [hostLoad, hb, addressesExist_one, h, hread]

theorem hostLoad_outside {a : Nat} {s : State} (hb : s.busy = false)
    (h : ¬ a < s.params.memBytes) : hostLoad a s = .fault .noSuchAddress := by
  simp [hostLoad, hb, addressesExist_one, h]

/-- Settles O9: the action is one `hostStore` or `hostLoad`, and each clause is one of their branches. -/
theorem hostMemoryAccess : Obligations.HostMemoryAccess := by
  intro s rest a hbusy
  refine ⟨fun bs hhost => ?_, fun hhost => ?_⟩
  · rw [step_of_host hhost]
    split
    · rename_i hin
      exact ⟨_, hostStore_inside hbusy hin, rfl, readBytes_writeBytes_same _ _ _,
        fun x hx => read_writeBytes_outside _ _ _ hx⟩
    · rename_i hout
      exact hostStore_outside hbusy hout
  · rw [step_of_host hhost]
    split
    · rename_i hin
      cases hread : s.mem.read a with
      | none => exact hostLoad_unwritten hbusy hin hread
      | some b => exact hostLoad_written hbusy hin hread
    · rename_i hout
      exact hostLoad_outside hbusy hout

end Sys2Proof.Machine
end

section
/-! PROOFS. The ColorConverter's two- and four-byte encodings (R21, R43, R50 to R59): how a stream command ends, the
elements and pixels of a byte run, and the bit fields of each code as integers. -/

namespace Sys2Proof.Machine

/-! ### How a stream command ends (R43, R86) -/

/-- An admitted output region shares the memory with an input region, so its length fits DSTLEN. -/
theorem admitted_output_lt {p : Params} (hvalid : p.valid = true) {ins outs : List Region}
    (ha : admitted p.memBytes ins outs = true) {r o : Region} (hr : r ∈ ins) (ho : o ∈ outs)
    (hne : o.len ≠ 0 → r.len ≠ 0) : o.len < 2 ^ 32 := by
  obtain ⟨_, hmem⟩ := valid_memBytes hvalid
  obtain ⟨hins, houts, hdisj, _⟩ := (admitted_iff _ _ _).1 ha
  have hinr := (inside_iff r _).1 (hins r hr)
  have hino := (inside_iff o _).1 (houts o ho)
  have hsep := (disjoint_iff o r).1 (hdisj o ho r hr)
  omega

/-- Step 7 of R86 with one run of bytes, stored at DST. -/
theorem storedAtDst_succeed (s : State) {out : List Byte} {pallen : Nat} (hlen : out.length < 2 ^ 32)
    (hpal : pallen < 2 ^ 32) :
    StoredAtDst s ({ s with mem := s.mem.writeAll [(s.dstAddr, out)] }.succeed out.length pallen)
      out pallen where
  kept := rfl
  record := ⟨(by decide : statusWord true false 0 = 1), rfl,
    BitVec.toNat_ofNat _ _ ▸ Nat.mod_eq_of_lt hlen, BitVec.toNat_ofNat _ _ ▸ Nat.mod_eq_of_lt hpal⟩
  stored := readBytes_writeBytes_same _ _ _
  frame := fun _ hx => read_writeBytes_outside _ _ _ hx

/-- A stream command that passes its checks, its input readable, stores its function of the input at DST. -/
theorem exec_streamPlan {s : State} {i : Instr} {inLen outLen : Nat} {f : List Byte → List Byte}
    {v : List Byte} (hacc : Accepted s i) (hp : commandPlan s i = some (streamPlan s inLen outLen f))
    (hread : s.mem.readBytes s.src.toNat inLen = some v) (hlen : (f v).length = outLen)
    (hne : outLen ≠ 0 → inLen ≠ 0) :
    ∃ t, exec i s = .next t ∧ StoredAtDst s t (f v) 0 := by
  obtain ⟨hcheck, _, hadm⟩ := accepted_plan hacc hp
  have hregions : readRegions s.mem (streamPlan s inLen outLen f).ins = some [v] := by
    simp only [streamPlan, readRegions_single, State.srcAddr, hread, Option.map_some]
  have hlt : outLen < 2 ^ 32 :=
    admitted_output_lt hacc.1 hadm (List.mem_singleton_self _) (List.mem_singleton_self _) hne
  refine ⟨_, (exec_eq_runPlan hp).trans (runPlan_ok hcheck hadm hregions rfl), ?_⟩
  subst hlen
  exact storedAtDst_succeed s hlt (Nat.two_pow_pos 32)

/-! ### Big-endian elements (R21, R24) -/

theorem fromBigEndian_concat (bs : List Byte) (b : Byte) :
    fromBigEndian (bs ++ [b]) = fromBigEndian bs * 256 + b.toNat := by
  simp [fromBigEndian]

theorem bigEndian_succ (n v : Nat) :
    bigEndian (n + 1) v = bigEndian n (v / 256) ++ [BitVec.ofNat 8 v] := by
  simp only [bigEndian, List.range_succ, List.map_append, List.map_singleton]
  refine congrArg₂ (· ++ ·) (List.map_congr_left fun i hi => ?_) (by simp)
  have hi := List.mem_range.1 hi
  have hshift : 8 * (n + 1 - 1 - i) = 8 + 8 * (n - 1 - i) := by omega
  rw [hshift, Nat.shiftRight_add, ← Nat.shiftRight_eq_div_pow v 8]

/-- R21's two conversions undo each other up to the width of the element. -/
theorem fromBigEndian_bigEndian (n v : Nat) : fromBigEndian (bigEndian n v) = v % 256 ^ n := by
  induction n generalizing v with
  | zero => simp [bigEndian, fromBigEndian, Nat.mod_one]
  | succ n ih =>
    have hsplit : v % 256 ^ (n + 1) = v % 256 + 256 * (v / 256 % 256 ^ n) := by
      rw [Nat.pow_succ', Nat.mod_mul]
    rw [bigEndian_succ, fromBigEndian_concat, ih, BitVec.toNat_ofNat, hsplit]
    omega

theorem fromBigEndian_lt (bs : List Byte) : fromBigEndian bs < 256 ^ bs.length := by
  induction bs using List.reverseRecOn with
  | nil => decide
  | append_singleton bs b ih =>
    have hb := b.isLt
    rw [fromBigEndian_concat, List.length_append, List.length_singleton, Nat.pow_succ]
    omega

/-- Element `k` of a stream is code `k`, stored big-endian. -/
theorem elementBytes_elementStream {size k : Nat} {codes : List Nat} (hk : k < codes.length) :
    elementBytes size (elementStream size codes) k = bigEndian size codes[k] := by
  induction codes generalizing k with
  | nil => cases hk
  | cons c cs ih =>
    have hcons : elementStream size (c :: cs) = bigEndian size c ++ elementStream size cs := rfl
    cases k with
    | zero => simp [elementBytes, hcons, List.take_left']
    | succ k =>
      have hdrop : (elementStream size (c :: cs)).drop (size * (k + 1)) =
          (elementStream size cs).drop (size * k) := by
        rw [hcons, Nat.mul_succ, Nat.add_comm, ← List.drop_drop, List.drop_left' (bigEndian_length _ _)]
      rw [elementBytes, hdrop]
      exact ih (Nat.lt_of_succ_lt_succ hk)

/-- Pixel `k` of a run of pixels (R23). -/
theorem pixelAt_pixelBytes {k : Nat} {px : List Pixel} (hk : k < px.length) :
    pixelAt (pixelBytes px) k = px[k] := by
  induction px generalizing k with
  | nil => cases hk
  | cons p px ih =>
    cases k with
    | zero => rfl
    | succ k => exact ih (Nat.lt_of_succ_lt_succ hk)

/-! ### The runs of the two converter plans (R43) -/

/-- CVT.E.f completes with the code of every pixel, once the model's code is the rule's and fits an element. -/
theorem converterEncodes_of_code {i : Instr} (f : Encoding)
    (hplan : ∀ s, commandPlan s i = some (cvtEPlan f s))
    (hcode : ∀ p : Params, p.valid = true → ∀ x,
      encodePixel p f x = encodedCode p x i ∧ encodedCode p x i < 256 ^ f.elementSize) :
    ConverterEncodes i f.elementSize := by
  intro s v hacc hread
  obtain ⟨t, ht, hstored⟩ := exec_streamPlan hacc (hplan s) hread (by simp) fun h => by
    have := Nat.ne_zero_of_mul_ne_zero_right h
    omega
  refine ⟨t, _, ht, hstored, by simp [State.countVal], fun k hk => ?_⟩
  obtain ⟨heq, hlt⟩ := hcode s.params hacc.1 (pixelAt v k)
  have helem := elementBytes_elementStream (size := f.elementSize) (k := k)
    (codes := (pixelsOf s.countVal v).map (encodePixel s.params f)) (by simpa [State.countVal] using hk)
  rw [← elementBytes, helem, fromBigEndian_bigEndian]
  simp [pixelsOf, heq, Nat.mod_eq_of_lt hlt]

/-- CVT.D.f completes with the pixel of every element, once the model's channels are the rule's. -/
theorem converterDecodes_of_channels {i : Instr} (f : Encoding)
    (hplan : ∀ s, commandPlan s i = some (cvtDPlan f s))
    (hchannels : ∀ c < 256 ^ f.elementSize, channelsOf (decodePixel f c) = decodedChannels c i) :
    ConverterDecodes i f.elementSize := by
  intro s v hacc hread
  have hsize : f.elementSize ≠ 0 := by cases f <;> decide
  obtain ⟨t, ht, hstored⟩ := exec_streamPlan hacc (hplan s) hread (by simp) fun h =>
    Nat.mul_ne_zero hsize (Nat.ne_zero_of_mul_ne_zero_right h)
  refine ⟨t, _, ht, hstored, by simp [State.countVal], fun k hk => ?_⟩
  have hlt := fromBigEndian_lt (elementBytes f.elementSize v k)
  rw [elementBytes_length (readBytes_length hread) hk] at hlt
  rw [pixelAt_pixelBytes (by simpa [State.countVal] using hk)]
  simpa [elementsOf, elementBytes] using hchannels _ hlt

/-! ### Codes field by field (R40, R42, R50 to R58) -/

/-- Fields that do not overlap are joined by addition. -/
theorem or_eq_add {a b : Nat} (n : Nat) (ha : a % 2 ^ n = 0) (hb : b < 2 ^ n) : a ||| b = a + b := by
  obtain ⟨q, rfl⟩ := Nat.dvd_of_mod_eq_zero ha
  exact (Nat.two_pow_add_eq_or_of_lt hb q).symm

theorem codeOf_lt (n : Nat) (b : Byte) : codeOf n b.toNat < 2 ^ n := by
  have hpos : 0 < 2 ^ n := Nat.two_pow_pos n
  have hmul : b.toNat * (2 ^ n - 1) ≤ 255 * (2 ^ n - 1) :=
    Nat.mul_le_mul_right _ (Nat.le_of_lt_succ b.isLt)
  rw [codeOf, Nat.div_lt_iff_lt_mul (by decide)]
  omega

theorem valid_lumaWeights {p : Params} (h : p.valid = true) : p.lumaR + p.lumaG + p.lumaB = 256 := by
  simp only [Params.valid, Bool.and_eq_true, beq_iff_eq] at h
  tauto

/-- The weights add up to 256, so the luminance is a byte (R42). -/
theorem lumaOf_lt {p : Params} (h : p.valid = true) (x : Pixel) : lumaOf p x < 256 := by
  have hsum := valid_lumaWeights h
  have hr : p.lumaR * x.r.toNat ≤ p.lumaR * 255 := Nat.mul_le_mul_left _ (Nat.le_of_lt_succ x.r.isLt)
  have hg : p.lumaG * x.g.toNat ≤ p.lumaG * 255 := Nat.mul_le_mul_left _ (Nat.le_of_lt_succ x.g.isLt)
  have hb : p.lumaB * x.b.toNat ≤ p.lumaB * 255 := Nat.mul_le_mul_left _ (Nat.le_of_lt_succ x.b.isLt)
  rw [lumaOf]
  omega

theorem luma_eq_lumaOf (p : Params) (x : Pixel) : luma p x = lumaOf p x :=
  Nat.shiftRight_eq_div_pow _ 8

theorem narrow_eq_codeOf (n v : Nat) : narrow n v = codeOf n v := rfl

theorem encIA88_eq {p : Params} (h : p.valid = true) (x : Pixel) :
    encIA88 p x = encodedCode p x .cvtEIA88 ∧ encodedCode p x .cvtEIA88 < 256 ^ 2 := by
  have hl := lumaOf_lt h x
  have ha := x.a.isLt
  simp only [encIA88, encodedCode, luma_eq_lumaOf, Nat.shiftLeft_eq]
  rw [or_eq_add 8 (by omega) (by omega)]
  omega

theorem encRGB565_eq (p : Params) (x : Pixel) :
    encRGB565 x = encodedCode p x .cvtERGB565 ∧ encodedCode p x .cvtERGB565 < 256 ^ 2 := by
  have hr := codeOf_lt 5 x.r
  have hg := codeOf_lt 6 x.g
  have hb := codeOf_lt 5 x.b
  simp only [encRGB565, encodedCode, narrow_eq_codeOf, Nat.shiftLeft_eq]
  rw [or_eq_add 11 (a := _ * _) (by omega) (by omega), or_eq_add 5 (a := _ + _) (by omega) (by omega)]
  omega

/-- A field above three 4-bit fields. -/
theorem or_nibbles {a r g b : Nat} (hr : r < 2 ^ 4) (hg : g < 2 ^ 4) (hb : b < 2 ^ 4) :
    a * 2 ^ 12 ||| r * 2 ^ 8 ||| g * 2 ^ 4 ||| b = 4096 * a + 256 * r + 16 * g + b := by
  rw [or_eq_add 12 (a := _ * _) (by omega) (by omega),
    or_eq_add 8 (a := _ + _) (by omega) (by omega),
    or_eq_add 4 (a := _ + _) (by omega) (by omega)]
  omega

theorem encARGB4444_eq (p : Params) (x : Pixel) :
    encARGB4444 x = encodedCode p x .cvtEARGB4444 ∧ encodedCode p x .cvtEARGB4444 < 256 ^ 2 := by
  have ha := codeOf_lt 4 x.a
  have hr := codeOf_lt 4 x.r
  have hg := codeOf_lt 4 x.g
  have hb := codeOf_lt 4 x.b
  simp only [encARGB4444, encodedCode, narrow_eq_codeOf, Nat.shiftLeft_eq]
  rw [or_nibbles hr hg hb]
  omega

theorem encARGB8888_eq (p : Params) (x : Pixel) :
    encARGB8888 x = encodedCode p x .cvtEARGB8888 ∧ encodedCode p x .cvtEARGB8888 < 256 ^ 4 := by
  have ha := x.a.isLt
  have hr := x.r.isLt
  have hg := x.g.isLt
  have hb := x.b.isLt
  simp only [encARGB8888, encodedCode, Nat.shiftLeft_eq]
  rw [or_eq_add 24 (a := _ * _) (by omega) (by omega),
    or_eq_add 16 (a := _ + _) (by omega) (by omega),
    or_eq_add 8 (a := _ + _) (by omega) (by omega)]
  omega

/-- Both modes: bit 15 above three 5-bit fields, or 3 bits of alpha above three 4-bit fields (R54). -/
theorem encRGB5A3_eq (p : Params) (x : Pixel) :
    encRGB5A3 p x = encodedCode p x .cvtERGB5A3 ∧ encodedCode p x .cvtERGB5A3 < 256 ^ 2 := by
  simp only [encRGB5A3, encodedCode, narrow_eq_codeOf, Nat.shiftLeft_eq]
  split
  · have hr := codeOf_lt 5 x.r
    have hg := codeOf_lt 5 x.g
    have hb := codeOf_lt 5 x.b
    rw [or_eq_add 15 (a := 32768) (by omega) (by omega),
      or_eq_add 10 (a := _ + _) (by omega) (by omega),
      or_eq_add 5 (a := _ + _) (by omega) (by omega)]
    omega
  · have ha := codeOf_lt 3 x.a
    have hr := codeOf_lt 4 x.r
    have hg := codeOf_lt 4 x.g
    have hb := codeOf_lt 4 x.b
    rw [or_nibbles hr hg hb]
    omega

/-! ### Channels field by field (R41, R51 to R59) -/

theorem bitField_eq (c lo w : Nat) : bitField c lo w = c / 2 ^ lo % 2 ^ w := by
  rw [bitField, Nat.shiftRight_eq_div_pow]

theorem widen3_eq_spread {x : Nat} (h : x < 2 ^ 3) :
    widen3 x = spread 3 x ∧ spread 3 x < 256 := by
  simp only [widen3, spread, Nat.shiftLeft_eq, Nat.shiftRight_eq_div_pow]
  rw [or_eq_add 5 (a := _ * _) (by omega) (by omega), or_eq_add 2 (a := _ + _) (by omega) (by omega)]
  omega

theorem widen4_eq_spread {x : Nat} (h : x < 2 ^ 4) :
    widen4 x = spread 4 x ∧ spread 4 x < 256 := by
  simp only [widen4, spread, Nat.shiftLeft_eq]
  rw [or_eq_add 4 (by omega) (by omega)]
  omega

theorem widen5_eq_spread {x : Nat} (h : x < 2 ^ 5) :
    widen5 x = spread 5 x ∧ spread 5 x < 256 := by
  simp only [widen5, spread, Nat.shiftLeft_eq, Nat.shiftRight_eq_div_pow]
  rw [or_eq_add 3 (by omega) (by omega)]
  omega

theorem widen6_eq_spread {x : Nat} (h : x < 2 ^ 6) :
    widen6 x = spread 6 x ∧ spread 6 x < 256 := by
  simp only [widen6, spread, Nat.shiftLeft_eq, Nat.shiftRight_eq_div_pow]
  rw [or_eq_add 2 (by omega) (by omega)]
  omega

/-- A field of a code widened by bit replication, as a channel. -/
theorem toNat_widened {n : Nat} {widen : Nat → Nat}
    (hwiden : ∀ {x}, x < 2 ^ n → widen x = spread n x ∧ spread n x < 256) (c lo : Nat) :
    (BitVec.ofNat 8 (widen (bitField c lo n))).toNat = spread n (c / 2 ^ lo % 2 ^ n) := by
  obtain ⟨heq, hlt⟩ := hwiden (Nat.mod_lt (c / 2 ^ lo) (Nat.two_pow_pos n))
  rw [bitField_eq, heq, BitVec.toNat_ofNat]
  exact Nat.mod_eq_of_lt hlt

/-- A byte-wide field of a code, as a channel. -/
theorem toNat_byteField (c lo : Nat) :
    (BitVec.ofNat 8 (bitField c lo 8)).toNat = c / 2 ^ lo % 256 := by
  rw [BitVec.toNat_ofNat, bitField_eq]
  exact Nat.mod_mod _ 256

theorem channelsOf_ofNats (r g b a : Nat) :
    channelsOf (Pixel.ofNats r g b a) =
      ((BitVec.ofNat 8 r).toNat, (BitVec.ofNat 8 g).toNat, (BitVec.ofNat 8 b).toNat,
        (BitVec.ofNat 8 a).toNat) := rfl

theorem decIA88_channels {c : Nat} (h : c < 256 ^ 2) :
    channelsOf (decIA88 c) = decodedChannels c .cvtDIA88 := by
  have htop : c / 256 % 256 = c / 256 := by omega
  simp [decIA88, channelsOf_ofNats, decodedChannels, toNat_byteField, htop,
    -BitVec.toNat_ofNat]

theorem decRGB565_channels {c : Nat} (h : c < 256 ^ 2) :
    channelsOf (decRGB565 c) = decodedChannels c .cvtDRGB565 := by
  have htop : c / 2048 % 32 = c / 2048 := by omega
  simp [decRGB565, channelsOf_ofNats, decodedChannels, toNat_widened widen5_eq_spread,
    toNat_widened widen6_eq_spread, htop, -BitVec.toNat_ofNat]

theorem decARGB4444_channels {c : Nat} (h : c < 256 ^ 2) :
    channelsOf (decARGB4444 c) = decodedChannels c .cvtDARGB4444 := by
  have htop : c / 4096 % 16 = c / 4096 := by omega
  simp [decARGB4444, channelsOf_ofNats, decodedChannels, toNat_widened widen4_eq_spread, htop,
    -BitVec.toNat_ofNat]

theorem decARGB8888_channels {c : Nat} (h : c < 256 ^ 4) :
    channelsOf (decARGB8888 c) = decodedChannels c .cvtDARGB8888 := by
  have htop : c / 16777216 % 256 = c / 16777216 := by omega
  simp [decARGB8888, channelsOf_ofNats, decodedChannels, toNat_byteField, htop,
    -BitVec.toNat_ofNat]

/-- Bit 15 is set from 32768 up (R55). -/
theorem modeBit_iff {c : Nat} (h : c < 256 ^ 2) : bitField c 15 1 = 1 ↔ 32768 ≤ c := by
  rw [bitField_eq]
  omega

theorem decRGB5A3_channels {c : Nat} (h : c < 256 ^ 2) :
    channelsOf (decRGB5A3 c) = decodedChannels c .cvtDRGB5A3 := by
  simp only [decRGB5A3, decodedChannels, modeBit_iff h]
  split
  · simp [channelsOf_ofNats, toNat_widened widen5_eq_spread, -BitVec.toNat_ofNat]
  · have htop : c / 4096 % 8 = c / 4096 := by omega
    simp [channelsOf_ofNats, toNat_widened widen3_eq_spread, toNat_widened widen4_eq_spread,
      htop, -BitVec.toNat_ofNat]

/-! ### The obligations -/

/-- Settles O32: each of the four is its encoding's plan, with the rule's code in the element. -/
theorem encodeToTwoBytes : Obligations.EncodeToTwoBytes := by
  intro i hi
  simp only [List.mem_cons, List.not_mem_nil, or_false] at hi
  rcases hi with rfl | rfl | rfl | rfl
  · exact converterEncodes_of_code .ia88 (fun _ => rfl) fun _ hp x => encIA88_eq hp x
  · exact converterEncodes_of_code .rgb565 (fun _ => rfl) fun p _ x => encRGB565_eq p x
  · exact converterEncodes_of_code .rgb5a3 (fun _ => rfl) fun p _ x => encRGB5A3_eq p x
  · exact converterEncodes_of_code .argb4444 (fun _ => rfl) fun p _ x => encARGB4444_eq p x

/-- Settles O33: the code is the four channels, a byte each. -/
theorem encodeToFourBytes : Obligations.EncodeToFourBytes :=
  converterEncodes_of_code .argb8888 (fun _ => rfl) fun p _ x => encARGB8888_eq p x

/-- Settles O35: each of the four is its encoding's plan, with the rule's channels in the pixel. -/
theorem decodeFromTwoBytes : Obligations.DecodeFromTwoBytes := by
  intro i hi
  simp only [List.mem_cons, List.not_mem_nil, or_false] at hi
  rcases hi with rfl | rfl | rfl | rfl
  · exact converterDecodes_of_channels .ia88 (fun _ => rfl) fun _ => decIA88_channels
  · exact converterDecodes_of_channels .rgb565 (fun _ => rfl) fun _ => decRGB565_channels
  · exact converterDecodes_of_channels .rgb5a3 (fun _ => rfl) fun _ => decRGB5A3_channels
  · exact converterDecodes_of_channels .argb4444 (fun _ => rfl) fun _ => decARGB4444_channels

/-- Settles O36: the channels are the four bytes of the element. -/
theorem decodeFromFourBytes : Obligations.DecodeFromFourBytes :=
  converterDecodes_of_channels .argb8888 (fun _ => rfl) fun _ => decARGB8888_channels

end Sys2Proof.Machine
end

section
/-! PROOFS. The command word (R80, R81, R83): a word is its four fields, the decoder and the encoder are inverse on
them, and which words match a row of the table or are no command. -/

namespace Sys2Proof

/-! ### A word and its fields (R80) -/

theorem zeroField_eq (w : Word) : zeroField w = w.toNat / 4096 := by
  have := w.isLt
  simp only [zeroField, BitVec.extractLsb'_toNat, Nat.shiftRight_eq_div_pow]
  omega

theorem fmtBits_eq (w : Word) : fmtBits w = w.toNat / 256 % 16 := by
  simp only [fmtBits, BitVec.extractLsb'_toNat, Nat.shiftRight_eq_div_pow, Nat.reducePow]

theorem unitBits_eq (w : Word) : unitBits w = w.toNat / 16 % 16 := by
  simp only [unitBits, BitVec.extractLsb'_toNat, Nat.shiftRight_eq_div_pow, Nat.reducePow]

theorem opBits_eq (w : Word) : opBits w = w.toNat % 16 := by
  simp only [opBits, BitVec.extractLsb'_toNat, Nat.shiftRight_zero, Nat.reducePow]

theorem fmtBits_lt (w : Word) : fmtBits w < 16 := (w.extractLsb' 8 4).isLt

theorem unitBits_lt (w : Word) : unitBits w < 16 := (w.extractLsb' 4 4).isLt

theorem opBits_lt (w : Word) : opBits w < 16 := (w.extractLsb' 0 4).isLt

/-- A word is its four fields. -/
theorem word_eq_iff_fields (w v : Word) :
    w = v ↔ zeroField w = zeroField v ∧ fmtBits w = fmtBits v ∧ unitBits w = unitBits v ∧
      opBits w = opBits v := by
  refine ⟨fun h => h ▸ ⟨rfl, rfl, rfl, rfl⟩, fun ⟨htop, hfmt, hunit, hop⟩ => ?_⟩
  simp only [zeroField_eq, fmtBits_eq, unitBits_eq, opBits_eq] at htop hfmt hunit hop
  apply BitVec.eq_of_toNat_eq
  omega

/-- The value of a concatenation, its lower part `n` bits wide. -/
theorem toNat_append_eq_add {m n : Nat} (x : BitVec m) (y : BitVec n) :
    (x ++ y).toNat = x.toNat * 2 ^ n + y.toNat := by
  rw [BitVec.toNat_append, ← Nat.shiftLeft_add_eq_or_of_lt y.isLt, Nat.shiftLeft_eq]

section CommandWord
variable (fmt unit op : Nat)

theorem commandWord_toNat :
    (commandWord fmt unit op).toNat = 256 * (fmt % 16) + 16 * (unit % 16) + op % 16 := by
  simp only [commandWord, toNat_append_eq_add, BitVec.toNat_ofNat]
  omega

@[simp] theorem zeroField_commandWord : zeroField (commandWord fmt unit op) = 0 := by
  rw [zeroField_eq, commandWord_toNat]; omega

@[simp] theorem fmtBits_commandWord : fmtBits (commandWord fmt unit op) = fmt % 16 := by
  rw [fmtBits_eq, commandWord_toNat]; omega

@[simp] theorem unitBits_commandWord : unitBits (commandWord fmt unit op) = unit % 16 := by
  rw [unitBits_eq, commandWord_toNat]; omega

@[simp] theorem opBits_commandWord : opBits (commandWord fmt unit op) = op % 16 := by
  rw [opBits_eq, commandWord_toNat]; omega

end CommandWord

/-- A word with ZERO clear is the command word of its own fields. -/
theorem commandWord_fields {w : Word} (h : zeroField w = 0) :
    commandWord (fmtBits w) (unitBits w) (opBits w) = w := by
  simp [word_eq_iff_fields, h, fmtBits_lt, unitBits_lt, opBits_lt, Nat.mod_eq_of_lt]

/-- The mask of the rows that carry an FMT operand clears that field and keeps the other three (R81). -/
theorem fields_and_pipelineMask (w : Word) :
    zeroField (w &&& 0xFFFFF0FF) = zeroField w ∧ fmtBits (w &&& 0xFFFFF0FF) = 0 ∧
      unitBits (w &&& 0xFFFFF0FF) = unitBits w ∧ opBits (w &&& 0xFFFFF0FF) = opBits w := by
  have kept {lo n : Nat} (hm : (0xFFFFF0FF : Word).extractLsb' lo n = BitVec.allOnes n) :
      ((w &&& 0xFFFFF0FF).extractLsb' lo n).toNat = (w.extractLsb' lo n).toNat := by
    rw [BitVec.extractLsb'_and, hm, BitVec.and_allOnes]
  have cleared : (w &&& 0xFFFFF0FF).extractLsb' 8 4 = 0 := by
    rw [BitVec.extractLsb'_and]; exact BitVec.and_zero
  exact ⟨kept (by decide), congrArg BitVec.toNat cleared, kept (by decide), kept (by decide)⟩

/-! ### The decoder and the encoder are inverse (R80, R81) -/

/-- What the decoder of a unit reads is encoded with the same FMT, UNIT and OP. -/
def ReadsRowsOf (unit : Nat) (dec : Nat → Nat → Except DecodeError Instr) : Prop :=
  ∀ op fmt i, dec op fmt = .ok i → encode i = commandWord fmt unit op ∧ i.fmtField ≤ fmt

/-- A row whose FMT is 0 is read from FMT 0 alone. -/
theorem fmtZero_readsRow {fmt unit op : Nat} {i j : Instr} (hword : encode i = commandWord 0 unit op)
    (hfield : i.fmtField = 0) (h : fmtZero fmt i = .ok j) :
    encode j = commandWord fmt unit op ∧ j.fmtField ≤ fmt := by
  simp only [fmtZero] at h
  split at h
  next hfmt => cases h; subst hfmt; exact ⟨hword, hfield.le⟩
  next => cases h

theorem decodeSystem_readsRows : ReadsRowsOf 0 decodeSystem := by
  intro op fmt i h
  simp only [decodeSystem] at h
  split at h
  · exact fmtZero_readsRow rfl rfl h
  · exact fmtZero_readsRow rfl rfl h
  · cases h

theorem decodePacker_readsRows : ReadsRowsOf 1 decodePacker := by
  intro op fmt i h
  simp only [decodePacker] at h
  repeat' split at h
  all_goals cases h
  all_goals exact ⟨rfl, Nat.zero_le _⟩

theorem decodeConverter_readsRows : ReadsRowsOf 2 decodeConverter := by
  intro op fmt i h
  simp only [decodeConverter] at h
  repeat' split at h
  all_goals cases h
  all_goals exact ⟨rfl, Nat.zero_le _⟩

theorem decodeQuantizer_readsRows : ReadsRowsOf 3 decodeQuantizer := by
  intro op fmt i h
  simp only [decodeQuantizer] at h
  split at h
  · exact fmtZero_readsRow rfl rfl h
  · exact fmtZero_readsRow rfl rfl h
  · exact fmtZero_readsRow rfl rfl h
  · cases h

theorem decodeBlock_readsRows : ReadsRowsOf 4 decodeBlock := by
  intro op fmt i h
  simp only [decodeBlock] at h
  split at h
  · exact fmtZero_readsRow rfl rfl h
  · exact fmtZero_readsRow rfl rfl h
  · cases h

theorem decodeTiler_readsRows : ReadsRowsOf 5 decodeTiler := by
  intro op fmt i h
  simp only [decodeTiler] at h
  split at h
  · exact fmtZero_readsRow rfl rfl h
  · exact fmtZero_readsRow rfl rfl h
  · cases h

theorem decodeMip_readsRows : ReadsRowsOf 6 decodeMip := by
  intro op fmt i h
  simp only [decodeMip] at h
  split at h
  · exact fmtZero_readsRow rfl rfl h
  · exact fmtZero_readsRow rfl rfl h
  · cases h

theorem decodePipeline_readsRows : ReadsRowsOf 7 decodePipeline := by
  intro op fmt i h
  simp only [decodePipeline] at h
  split at h <;> cases h
  · exact ⟨rfl, le_rfl⟩
  · exact ⟨rfl, le_rfl⟩

theorem decodeFields_eq_ok {top fmt unit op : Nat} {i : Instr}
    (h : decodeFields top fmt unit op = .ok i) :
    top = 0 ∧ encode i = commandWord fmt unit op ∧ i.fmtField ≤ fmt := by
  simp only [decodeFields] at h
  split at h
  · cases h
  next htop =>
    refine ⟨not_not.1 htop, ?_⟩
    split at h
    · exact decodeSystem_readsRows _ _ _ h
    · exact decodePacker_readsRows _ _ _ h
    · exact decodeConverter_readsRows _ _ _ h
    · exact decodeQuantizer_readsRows _ _ _ h
    · exact decodeBlock_readsRows _ _ _ h
    · exact decodeTiler_readsRows _ _ _ h
    · exact decodeMip_readsRows _ _ _ h
    · exact decodePipeline_readsRows _ _ _ h
    · cases h

/-- The decoder sees no more of a command word than its fields. -/
theorem decode_commandWord {fmt unit op : Nat} (hfmt : fmt < 16) (hunit : unit < 16) (hop : op < 16) :
    decode (commandWord fmt unit op) = decodeFields 0 fmt unit op := by
  simp [decode, Nat.mod_eq_of_lt hfmt, Nat.mod_eq_of_lt hunit, Nat.mod_eq_of_lt hop]

theorem wf_iff (i : Instr) : i.wf = true ↔ i.fmtField < 16 := decide_eq_true_iff

/-- Settles O1: the fields of a row's word are the row's, and `decodeFields` reads the row from them; only the FMT of
the pipeline's two rows has to fit its four bits. -/
theorem decodeOfEncode : Obligations.DecodeOfEncode := by
  intro i hwf
  cases i
  case texEnc fmt => exact decode_commandWord ((wf_iff _).1 hwf) (by decide) (by decide)
  case texDec fmt => exact decode_commandWord ((wf_iff _).1 hwf) (by decide) (by decide)
  all_goals exact decode_commandWord (by decide) (by decide) (by decide)

/-- The words that decode are the words the encoder writes for well-formed instructions. -/
theorem decode_eq_ok_iff {w : Word} {i : Instr} : decode w = .ok i ↔ i.wf = true ∧ encode i = w := by
  constructor
  · intro h
    obtain ⟨htop, hword, hfmt⟩ := decodeFields_eq_ok h
    exact ⟨(wf_iff i).2 (hfmt.trans_lt (fmtBits_lt w)), hword.trans (commandWord_fields htop)⟩
  · rintro ⟨hwf, rfl⟩
    exact decodeOfEncode i hwf

/-! ### The rows of the table (R81, R83) -/

/-- The match of `w` with the row of `i`, the FMT operand read from bits 11:8. -/
def MatchesRow (w : Word) (i : Instr) : Prop :=
  w &&& (tableRow i).2 = (tableRow i).1 ∧
    ((∃ f, i = .texEnc f ∨ i = .texDec f) → i.fmtField = w.toNat / 256 % 16)

/-- A row without an operand is matched by its one word. -/
theorem matchesRow_fixed_iff {i : Instr} (w : Word) (hrow : tableRow i = (encode i, 0xFFFFFFFF))
    (hwf : i.wf = true) (hfixed : ∀ f, i ≠ .texEnc f ∧ i ≠ .texDec f) :
    MatchesRow w i ↔ i.wf = true ∧ encode i = w := by
  have hall : w &&& 0xFFFFFFFF = w := BitVec.and_allOnes
  simp only [MatchesRow, hrow, hall, hwf, hfixed, or_self, exists_false, false_imp_iff, and_true,
    true_and]
  exact eq_comm

/-- A row of the pipeline is matched by the sixteen words that carry its UNIT and OP. -/
theorem matchesRow_pipeline_iff {i : Instr} {fmt op : Nat} (w : Word)
    (hrow : tableRow i = (commandWord 0 7 op, 0xFFFFF0FF)) (hword : encode i = commandWord fmt 7 op)
    (hfield : i.fmtField = fmt) (hcarries : ∃ f, i = .texEnc f ∨ i = .texDec f) :
    MatchesRow w i ↔ i.wf = true ∧ encode i = w := by
  obtain ⟨hzero, hfmt, hunit, hopBits⟩ := fields_and_pipelineMask w
  have hlt := fmtBits_lt w
  simp only [MatchesRow, hrow, hword, hfield, hcarries, true_imp_iff, true_and, wf_iff,
    ← fmtBits_eq, word_eq_iff_fields, hzero, hfmt, hunit, hopBits, zeroField_commandWord,
    fmtBits_commandWord, unitBits_commandWord, opBits_commandWord]
  omega

theorem matchesRow_iff (w : Word) (i : Instr) : MatchesRow w i ↔ i.wf = true ∧ encode i = w := by
  cases i
  case texEnc fmt =>
    exact matchesRow_pipeline_iff w (op := 0) rfl rfl rfl ⟨fmt, .inl rfl⟩
  case texDec fmt =>
    exact matchesRow_pipeline_iff w (op := 1) rfl rfl rfl ⟨fmt, .inr rfl⟩
  all_goals exact matchesRow_fixed_iff w (by decide) rfl fun _ => ⟨nofun, nofun⟩

/-- Settles O2: decoding to `i` and matching its row both say that the word is the encoding of `i`. -/
theorem decodeMatchesRow : Obligations.DecodeMatchesRow := fun w i =>
  decode_eq_ok_iff.trans (matchesRow_iff w i).symm

/-- Settles O3: each word is the encoding of its instruction. -/
theorem sampleWordsDecode : Obligations.SampleWordsDecode := by
  simp only [Obligations.SampleWordsDecode, decode_eq_ok_iff]
  decide

/-- No word of the encoder is of a kind that R83 lists. -/
theorem encode_isCommand (i : Instr) :
    ¬ noCommand (zeroField (encode i)) (fmtBits (encode i)) (unitBits (encode i))
      (opBits (encode i)) := by
  cases i
  all_goals simp [encode, noCommand]

theorem decode_error_of_noCommand {w : Word}
    (h : noCommand (w.toNat / 4096) (w.toNat / 256 % 16) (w.toNat / 16 % 16) (w.toNat % 16)) :
    ∃ e, decode w = .error e := by
  rw [← zeroField_eq, ← fmtBits_eq, ← unitBits_eq, ← opBits_eq] at h
  cases hdec : decode w with
  | error e => exact ⟨e, rfl⟩
  | ok i =>
    obtain ⟨_, rfl⟩ := decode_eq_ok_iff.1 hdec
    exact absurd h (encode_isCommand i)

end Sys2Proof
end

section
/-! PROOFS. The faults that come before a command reads a byte: the word that is no command (R83, R156), and the
first failing register check (R86, R153, R154, R157 to R159). -/

namespace Sys2Proof.Machine

theorem statusWord_fault (e : ErrCode) :
    statusWord true false e.code = BitVec.ofNat 32 (16 * e.code.toNat + 1) := by
  cases e <;> decide

/-- The record of R160, register by register. -/
theorem takeFault_eq_faulted (s : State) (f : FaultRecord) :
    s.takeFault f = faulted s f.err.code.toNat f.info := by
  simp only [State.takeFault, faulted, statusWord_fault]

/-! ### A word that is no command (R83) -/

theorem startCommand_noCommand {w : Word} {e : DecodeError} (s : State) (h : decode w = .error e) :
    startCommand w s = .next (faulted { s with cmd := w } 5 w) := by
  simp only [startCommand, h, takeFault_eq_faulted]
  rfl

/-- Settles O4: a word of R83's list does not decode, and `startCommand` answers such a word with IllegalCommand. -/
theorem illegalWordFaults : Obligations.IllegalWordFaults := by
  intro s w rest hhost hbusy hno
  obtain ⟨e, hdec⟩ := decode_error_of_noCommand hno
  calc step s = hostAction (goWord w) { s with host := rest } := step_of_host hhost
    _ = startCommand w { s with host := rest } := hostWriteReg_cmd { s with host := rest } w hbusy
    _ = .next (faulted { s with cmd := w, host := rest } 5 w) := startCommand_noCommand _ hdec

/-! ### The first failing check (R86, R159) -/

/-- A command runs its plan's checks before anything else. -/
theorem exec_registerCheck {i : Instr} {s : State} {p : Plan} {f : FaultRecord}
    (hp : commandPlan s i = some p) (h : firstFault (registerChecks s i) = some f) :
    exec i s = .next (faulted s f.err.code.toNat f.info) := by
  rw [exec_eq_runPlan hp, runPlan_check ((commandPlan_check hp).trans h), takeFault_eq_faulted]

/-- A command that passes its register checks tests its regions next. -/
theorem exec_notAdmitted {i : Instr} {s : State} {p : Plan} (hp : commandPlan s i = some p)
    (hoperand : operandIllegal s i = false) (h : firstFault (registerChecks s i) = none)
    (hregions : regionsAdmitted s i = false) : exec i s = .next (faulted s 7 0) := by
  obtain ⟨hins, houts⟩ := commandPlan_regions hp hoperand
  have hadm : admitted s.params.memBytes p.ins p.outs = false := by rw [hins, houts]; exact hregions
  rw [exec_eq_runPlan hp, runPlan_not_admitted ((commandPlan_check hp).trans h) hadm,
    takeFault_eq_faulted]
  rfl

/-- A command without a plan passes every check: it reads no operand register and touches no region (R140, R141). -/
theorem checks_pass_of_no_plan {i : Instr} {s : State} (h : commandPlan s i = none) :
    formatUnknown i = false ∧ operandIllegal s i = false ∧ dimensionsIllegal s i = false ∧
      regionsAdmitted s i = true := by
  cases i <;> cases h
  · exact ⟨rfl, rfl, rfl, rfl⟩
  · exact ⟨rfl, rfl, rfl, rfl⟩

/-- Settles O22: the register checks are one list in R86's order, whose first failing entry is the fault, and
admission comes after it. -/
theorem faultPriority : Obligations.FaultPriority := by
  intro i s
  cases hp : commandPlan s i with
  | none =>
    obtain ⟨hformat, hoperand, hdims, hregions⟩ := checks_pass_of_no_plan hp
    simp [hformat, hoperand, hdims, hregions]
  | some p =>
    split_ifs with hformat hoperand hdims
    · exact exec_registerCheck hp (f := unknownFormat i.fmtField) (by simp [registerChecks, hformat])
    · exact exec_registerCheck hp (f := badOperand) (by simp [registerChecks, hformat, hoperand])
    · exact exec_registerCheck hp (f := badDimensions)
        (by simp [registerChecks, hformat, hoperand, hdims])
    · exact exec_notAdmitted hp (by simpa using hoperand)
        (by simp [registerChecks, hformat, hoperand, hdims])

end Sys2Proof.Machine
end

section
/-! PROOFS. The BitPacker and BitUnpacker (R22, R30 to R38): the slots of a packed byte, Pack and Unpack slot by slot,
and the runs of the six commands. The lemmas say `packedLen`; the statements' `packedBytes` is the same by unfolding. -/

namespace Sys2Proof.Machine

/-! ### Slots (R22, R31) -/

/-- Slot `k` of a packed stream: slots fill each byte from its top (R22). -/
def slotAt (w : Nat) (bs : List Byte) (k : Nat) : Nat :=
  (bs.getD (k / (8 / w)) 0).toNat / 2 ^ (8 - w - w * (k % (8 / w))) % 2 ^ w

/-- The digits `f 0` to `f (m - 1)` in base `b`, the first one the most significant. -/
def digitSum (b : Nat) (f : Nat → Nat) (m : Nat) : Nat :=
  ((List.range m).map fun i => f i * b ^ (m - 1 - i)).sum

theorem digitSum_succ (b : Nat) (f : Nat → Nat) (m : Nat) :
    digitSum b f (m + 1) = digitSum b f m * b + f m := by
  have hshift : ∀ i ∈ List.range m, f i * b ^ (m + 1 - 1 - i) = f i * b ^ (m - 1 - i) * b := by
    intro i hi
    have hexp : m + 1 - 1 - i = m - 1 - i + 1 := by have := List.mem_range.1 hi; omega
    rw [hexp, Nat.pow_succ, Nat.mul_assoc]
  simp only [digitSum, List.range_succ, List.map_append, List.sum_append, List.map_congr_left hshift,
    List.sum_map_mul_right]
  simp

section Digits
variable {b : Nat} {f : Nat → Nat} (hf : ∀ i, f i < b)
include hf

theorem digitSum_lt (m : Nat) : digitSum b f m < b ^ m := by
  induction m with
  | zero => simp [digitSum]
  | succ m ih =>
    calc digitSum b f (m + 1) = digitSum b f m * b + f m := digitSum_succ b f m
      _ < (digitSum b f m + 1) * b := by rw [Nat.succ_mul]; exact Nat.add_lt_add_left (hf m) _
      _ ≤ b ^ (m + 1) := Nat.mul_le_mul_right b ih

theorem digit_digitSum {m i : Nat} (hi : i < m) : digitSum b f m / b ^ (m - 1 - i) % b = f i := by
  have hb : 0 < b := Nat.zero_lt_of_lt (hf 0)
  induction m with
  | zero => cases hi
  | succ m ih =>
    rcases Nat.lt_succ_iff_lt_or_eq.1 hi with hlt | rfl
    · have hexp : m + 1 - 1 - i = 1 + (m - 1 - i) := by omega
      have hinit : (digitSum b f m * b + f m) / b = digitSum b f m := by
        rw [Nat.mul_comm, Nat.mul_add_div hb, Nat.div_eq_of_lt (hf m), Nat.add_zero]
      rw [digitSum_succ, hexp, Nat.pow_add, Nat.pow_one, ← Nat.div_div_eq_div_mul, hinit, ih hlt]
    · simp [digitSum_succ, Nat.mod_eq_of_lt (hf i)]

end Digits

section Widths
variable {w : Nat} (hw : w ∈ [1, 2, 4])
include hw

theorem width_cases : w = 1 ∨ w = 2 ∨ w = 4 := by simpa using hw

theorem slots_pos : 0 < 8 / w := by rcases width_cases hw with rfl | rfl | rfl <;> decide

theorem slots_mul_width : w * (8 / w) = 8 := by rcases width_cases hw with rfl | rfl | rfl <;> rfl

theorem slotShift_eq (i : Nat) : 8 - w - w * i = w * (8 / w - 1 - i) := by
  rw [Nat.mul_sub, Nat.mul_sub, slots_mul_width hw, Nat.mul_one]

/-- A packed byte is its slots as digits in base 2^w. -/
theorem packByte_toNat (v : List Nat) (j : Nat) :
    (packByte w v j).toNat = digitSum (2 ^ w) (fun i => packSlot w v (j * (8 / w) + i)) (8 / w) := by
  have hlt := digitSum_lt (f := fun i => packSlot w v (j * (8 / w) + i))
    (fun _ => Nat.mod_lt _ (Nat.two_pow_pos w)) (8 / w)
  rw [← Nat.pow_mul, slots_mul_width hw] at hlt
  rw [← Nat.mod_eq_of_lt hlt, packByte, BitVec.toNat_ofNat]
  simp only [Nat.shiftLeft_eq, slotShift_eq hw, Nat.pow_mul, digitSum]

theorem packByte_slot (v : List Nat) (j : Nat) {i : Nat} (hi : i < 8 / w) :
    (packByte w v j).toNat / 2 ^ (8 - w - w * i) % 2 ^ w = packSlot w v (j * (8 / w) + i) := by
  rw [packByte_toNat hw, slotShift_eq hw, Nat.pow_mul]
  exact digit_digitSum (f := fun i => packSlot w v (j * (8 / w) + i))
    (fun _ => Nat.mod_lt _ (Nat.two_pow_pos w)) hi

/-- The packed length has a slot for every value (R30). -/
theorem lt_slots_of_lt {k n : Nat} (hk : k < n) : k < 8 / w * packedLen n w := by
  rcases width_cases hw with rfl | rfl | rfl <;> simp only [packedLen, ceilDiv] <;> omega

/-! ### Pack and Unpack, slot by slot (R31, R32) -/

theorem slotAt_pack (v : List Nat) {k : Nat} (hk : k < 8 / w * packedLen v.length w) :
    slotAt w (pack w v) k = packSlot w v k := by
  have hbyte : (pack w v).getD (k / (8 / w)) 0 = packByte w v (k / (8 / w)) := by
    simp [pack, List.getD_eq_getElem?_getD, List.getElem?_range (Nat.div_lt_of_lt_mul hk)]
  rw [slotAt, hbyte, packByte_slot hw v _ (Nat.mod_lt k (slots_pos hw)), Nat.div_add_mod']

theorem slotAt_take {n k : Nat} (bs : List Byte) (hk : k < n) :
    slotAt w (bs.take (packedLen n w)) k = slotAt w bs k := by
  have hbyte := Nat.div_lt_of_lt_mul (lt_slots_of_lt hw hk)
  simp only [slotAt, List.getD_eq_getElem?_getD, List.getElem?_take_of_lt hbyte]

/-- A slot of a legal width is its own value as a byte. -/
theorem slotAt_lt (bs : List Byte) (k : Nat) : slotAt w bs k < 256 := by
  have hslot : slotAt w bs k < 2 ^ w := Nat.mod_lt _ (Nat.two_pow_pos w)
  rcases width_cases hw with rfl | rfl | rfl <;> omega

end Widths

theorem packSlot_byteValues (w : Nat) (v : List Byte) (k : Nat) :
    packSlot w (byteValues v) k = if k < v.length then (v.getD k 0).toNat % 2 ^ w else 0 := by
  split_ifs with hk
  · simp [packSlot, byteValues, hk]
  · simp [packSlot, byteValues, List.getElem?_eq_none (Nat.le_of_not_lt hk)]

theorem unpack_eq_map_slotAt (w n : Nat) (bs : List Byte) :
    unpack w n bs = (List.range n).map (slotAt w bs) :=
  List.map_congr_left fun _ _ => bitField_eq _ _ _

theorem unpack_getD {n k : Nat} (w : Nat) (bs : List Byte) (hk : k < n) :
    (unpack w n bs).getD k 0 = slotAt w bs k := by
  simp [unpack_eq_map_slotAt, List.getD_eq_getElem?_getD, List.getElem?_range hk]

theorem unpack_take {w : Nat} (hw : w ∈ [1, 2, 4]) (n : Nat) (bs : List Byte) :
    unpack w n (bs.take (packedLen n w)) = unpack w n bs := by
  rw [unpack_eq_map_slotAt, unpack_eq_map_slotAt]
  exact List.map_congr_left fun k hk => slotAt_take hw bs (List.mem_range.1 hk)

theorem unpack_pack {w : Nat} (hw : w ∈ [1, 2, 4]) (v : List Nat) :
    unpack w v.length (pack w v) = v.map fun x => x % 2 ^ w := by
  refine List.ext_getElem (by simp) fun k hk _ => ?_
  have hkv : k < v.length := by simpa using hk
  calc (unpack w v.length (pack w v))[k]
      = slotAt w (pack w v) k := by simp [unpack_eq_map_slotAt]
    _ = packSlot w v k := slotAt_pack hw v (lt_slots_of_lt hw hkv)
    _ = (v.map fun x => x % 2 ^ w)[k] := by simp [packSlot, hkv]

/-! ### The obligations -/

/-- Settles O28: Unpack is its slots, and a slot of Pack is the low bits of a value. -/
theorem unpackFunction : Obligations.UnpackFunction := fun _ hw =>
  ⟨fun n bs => ⟨unpack_length _ n bs, unpack_take hw n bs, fun _ hk => unpack_getD _ bs hk⟩,
    unpack_pack hw⟩

/-- The command of each width runs the plan of its width (R33 to R38). -/
theorem commandPlan_of_width {plan : Nat → State → Plan} {i₁ i₂ i₄ i : Instr} {w : Nat}
    (h₁ : ∀ s, commandPlan s i₁ = some (plan 1 s)) (h₂ : ∀ s, commandPlan s i₂ = some (plan 2 s))
    (h₄ : ∀ s, commandPlan s i₄ = some (plan 4 s)) (h : (i, w) ∈ [(i₁, 1), (i₂, 2), (i₄, 4)]) :
    w ∈ [1, 2, 4] ∧ ∀ s, commandPlan s i = some (plan w s) := by
  simp only [List.mem_cons, Prod.mk.injEq, List.not_mem_nil, or_false] at h
  rcases h with ⟨rfl, rfl⟩ | ⟨rfl, rfl⟩ | ⟨rfl, rfl⟩
  · exact ⟨by decide, h₁⟩
  · exact ⟨by decide, h₂⟩
  · exact ⟨by decide, h₄⟩

/-- Settles O26: the plan stores Pack of the input's values, whose slots are `slotAt_pack`'s. -/
theorem packCompletes : Obligations.PackCompletes := by
  intro i w hi s v hacc hread
  obtain ⟨hw, hplan⟩ :=
    commandPlan_of_width (plan := packPlan) (fun _ => rfl) (fun _ => rfl) (fun _ => rfl) hi
  have hv : v.length = s.count.toNat := readBytes_length hread
  have hlen : (pack w (byteValues v)).length = packedLen s.count.toNat w := by simp [hv]
  obtain ⟨t, ht, hstored⟩ := exec_streamPlan hacc (hplan s) hread hlen fun hne hzero =>
    hne (by simp [hzero, packedLen, ceilDiv])
  refine ⟨t, _, ht, hstored, hlen, fun k hk => ?_⟩
  rw [pack_length] at hk
  rw [← hv]
  exact (slotAt_pack hw _ hk).trans (packSlot_byteValues w v k)

/-- Settles O27: the plan stores the values of Unpack, which are the input's slots. -/
theorem unpackCompletes : Obligations.UnpackCompletes := by
  intro i w hi s v hacc hread
  obtain ⟨hw, hplan⟩ :=
    commandPlan_of_width (plan := unpackPlan) (fun _ => rfl) (fun _ => rfl) (fun _ => rfl) hi
  have hlen : (valueBytes (unpack w s.countVal v)).length = s.countVal := by simp
  obtain ⟨t, ht, hstored⟩ := exec_streamPlan hacc (hplan s) hread hlen fun hne =>
    Nat.ne_zero_of_mul_ne_zero_right
      (Nat.ne_zero_of_lt (lt_slots_of_lt hw (Nat.pos_of_ne_zero hne)))
  refine ⟨t, _, ht, hstored, hlen, fun k hk => ?_⟩
  have hbyte : (valueBytes (unpack w s.countVal v)).getD k 0 = BitVec.ofNat 8 (slotAt w v k) := by
    have hcount : k < s.countVal := hk
    simp [valueBytes, unpack_eq_map_slotAt, hcount]
  rw [hbyte, BitVec.toNat_ofNat]
  exact Nat.mod_eq_of_lt (slotAt_lt hw v k)

end Sys2Proof.Machine
end

section
/-! PROOFS. The ColorConverter's channel primitives (R40, R41) and one-byte encodings (R43 to R49). The runs of the
two converter plans, and `widen3` to `widen6` as `spread`, are those of the two- and four-byte encodings above. -/

namespace Sys2Proof.Machine

/-! ### Narrowing (R40) -/

theorem narrow_lt (n : Nat) {v : Nat} (hv : v < 256) : narrow n v < 2 ^ n :=
  narrow_eq_codeOf n v ▸ codeOf_lt n (BitVec.ofNatLT v hv)

theorem narrow_zero (n : Nat) : narrow n 0 = 0 := by simp [narrow]

theorem narrow_255 (n : Nat) : narrow n 255 = 2 ^ n - 1 := by
  rw [narrow, Nat.mul_add_div (by decide)]
  rfl

theorem narrow_mono (n : Nat) {u v : Nat} (h : u ≤ v) : narrow n u ≤ narrow n v :=
  Nat.div_le_div_right (Nat.add_le_add_right (Nat.mul_le_mul_right _ h) 127)

/-- 255 is odd, so rounding to a multiple of it has no tie: the nearest is within 127, any other at least 128 away. -/
theorem rounded_multiple_nearest {t c : Nat} (hc : c ≠ (t + 127) / 255) :
    ((255 * ((t + 127) / 255 : Nat) : Int) - t).natAbs < ((255 * c : Int) - t).natAbs := by
  have hnear : ((255 * ((t + 127) / 255 : Nat) : Int) - t).natAbs ≤ 127 := by omega
  have hfar : 128 ≤ ((255 * c : Int) - t).natAbs := by omega
  omega

theorem narrow_nearest {n v c : Nat} (hc : c ≠ narrow n v) :
    ((255 * narrow n v : Int) - v * (2 ^ n - 1)).natAbs <
      ((255 * c : Int) - v * (2 ^ n - 1)).natAbs := by
  have hcast : ((v * (2 ^ n - 1) : Nat) : Int) = v * (2 ^ n - 1) := by
    rw [Nat.cast_mul, Nat.cast_pred (Nat.two_pow_pos n), Nat.cast_pow, Nat.cast_ofNat]
  rw [← hcast]
  exact rounded_multiple_nearest hc

/-! ### Widening (R41) -/

section Widths
variable {n : Nat} (hn : n ∈ [3, 4, 5, 6])
include hn

theorem channelWidth_cases : n = 3 ∨ n = 4 ∨ n = 5 ∨ n = 6 := by simpa using hn

theorem spread_zero : spread n 0 = 0 := by
  rcases channelWidth_cases hn with rfl | rfl | rfl | rfl <;> rfl

theorem spread_max : spread n (2 ^ n - 1) = 255 := by
  rcases channelWidth_cases hn with rfl | rfl | rfl | rfl <;> rfl

/-- Replication comes within half a step of c × 255 / (2^n - 1), so narrowing goes back to c. -/
theorem narrow_spread {c : Nat} (hc : c < 2 ^ n) : narrow n (spread n c) = c := by
  rcases channelWidth_cases hn with rfl | rfl | rfl | rfl <;>
    (simp only [narrow, spread]; omega)

end Widths

theorem spread_narrow_near {n bound v : Nat} (h : (n, bound) ∈ [(3, 18), (4, 8), (5, 4), (6, 2)])
    (hv : v < 256) : ((spread n (narrow n v) : Int) - v).natAbs ≤ bound := by
  simp only [List.mem_cons, Prod.mk.injEq, List.not_mem_nil, or_false] at h
  rcases h with ⟨rfl, rfl⟩ | ⟨rfl, rfl⟩ | ⟨rfl, rfl⟩ | ⟨rfl, rfl⟩ <;>
    (simp only [narrow, spread]; omega)

/-- A function that replicates the bits of every code obeys the laws of R41. -/
theorem wideningLaws_of_spread {n bound : Nat} {x : Nat → Nat}
    (h : (n, bound) ∈ [(3, 18), (4, 8), (5, 4), (6, 2)])
    (hx : ∀ {c}, c < 2 ^ n → x c = spread n c ∧ spread n c < 256) :
    x 0 = 0 ∧ x (2 ^ n - 1) = 255 ∧ (∀ c < 2 ^ n, x c = spread n c ∧ narrow n (x c) = c) ∧
      ∀ v < 256, ((x (narrow n v) : Int) - v).natAbs ≤ bound := by
  have hn : n ∈ [3, 4, 5, 6] := List.mem_map_of_mem (f := Prod.fst) h
  have hpos := Nat.two_pow_pos n
  have heq : ∀ c < 2 ^ n, x c = spread n c := fun c hc => (hx hc).1
  refine ⟨?_, ?_, fun c hc => ⟨heq c hc, ?_⟩, fun v hv => ?_⟩
  · rw [heq 0 hpos, spread_zero hn]
  · rw [heq _ (Nat.sub_one_lt hpos.ne'), spread_max hn]
  · rw [heq c hc, narrow_spread hn hc]
  · rw [heq _ (narrow_lt n hv)]
    exact spread_narrow_near h hv

/-! ### One-byte codes (R44, R46, R48) -/

theorem encI4_eq {p : Params} (h : p.valid = true) (x : Pixel) :
    encI4 p x = encodedCode p x .cvtEI4 ∧ encodedCode p x .cvtEI4 < 256 ^ 1 :=
  ⟨congrArg (narrow 4) (luma_eq_lumaOf p x), (narrow_lt 4 (lumaOf_lt h x)).trans (by decide)⟩

theorem encI8_eq {p : Params} (h : p.valid = true) (x : Pixel) :
    encI8 p x = encodedCode p x .cvtEI8 ∧ encodedCode p x .cvtEI8 < 256 ^ 1 :=
  ⟨luma_eq_lumaOf p x, lumaOf_lt h x⟩

theorem encIA44_eq {p : Params} (h : p.valid = true) (x : Pixel) :
    encIA44 p x = encodedCode p x .cvtEIA44 ∧ encodedCode p x .cvtEIA44 < 256 ^ 1 := by
  have ha := narrow_lt 4 x.a.isLt
  have hl := narrow_lt 4 (lumaOf_lt h x)
  simp only [encIA44, encodedCode, luma_eq_lumaOf, ← narrow_eq_codeOf, Nat.shiftLeft_eq]
  rw [or_eq_add 4 (by omega) hl]
  omega

/-! ### Channels of a one-byte code (R45, R47, R49) -/

/-- Bits 7:4 are ignored, so this holds of every code. -/
theorem decI4_channels (c : Nat) : channelsOf (decI4 c) = decodedChannels c .cvtDI4 := by
  simp [decI4, channelsOf_ofNats, decodedChannels, toNat_widened widen4_eq_spread,
    -BitVec.toNat_ofNat]

theorem decI8_channels {c : Nat} (h : c < 256 ^ 1) :
    channelsOf (decI8 c) = decodedChannels c .cvtDI8 := by
  have hbyte : c % 256 = c := Nat.mod_eq_of_lt h
  simp [decI8, widen8, channelsOf_ofNats, decodedChannels, toNat_byteField, hbyte,
    -BitVec.toNat_ofNat]

theorem decIA44_channels {c : Nat} (h : c < 256 ^ 1) :
    channelsOf (decIA44 c) = decodedChannels c .cvtDIA44 := by
  have htop : c / 16 % 16 = c / 16 := by omega
  simp [decIA44, channelsOf_ofNats, decodedChannels, toNat_widened widen4_eq_spread, htop,
    -BitVec.toNat_ofNat]

/-! ### The obligations -/

/-- Settles O31: each of the three is its encoding's plan, with the rule's code in the element. -/
theorem encodeToOneByte : Obligations.EncodeToOneByte := by
  intro i hi
  simp only [List.mem_cons, List.not_mem_nil, or_false] at hi
  rcases hi with rfl | rfl | rfl
  · exact converterEncodes_of_code .i4 (fun _ => rfl) fun _ hp x => encI4_eq hp x
  · exact converterEncodes_of_code .i8 (fun _ => rfl) fun _ hp x => encI8_eq hp x
  · exact converterEncodes_of_code .ia44 (fun _ => rfl) fun _ hp x => encIA44_eq hp x

/-- Settles O34: each of the three is its encoding's plan, with the rule's channels in the pixel. -/
theorem decodeFromOneByte : Obligations.DecodeFromOneByte := by
  intro i hi
  simp only [List.mem_cons, List.not_mem_nil, or_false] at hi
  rcases hi with rfl | rfl | rfl
  · exact converterDecodes_of_channels .i4 (fun _ => rfl) fun c _ => decI4_channels c
  · exact converterDecodes_of_channels .i8 (fun _ => rfl) fun _ => decI8_channels
  · exact converterDecodes_of_channels .ia44 (fun _ => rfl) fun _ => decIA44_channels

/-- Settles O29: narrowing rounds to a multiple of 255; none of its laws depends on the width. -/
theorem narrowingIsNearest : Obligations.NarrowingIsNearest := fun n _ _ hv =>
  ⟨rfl, narrow_lt n hv, fun _ _ => narrow_nearest, narrow_zero n, narrow_255 n,
    fun _ => narrow_mono n⟩

/-- Settles O30: each widening is `spread` of its width, which has the laws. -/
theorem wideningLaws : Obligations.WideningLaws := by
  refine ⟨fun _ => rfl, fun n x bound h => ?_⟩
  simp only [List.mem_cons, Prod.mk.injEq, List.not_mem_nil, or_false] at h
  rcases h with ⟨rfl, rfl, rfl⟩ | ⟨rfl, rfl, rfl⟩ | ⟨rfl, rfl, rfl⟩ | ⟨rfl, rfl, rfl⟩
  · exact wideningLaws_of_spread (by decide) widen3_eq_spread
  · exact wideningLaws_of_spread (by decide) widen4_eq_spread
  · exact wideningLaws_of_spread (by decide) widen5_eq_spread
  · exact wideningLaws_of_spread (by decide) widen6_eq_spread

end Sys2Proof.Machine
end

section
/-! PROOFS. The Quantizer's histogram and BuildPalette (R61, R62): the key of a colour, what the histogram holds, and
the three ends of BuildPalette. -/

namespace Sys2Proof.Machine

/-! ### The key of a colour (R61) -/

theorem pixelKey_eq_keyOf (x : Pixel) : pixelKey x = keyOf x := by
  have hg := x.g.isLt
  have hb := x.b.isLt
  have ha := x.a.isLt
  simp only [pixelKey, keyOf, Nat.shiftLeft_eq]
  rw [or_eq_add 24 (a := _ * _) (by omega) (by omega),
    or_eq_add 16 (a := _ + _) (by omega) (by omega),
    or_eq_add 8 (a := _ + _) (by omega) (by omega)]
  omega

theorem Pixel.ext_toNat {x y : Pixel} (hr : x.r.toNat = y.r.toNat) (hg : x.g.toNat = y.g.toNat)
    (hb : x.b.toNat = y.b.toNat) (ha : x.a.toNat = y.a.toNat) : x = y := by
  cases x
  cases y
  simp only [Pixel.mk.injEq]
  exact ⟨BitVec.eq_of_toNat_eq hr, BitVec.eq_of_toNat_eq hg, BitVec.eq_of_toNat_eq hb,
    BitVec.eq_of_toNat_eq ha⟩

/-- The key tells any two colours apart. -/
theorem keyOf_injective {x y : Pixel} (h : keyOf x = keyOf y) : x = y := by
  have hx := And.intro x.g.isLt (And.intro x.b.isLt x.a.isLt)
  have hy := And.intro y.g.isLt (And.intro y.b.isLt y.a.isLt)
  simp only [keyOf] at h
  apply Pixel.ext_toNat <;> omega

/-! ### The histogram (R61) -/

/-- The order in which a histogram is kept. -/
def KeysRise (h : Box) : Prop := h.Pairwise fun e f => keyOf e.1 < keyOf f.1

/-- How many pixels of the colour `x` a histogram has counted. -/
def colourCount (h : Box) (x : Pixel) : Nat := (h.map fun e => if e.1 = x then e.2 else 0).sum

theorem colourCount_cons (e : Pixel × Nat) (h : Box) (x : Pixel) :
    colourCount (e :: h) x = (if e.1 = x then e.2 else 0) + colourCount h x := by
  simp [colourCount]

/-- What a histogram holds: counts of at least 1, and its colours by rising key. -/
structure HistogramForm (h : Box) : Prop where
  rising : KeysRise h
  positive : ∀ e ∈ h, 0 < e.2

theorem colour_mem_countPixel {p : Pixel} {h : Box} {e : Pixel × Nat} (he : e ∈ countPixel p h) :
    e.1 = p ∨ ∃ f ∈ h, f.1 = e.1 := by
  induction h with
  | nil => left; simp_all [countPixel]
  | cons f h ih =>
    simp only [countPixel] at he
    split_ifs at he with hlt heq
    · rcases List.mem_cons.1 he with rfl | he
      · exact .inl rfl
      · exact .inr ⟨e, he, rfl⟩
    · rcases List.mem_cons.1 he with rfl | he
      · exact .inl heq.symm
      · exact .inr ⟨e, List.mem_cons_of_mem f he, rfl⟩
    · rcases List.mem_cons.1 he with rfl | he
      · exact .inr ⟨e, List.mem_cons_self, rfl⟩
      · refine (ih he).imp_right ?_
        rintro ⟨g, hg, hge⟩
        exact ⟨g, List.mem_cons_of_mem f hg, hge⟩

theorem countPixel_rising {p : Pixel} {h : Box} (hr : KeysRise h) : KeysRise (countPixel p h) := by
  induction h with
  | nil => exact List.pairwise_singleton _ _
  | cons f h ih =>
    obtain ⟨hfirst, hrest⟩ := List.pairwise_cons.1 hr
    simp only [countPixel, pixelKey_eq_keyOf]
    split_ifs with hlt heq
    · refine List.pairwise_cons.2 ⟨fun e he => ?_, hr⟩
      rcases List.mem_cons.1 he with rfl | he
      · exact hlt
      · exact hlt.trans (hfirst e he)
    · exact List.pairwise_cons.2 ⟨hfirst, hrest⟩
    · refine List.pairwise_cons.2 ⟨fun e he => ?_, ih hrest⟩
      rcases colour_mem_countPixel he with hp | ⟨g, hg, hge⟩
      · have hne : keyOf p ≠ keyOf f.1 := fun hk => heq (keyOf_injective hk)
        rw [hp]
        omega
      · exact hge ▸ hfirst g hg

theorem countPixel_positive {p : Pixel} {h : Box} (hp : ∀ e ∈ h, 0 < e.2) :
    ∀ e ∈ countPixel p h, 0 < e.2 := by
  induction h with
  | nil => simp [countPixel]
  | cons f h ih =>
    obtain ⟨hf, hrest⟩ := List.forall_mem_cons.1 hp
    simp only [countPixel]
    split_ifs
    · exact List.forall_mem_cons.2 ⟨Nat.one_pos, hp⟩
    · exact List.forall_mem_cons.2 ⟨Nat.succ_pos _, hrest⟩
    · exact List.forall_mem_cons.2 ⟨hf, ih hrest⟩

theorem colourCount_countPixel (p : Pixel) (h : Box) (x : Pixel) :
    colourCount (countPixel p h) x = colourCount h x + if p = x then 1 else 0 := by
  induction h with
  | nil => simp [countPixel, colourCount]
  | cons f h ih =>
    simp only [countPixel]
    split
    next => rw [colourCount_cons, Nat.add_comm]
    next =>
      split
      next heq => subst heq; simp only [colourCount_cons]; split_ifs <;> omega
      next => rw [colourCount_cons, colourCount_cons, ih, Nat.add_assoc]

/-- In a histogram the pairs are the colours that occur, each with its count. -/
theorem HistogramForm.mem_iff {h : Box} (hh : HistogramForm h) (x : Pixel) (m : Nat) :
    (x, m) ∈ h ↔ 0 < m ∧ m = colourCount h x := by
  obtain ⟨hr, hp⟩ := hh
  induction h generalizing m with
  | nil => simp [colourCount]; omega
  | cons f h ih =>
    obtain ⟨hfirst, hrest⟩ := List.pairwise_cons.1 hr
    obtain ⟨hf, hpos⟩ := List.forall_mem_cons.1 hp
    have ih := fun n => ih n hrest hpos
    rw [List.mem_cons, colourCount_cons]
    split_ifs with hfx
    · -- the colour of the first entry is in no other one
      have habsent : ∀ n, (x, n) ∉ h := fun n hn => (hfx ▸ hfirst (x, n) hn).ne rfl
      have hzero : colourCount h x = 0 :=
        Nat.eq_zero_of_not_pos fun hlt => habsent _ ((ih _).2 ⟨hlt, rfl⟩)
      grind
    · grind

theorem histogram_concat (px : List Pixel) (p : Pixel) :
    histogram (px ++ [p]) = countPixel p (histogram px) := by
  simp [histogram]

theorem histogram_form (px : List Pixel) : HistogramForm (histogram px) := by
  induction px using List.reverseRecOn with
  | nil => exact ⟨List.Pairwise.nil, nofun⟩
  | append_singleton px p ih =>
    rw [histogram_concat]
    exact ⟨countPixel_rising ih.rising, countPixel_positive ih.positive⟩

theorem colourCount_histogram (px : List Pixel) (x : Pixel) :
    colourCount (histogram px) x = px.count x := by
  induction px using List.reverseRecOn with
  | nil => rfl
  | append_singleton px p ih =>
    simp [histogram_concat, colourCount_countPixel, ih, List.count_singleton]

/-- The histogram is the colours of the raster with their counts. -/
theorem mem_histogram_iff (px : List Pixel) (x : Pixel) (m : Nat) :
    (x, m) ∈ histogram px ↔ x ∈ px ∧ m = px.count x := by
  rw [(histogram_form px).mem_iff, colourCount_histogram, ← List.count_pos_iff]
  constructor <;> rintro ⟨hpos, rfl⟩ <;> exact ⟨hpos, rfl⟩

/-- The colours of the histogram, by rising key. -/
theorem histogram_colours_rising (px : List Pixel) :
    ((histogram px).map Prod.fst).Pairwise fun x y => keyOf x < keyOf y :=
  List.pairwise_map.2 (histogram_form px).rising

theorem mem_histogram_colours_iff (px : List Pixel) (x : Pixel) :
    x ∈ (histogram px).map Prod.fst ↔ x ∈ px := by
  simp [mem_histogram_iff]

theorem nodup_of_keys_rise {α : Type} {l : List α} {key : α → Nat}
    (h : l.Pairwise fun x y => key x < key y) : l.Nodup :=
  h.imp fun hlt heq => (heq ▸ hlt).ne rfl

/-- The histogram has one entry per distinct colour. -/
theorem histogram_length (px : List Pixel) : (histogram px).length = distinctColours px := by
  have hperm : ((histogram px).map Prod.fst).Perm px.dedup :=
    (List.perm_ext_iff_of_nodup (nodup_of_keys_rise (histogram_colours_rising px))
      (List.nodup_dedup px)).2 fun x => by rw [mem_histogram_colours_iff, List.mem_dedup]
  simpa [distinctColours] using hperm.length_eq

/-- Rasters with the same pixels in another order have the same histogram (R62). -/
theorem histogram_perm {px px' : List Pixel} (h : px.Perm px') : histogram px = histogram px' := by
  have hrise := (histogram_form px).rising
  have hrise' := (histogram_form px').rising
  have hperm : (histogram px).Perm (histogram px') :=
    (List.perm_ext_iff_of_nodup (nodup_of_keys_rise hrise) (nodup_of_keys_rise hrise')).2 fun e => by
      rw [mem_histogram_iff, mem_histogram_iff, h.mem_iff, h.count_eq]
  exact hperm.eq_of_pairwise (fun _ _ _ _ hlt hgt => absurd hlt hgt.asymm) hrise hrise'

/-! ### The three ends of BuildPalette (R61, R155) -/

section BuildPalette
variable {px : List Pixel} {k : Nat}

theorem buildPalette_exact (h : distinctColours px ≤ k) (strict : Bool) :
    buildPalette px k strict = .ok ((histogram px).map Prod.fst) := by
  simp [buildPalette, histogram_length, h]

theorem buildPalette_tooMany (h : k < distinctColours px) :
    buildPalette px k true =
      .error ⟨.tooManyUniqueColors, BitVec.ofNat 32 (distinctColours px)⟩ := by
  simp [buildPalette, histogram_length, Nat.not_le.2 h]

theorem buildPalette_cut (h : k < distinctColours px) :
    buildPalette px k false = .ok (medianCut (histogram px) k) := by
  simp [buildPalette, histogram_length, Nat.not_le.2 h]

end BuildPalette

/-- Settles O40: the histogram is its raster's multiset of colours, and BuildPalette is a function of it. -/
theorem paletteRule : Obligations.PaletteRule := fun px =>
  ⟨mem_histogram_iff px, (histogram_form px).rising, fun k =>
    ⟨fun strict h => buildPalette_exact h strict, buildPalette_tooMany, fun strict px' h => by
      simp only [buildPalette, histogram_perm h]⟩⟩

end Sys2Proof.Machine
end

section
/-! PROOFS. MapIndices (R63 to R65): the nearest entry of a palette, the targets of the error diffusion pixel by pixel,
and the diffusion against a palette that holds every colour. -/

namespace Sys2Proof.Machine

/-! ### The nearest entry (R63) -/

theorem sqDiff_eq (x y : Byte) : (sqDiff x y : Int) = ((x.toNat : Int) - y.toNat) ^ 2 := by
  rw [sqDiff, Nat.cast_pow, Int.natCast_natAbs, sq_abs]

theorem distRGBA_eq (p q : Pixel) : (distRGBA p q : Int) = squaredRGBA p q := by
  simp only [distRGBA, Nat.cast_add, sqDiff_eq, squaredRGBA, squaredRGB]

theorem nearest_leastAt {pal : List Pixel} (hpal : pal ≠ []) (p : Pixel) :
    LeastAt (fun j => squaredRGBA p (pal.getD j Pixel.zero)) pal.length (nearest pal p) := by
  obtain ⟨hlt, hmin, hfirst⟩ := argMin_spec (ds := pal.map (distRGBA p)) (by simpa using hpal)
  have hdist : ∀ j (hj : j < pal.length),
      squaredRGBA p (pal.getD j Pixel.zero) = distRGBA p pal[j] := fun j hj => by
    rw [List.getD_eq_getElem _ _ hj, distRGBA_eq]
  simp only [List.length_map, List.getElem_map] at hlt hmin hfirst
  refine ⟨hlt, fun j hj => ?_, fun j hj => ?_⟩
  · beta_reduce
    rw [nearest, hdist _ hlt, hdist j hj]
    exact Int.ofNat_le.2 (hmin j hj)
  · beta_reduce
    rw [nearest, hdist _ hlt, hdist j (hj.trans hlt)]
    exact Int.ofNat_lt.2 (hfirst j hj)

theorem nearest_lt {pal : List Pixel} (hpal : pal ≠ []) (p : Pixel) : nearest pal p < pal.length :=
  (nearest_leastAt hpal p).1

theorem distRGBA_eq_zero_iff (p q : Pixel) : distRGBA p q = 0 ↔ p = q := by
  constructor
  · intro h
    simp only [distRGBA, sqDiff, Nat.add_eq_zero_iff, ne_eq, OfNat.ofNat_ne_zero, not_false_eq_true,
      pow_eq_zero_iff, Int.natAbs_eq_zero] at h
    apply Pixel.ext_toNat <;> omega
  · rintro rfl
    simp [distRGBA, sqDiff]

/-- A colour of the palette is its own nearest entry. -/
theorem nearest_entry {pal : List Pixel} {p : Pixel} (h : p ∈ pal) :
    pal.getD (nearest pal p) Pixel.zero = p := by
  obtain ⟨j, hj, rfl⟩ := List.getElem_of_mem h
  obtain ⟨_, hmin, _⟩ := nearest_leastAt (List.ne_nil_of_mem h) pal[j]
  have hzero := hmin j hj
  simp only [← distRGBA_eq, List.getD_eq_getElem pal _ hj,
    (distRGBA_eq_zero_iff pal[j] pal[j]).2 rfl] at hzero
  exact ((distRGBA_eq_zero_iff _ _).1 (by omega)).symm

/-! ### Positions in an error row (R65) -/

theorem getD_addError {row : List Diffusion} {c : Nat} (hc : c < row.length) (x : Nat) (k : Int)
    (e : Diffusion) :
    (addError row x k e).getD c Diffusion.zero =
      if c = x then (row.getD c Diffusion.zero).plus k e else row.getD c Diffusion.zero := by
  simp only [addError, List.getD_eq_getElem?_getD, List.getElem?_modify, List.getElem?_eq_getElem hc,
    eq_comm (a := x)]
  split <;> rfl

@[simp] theorem addError_length (row : List Diffusion) (x : Nat) (k : Int) (e : Diffusion) :
    (addError row x k e).length = row.length := by simp [addError]

@[simp] theorem spreadBelow_length (nxt : List Diffusion) (x : Nat) (e : Diffusion) :
    (spreadBelow nxt x e).length = nxt.length := by
  simp only [spreadBelow]
  split <;> simp

/-! ### The targets of a diffusion (R65) -/

/-- The error of a pixel whose target is `t`: the target less the entry chosen for it. -/
def entryError (pal : List Pixel) (t : Pixel) : Diffusion :=
  quantError t (pal.getD (nearest pal t) Pixel.zero)

/-- The targets of the pixels of one row from column `x` on, `cur` being the errors carried into the row. -/
def rowTargets (pal : List Pixel) (x : Nat) (cur : List Diffusion) : List Pixel → List Pixel
  | [] => []
  | p :: rest =>
    let t := diffuseTarget p (cur.getD x Diffusion.zero)
    t :: rowTargets pal (x + 1) (addError cur (x + 1) 7 (entryError pal t)) rest

/-- The error row below after the targets `ts`, the first of them in column `x`. -/
def carryBelow (pal : List Pixel) (x : Nat) (nxt : List Diffusion) : List Pixel → List Diffusion
  | [] => nxt
  | t :: ts => carryBelow pal (x + 1) (spreadBelow nxt x (entryError pal t)) ts

/-- The targets of every row, `cur` being the errors carried into the first of them. -/
def rasterTargets (pal : List Pixel) (w : Nat) (cur : List Diffusion) :
    List (List Pixel) → List (List Pixel)
  | [] => []
  | row :: rest =>
    let ts := rowTargets pal 0 cur row
    ts :: rasterTargets pal w (carryBelow pal 0 (List.replicate w Diffusion.zero) ts) rest

@[simp] theorem rowTargets_length (pal : List Pixel) (x : Nat) (cur : List Diffusion)
    (row : List Pixel) : (rowTargets pal x cur row).length = row.length := by
  induction row generalizing x cur with
  | nil => rfl
  | cons p row ih => simp [rowTargets, ih]

/-- One row of the model: the nearest entries of the targets, and the errors they leave below. -/
theorem ditherRow_eq (pal : List Pixel) (lastRow : Bool) (x : Nat) (cur nxt : List Diffusion)
    (row : List Pixel) :
    ditherRow pal lastRow x cur nxt row =
      ((rowTargets pal x cur row).map (nearest pal),
        if lastRow then nxt else carryBelow pal x nxt (rowTargets pal x cur row)) := by
  induction row generalizing x cur nxt with
  | nil => cases lastRow <;> rfl
  | cons p row ih =>
    cases lastRow <;> simp only [ditherRow, ih, rowTargets, carryBelow, entryError] <;> rfl

/-- The errors the last row would leave are used by no row. -/
theorem ditherRows_eq (pal : List Pixel) (w : Nat) (cur : List Diffusion) (rows : List (List Pixel)) :
    ditherRows pal w cur rows = (rasterTargets pal w cur rows).flatten.map (nearest pal) := by
  induction rows generalizing cur with
  | nil => rfl
  | cons row rest ih =>
    simp only [ditherRows, ditherRow_eq, rasterTargets, ih, List.flatten_cons, List.map_append]
    cases rest <;> rfl

/-! ### One channel of a diffusion -/

/-- A channel of a pixel and the same channel of an error. -/
structure SameChannel (ch : Pixel → Byte) (err : Diffusion → Int) : Prop where
  zero : err Diffusion.zero = 0
  plus : ∀ d k e, err (d.plus k e) = err d + k * err e
  target : ∀ p e, ch (diffuseTarget p e) = diffuseChannel (ch p) (err e)
  error : ∀ t q, err (quantError t q) = ((ch t).toNat : Int) - (ch q).toNat

theorem exists_sameChannel {ch : Pixel → Byte} (h : ch ∈ [Pixel.r, Pixel.g, Pixel.b, Pixel.a]) :
    ∃ err, SameChannel ch err := by
  simp only [List.mem_cons, List.not_mem_nil, or_false] at h
  rcases h with rfl | rfl | rfl | rfl
  · exact ⟨Diffusion.r, rfl, fun _ _ _ => rfl, fun _ _ => rfl, fun _ _ => rfl⟩
  · exact ⟨Diffusion.g, rfl, fun _ _ _ => rfl, fun _ _ => rfl, fun _ _ => rfl⟩
  · exact ⟨Diffusion.b, rfl, fun _ _ _ => rfl, fun _ _ => rfl, fun _ _ => rfl⟩
  · exact ⟨Diffusion.a, rfl, fun _ _ _ => rfl, fun _ _ => rfl, fun _ _ => rfl⟩

theorem diffuseChannel_toNat (v : Byte) (err : Int) :
    ((diffuseChannel v err).toNat : Int) = max 0 (min 255 ((v.toNat : Int) + (err + 8) / 16)) := by
  rw [diffuseChannel, BitVec.toNat_ofNat]
  omega

/-- The value of `f` in column `c` if `c` is one of the `n` columns from `x` on, and nothing elsewhere. -/
def onColumns (x n : Nat) (f : Nat → Int) (c : Nat) : Int := if x ≤ c ∧ c < x + n then f c else 0

theorem onColumns_zero (x : Nat) (f : Nat → Int) (c : Nat) : onColumns x 0 f c = 0 :=
  if_neg (by omega)

theorem onColumns_succ (x n : Nat) (f : Nat → Int) (c : Nat) :
    onColumns x (n + 1) f c = (if c = x then f x else 0) + onColumns (x + 1) n f c := by
  simp only [onColumns]
  by_cases hx : c = x
  · subst hx
    rw [if_pos (by omega), if_pos rfl, if_neg (by omega), Int.add_zero]
  · have hiff : x ≤ c ∧ c < x + (n + 1) ↔ x + 1 ≤ c ∧ c < x + 1 + n := by omega
    rw [if_neg hx, Int.zero_add]
    simp only [hiff]

section Channel
variable {ch : Pixel → Byte} {err : Diffusion → Int} (hch : SameChannel ch err)
include hch

/-- One channel of a pixel's error: its target less the entry nearest to it. -/
theorem SameChannel.err_entryError (pal : List Pixel) (t : Pixel) :
    err (entryError pal t) =
      ((ch t).toNat : Int) - (ch (pal.getD (nearest pal t) Pixel.zero)).toNat := hch.error _ _

theorem SameChannel.err_addError {row : List Diffusion} {c : Nat} (hc : c < row.length) (x : Nat) (k : Int)
    (e : Diffusion) :
    err ((addError row x k e).getD c Diffusion.zero) =
      err (row.getD c Diffusion.zero) + if c = x then k * err e else 0 := by
  rw [getD_addError hc]
  split
  · exact hch.plus _ _ _
  · exact (Int.add_zero _).symm

/-- One pixel's error in the row below: 3, 5 and 1 sixteenths to the left, below and to the right. -/
theorem SameChannel.err_spreadBelow {nxt : List Diffusion} {c : Nat} (hc : c < nxt.length) (x : Nat)
    (e : Diffusion) :
    err ((spreadBelow nxt x e).getD c Diffusion.zero) =
      err (nxt.getD c Diffusion.zero) + (if c + 1 = x then 3 * err e else 0) +
        (if c = x then 5 * err e else 0) + (if c = x + 1 then err e else 0) := by
  have hleft : err ((if 0 < x then addError nxt (x - 1) 3 e else nxt).getD c Diffusion.zero) =
      err (nxt.getD c Diffusion.zero) + if c + 1 = x then 3 * err e else 0 := by
    split
    next hx => rw [hch.err_addError hc]; congr 1; simp only [eq_tsub_iff_add_eq_of_le (Nat.succ_le_of_lt hx)]
    next hx => rw [if_neg (by omega), Int.add_zero]
  rw [spreadBelow, hch.err_addError (by split <;> simpa using hc),
    hch.err_addError (by split <;> simpa using hc), hleft, Int.one_mul]


/-- The target of column `x + i`: what the row above left there, and 7 sixteenths of the left neighbour's error. -/
theorem SameChannel.ch_rowTargets (pal : List Pixel) {x i : Nat} {cur : List Diffusion} {row : List Pixel}
    (hi : i < row.length) (hcur : x + row.length ≤ cur.length) :
    ch ((rowTargets pal x cur row).getD i Pixel.zero) =
      diffuseChannel (ch (row.getD i Pixel.zero)) (err (cur.getD (x + i) Diffusion.zero) +
        if 0 < i then
          7 * err (entryError pal ((rowTargets pal x cur row).getD (i - 1) Pixel.zero))
        else 0) := by
  induction row generalizing x i cur with
  | nil => cases hi
  | cons p row ih =>
    rw [List.length_cons] at hi hcur
    cases i with
    | zero => simp [rowTargets, hch.target]
    | succ i =>
      simp only [rowTargets, List.getD_cons_succ]
      rw [ih (by omega) (by simp; omega), hch.err_addError (by omega), (by omega : x + 1 + i = x + (i + 1))]
      cases i with
      | zero => simp
      | succ i => simp

/-- What a row leaves in column `c` below, `e` being the errors of its `n` columns from `x` on. -/
theorem SameChannel.err_carryBelow (pal : List Pixel) {x c : Nat} {nxt : List Diffusion} (hc : c < nxt.length)
    {ts : List Pixel} {e : Nat → Int}
    (he : ∀ i < ts.length, err (entryError pal (ts.getD i Pixel.zero)) = e (x + i)) :
    err ((carryBelow pal x nxt ts).getD c Diffusion.zero) =
      err (nxt.getD c Diffusion.zero) + onColumns x ts.length (fun u => 3 * e u) (c + 1) +
        onColumns x ts.length (fun u => 5 * e u) c +
        onColumns (x + 1) ts.length (fun u => e (u - 1)) c := by
  induction ts generalizing x nxt with
  | nil => simp [carryBelow, onColumns_zero]
  | cons t ts ih =>
    have ht : err (entryError pal t) = e x := he 0 (Nat.succ_pos _)
    have hts : ∀ i < ts.length, err (entryError pal (ts.getD i Pixel.zero)) = e (x + 1 + i) :=
      fun i hi => by simpa [Nat.add_assoc, Nat.add_comm 1] using he (i + 1) (Nat.succ_lt_succ hi)
    rw [carryBelow, ih (by simpa using hc) hts, hch.err_spreadBelow hc, ht]
    simp only [List.length_cons, onColumns_succ, Nat.add_sub_cancel]
    ring

end Channel

/-! ### The rows of a raster -/

/-- Position `x` of row `y` in a list of rows of one width. -/
theorem getD_flatten {α : Type} {w : Nat} {rows : List (List α)} (hrows : ∀ row ∈ rows, row.length = w)
    {x : Nat} (hx : x < w) (y : Nat) (d : α) :
    rows.flatten.getD (y * w + x) d = (rows.getD y []).getD x d := by
  induction rows generalizing y with
  | nil => rfl
  | cons row rows ih =>
    obtain ⟨hrow, hrest⟩ := List.forall_mem_cons.1 hrows
    rw [List.flatten_cons]
    cases y with
    | zero => rw [Nat.zero_mul, Nat.zero_add, List.getD_append _ _ _ _ (hrow ▸ hx), List.getD_cons_zero]
    | succ y =>
      have hpos : (y + 1) * w + x = row.length + (y * w + x) := by rw [hrow, Nat.succ_mul]; omega
      rw [hpos, List.getD_append_right _ _ _ _ (Nat.le_add_right _ _), Nat.add_sub_cancel_left,
        List.getD_cons_succ]
      exact ih hrest y

section Rows
variable {w h : Nat} {px : List Pixel} (hp : px.length = w * h)

theorem rasterRows_getD {y : Nat} (hy : y < h) : (rasterRows w h px).getD y [] = (px.drop (y * w)).take w := by
  simp [rasterRows, List.getD_eq_getElem?_getD, List.getElem?_range hy]

theorem pixel_of_rasterRows {y x : Nat} (hy : y < h) (hx : x < w) :
    ((rasterRows w h px).getD y []).getD x Pixel.zero = px.getD (y * w + x) Pixel.zero := by
  rw [rasterRows_getD hy]
  simp [List.getD_eq_getElem?_getD, List.getElem?_take_of_lt hx, List.getElem?_drop]

include hp

theorem rasterRows_width : ∀ row ∈ rasterRows w h px, row.length = w := by
  intro row hrow
  obtain ⟨y, hy, rfl⟩ := List.mem_map.1 hrow
  have hle : (y + 1) * w ≤ h * w := Nat.mul_le_mul_right w (List.mem_range.1 hy)
  rw [Nat.succ_mul, Nat.mul_comm h] at hle
  simp only [List.length_take, List.length_drop, hp]
  omega

/-- The rows of a raster, one after the other, are its pixels. -/
theorem rasterRows_flatten : (rasterRows w h px).flatten = px := by
  have hlen : (rasterRows w h px).flatten.length = px.length := by
    rw [List.length_flatten, rasterRows_length_sum hp, hp]
  refine List.ext_getElem hlen fun k hk hk' => ?_
  have hw : 0 < w := Nat.pos_of_mul_pos_right (hp ▸ Nat.zero_lt_of_lt hk' : 0 < w * h)
  have hx := Nat.mod_lt k hw
  have hy : k / w < h := Nat.div_lt_of_lt_mul (hp ▸ hk')
  have hpixel := (getD_flatten (rasterRows_width hp) hx (k / w) Pixel.zero).trans
    (pixel_of_rasterRows hy hx)
  rw [Nat.div_add_mod'] at hpixel
  rwa [List.getD_eq_getElem _ _ hk, List.getD_eq_getElem _ _ hk'] at hpixel

end Rows

/-! ### The targets of a raster (R65) -/

theorem rasterTargets_map_length (pal : List Pixel) (w : Nat) (cur : List Diffusion)
    (rows : List (List Pixel)) :
    (rasterTargets pal w cur rows).map List.length = rows.map List.length := by
  induction rows generalizing cur with
  | nil => rfl
  | cons row rest ih => simp only [rasterTargets, List.map_cons, rowTargets_length, ih]

/-- The errors carried into row `y`: none into the first, what the row above leaves into any other. -/
def rowErrors (pal : List Pixel) (w : Nat) (targets : List (List Pixel)) : Nat → List Diffusion
  | 0 => List.replicate w Diffusion.zero
  | y + 1 => carryBelow pal 0 (List.replicate w Diffusion.zero) (targets.getD y [])

theorem carryBelow_length (pal : List Pixel) (x : Nat) (nxt : List Diffusion) (ts : List Pixel) :
    (carryBelow pal x nxt ts).length = nxt.length := by
  induction ts generalizing x nxt with
  | nil => rfl
  | cons t ts ih => rw [carryBelow, ih, spreadBelow_length]

@[simp] theorem rowErrors_length (pal : List Pixel) (w : Nat) (targets : List (List Pixel)) (y : Nat) :
    (rowErrors pal w targets y).length = w := by
  cases y <;> simp [rowErrors, carryBelow_length]

theorem rasterTargets_getD_zero (pal : List Pixel) (w : Nat) (cur : List Diffusion)
    (rows : List (List Pixel)) :
    (rasterTargets pal w cur rows).getD 0 [] = rowTargets pal 0 cur (rows.getD 0 []) := by
  cases rows <;> rfl

theorem rasterTargets_getD_succ (pal : List Pixel) (w : Nat) (cur : List Diffusion)
    (rows : List (List Pixel)) (y : Nat) :
    (rasterTargets pal w cur rows).getD (y + 1) [] =
      rowTargets pal 0
        (carryBelow pal 0 (List.replicate w Diffusion.zero) ((rasterTargets pal w cur rows).getD y []))
        (rows.getD (y + 1) []) := by
  induction rows generalizing cur y with
  | nil => rfl
  | cons row rest ih =>
    cases y with
    | zero => exact rasterTargets_getD_zero _ _ _ _
    | succ y => exact ih _ y

/-- The targets of a raster, row by row, the first row carrying no error. -/
def targetsOf (pal : List Pixel) (w : Nat) (rows : List (List Pixel)) : List (List Pixel) :=
  rasterTargets pal w (List.replicate w Diffusion.zero) rows

theorem targetsOf_getD (pal : List Pixel) (w : Nat) (rows : List (List Pixel)) (y : Nat) :
    (targetsOf pal w rows).getD y [] =
      rowTargets pal 0 (rowErrors pal w (targetsOf pal w rows) y) (rows.getD y []) := by
  cases y with
  | zero => exact rasterTargets_getD_zero _ _ _ _
  | succ y => exact rasterTargets_getD_succ _ _ _ _ y

/-- The target of pixel (y, x). -/
def targetAt (pal : List Pixel) (w : Nat) (rows : List (List Pixel)) (y x : Nat) : Pixel :=
  ((targetsOf pal w rows).getD y []).getD x Pixel.zero

section Raster
variable {w : Nat} {rows : List (List Pixel)} (hrows : ∀ row ∈ rows, row.length = w)
include hrows

theorem row_width {y : Nat} (hy : y < rows.length) : (rows.getD y []).length = w := by
  rw [List.getD_eq_getElem _ _ hy]
  exact hrows _ (List.getElem_mem hy)

theorem targets_row_width (pal : List Pixel) {y : Nat} (hy : y < rows.length) :
    ((targetsOf pal w rows).getD y []).length = w := by
  rw [targetsOf_getD, rowTargets_length, row_width hrows hy]

theorem targetsOf_width (pal : List Pixel) : ∀ ts ∈ targetsOf pal w rows, ts.length = w := by
  intro ts hts
  have hmem : ts.length ∈ rows.map List.length :=
    rasterTargets_map_length pal w _ rows ▸ List.mem_map_of_mem hts
  obtain ⟨row, hrow, heq⟩ := List.mem_map.1 hmem
  exact heq ▸ hrows row hrow

variable {ch : Pixel → Byte} {err : Diffusion → Int} (hch : SameChannel ch err)
include hch

/-- What the row above carries into (y, x): the second, third and fourth term of R65's sum. -/
theorem err_rowErrors (pal : List Pixel) {y x : Nat} (hy : y < rows.length) (hx : x < w) :
    err ((rowErrors pal w (targetsOf pal w rows) y).getD x Diffusion.zero) +
        (if 0 < x then 7 * err (entryError pal (targetAt pal w rows y (x - 1))) else 0) =
      carriedError w (fun v u => err (entryError pal (targetAt pal w rows v u))) y x := by
  have hnone : err ((List.replicate w Diffusion.zero).getD x Diffusion.zero) = 0 := by
    rw [List.getD_replicate _ hx, hch.zero]
  cases y with
  | zero => simp only [rowErrors, hnone, carriedError]; simp
  | succ y =>
    rw [rowErrors,
      hch.err_carryBelow (e := fun u => err (entryError pal (targetAt pal w rows y u))) pal
        (by simpa using hx) fun i _ => by rw [Nat.zero_add]; rfl,
      targets_row_width hrows pal (Nat.lt_of_succ_lt hy), hnone]
    have hbelow : 0 ≤ x ∧ x < 0 + w := ⟨Nat.zero_le x, (Nat.zero_add w).symm ▸ hx⟩
    have hright : 0 ≤ x + 1 ∧ x + 1 < 0 + w ↔ 0 < y + 1 ∧ x + 1 < w := by omega
    have hleft : 0 + 1 ≤ x ∧ x < 0 + 1 + w ↔ 0 < y + 1 ∧ 0 < x := by omega
    simp only [carriedError, onColumns, if_pos hbelow, hright, hleft, Nat.add_sub_cancel,
      if_pos (Nat.succ_pos y)]
    ring

/-- R65 for one channel of one pixel. -/
theorem ch_targetAt (pal : List Pixel) {y x : Nat} (hy : y < rows.length) (hx : x < w) :
    ch (targetAt pal w rows y x) =
      diffuseChannel (ch ((rows.getD y []).getD x Pixel.zero))
        (carriedError w (fun v u => err (entryError pal (targetAt pal w rows v u))) y x) := by
  have hwidth := row_width hrows hy
  rw [← err_rowErrors hrows hch pal hy hx, targetAt, targetsOf_getD,
    hch.ch_rowTargets pal (hwidth ▸ hx) (by rw [rowErrors_length, hwidth, Nat.zero_add]),
    ← targetsOf_getD, Nat.zero_add]
  rfl

end Raster

/-- The errors a pixel receives are those of pixels of the raster. -/
theorem carriedError_congr {w h : Nat} {e e' : Nat → Nat → Int} {y x : Nat} (hy : y < h) (hx : x < w)
    (he : ∀ v < h, ∀ u < w, e v u = e' v u) : carriedError w e y x = carriedError w e' y x := by
  have hup : y - 1 < h := by omega
  have hleft : x - 1 < w := by omega
  have hright : (if 0 < y ∧ x + 1 < w then 3 * e (y - 1) (x + 1) else 0) =
      if 0 < y ∧ x + 1 < w then 3 * e' (y - 1) (x + 1) else 0 :=
    ite_congr rfl (fun hin => by rw [he _ hup _ hin.2]) fun _ => rfl
  simp only [carriedError, hright, he y hy _ hleft, he _ hup _ hx, he _ hup _ hleft]

/-! ### The assignments (R64, R65) -/

theorem mapIndices_dither_eq (px : List Pixel) (w h : Nat) (pal : List Pixel) :
    mapIndices px w h pal true =
      (targetsOf pal w (rasterRows w h px)).flatten.map (nearest pal) := ditherRows_eq _ _ _ _

section Assignment
variable {px : List Pixel} {w h : Nat} {pal : List Pixel} (hp : px.length = w * h)
include hp

/-- The index of (y, x) under dither is the nearest one to its target. -/
theorem mapIndices_dither_getD {y x : Nat} (hy : y < h) (hx : x < w) :
    (mapIndices px w h pal true).getD (y * w + x) 0 =
      nearest pal (targetAt pal w (rasterRows w h px) y x) := by
  have hwidth := rasterRows_width hp
  have hlt : y * w + x < (mapIndices px w h pal true).length := by
    have hle : (y + 1) * w ≤ h * w := Nat.mul_le_mul_right w hy
    rw [Nat.succ_mul, Nat.mul_comm h] at hle
    rw [mapIndices_length hp]
    omega
  rw [mapIndices_dither_eq] at hlt ⊢
  rw [targetAt, ← getD_flatten (targetsOf_width hwidth pal) hx, List.getD_eq_getElem _ _ hlt,
    List.getElem_map, List.getD_eq_getElem]

theorem mapIndices_plain (hpal : pal ≠ []) :
    AssignedIndices px w h pal false (mapIndices px w h pal false) := by
  refine ⟨mapIndices_length hp, fun k hk => ?_⟩
  rw [← hp] at hk
  simpa [mapIndices, hk] using nearest_leastAt hpal px[k]

theorem mapIndices_diffused (hpal : pal ≠ []) :
    AssignedIndices px w h pal true (mapIndices px w h pal true) := by
  refine ⟨mapIndices_length hp, targetAt pal w (rasterRows w h px), fun y hy x hx => ⟨?_, ?_⟩⟩
  · rw [mapIndices_dither_getD hp hy hx]
    exact nearest_leastAt hpal _
  · intro ch hmem
    obtain ⟨err, hch⟩ := exists_sameChannel hmem
    have hrows : y < (rasterRows w h px).length := by simpa [rasterRows] using hy
    rw [ch_targetAt (rasterRows_width hp) hch pal hrows hx, diffuseChannel_toNat,
      pixel_of_rasterRows hy hx,
      carriedError_congr hy hx fun v hv u hu => by
        rw [hch.err_entryError, ← mapIndices_dither_getD hp hv hu, ← chosenEntry]]

theorem mapIndices_assigned (hpal : pal ≠ []) (dither : Bool) :
    AssignedIndices px w h pal dither (mapIndices px w h pal dither) := by
  cases dither with
  | false => exact mapIndices_plain hp hpal
  | true => exact mapIndices_diffused hp hpal

end Assignment

/-! ### A palette that holds every colour (R65) -/

theorem diffuseChannel_zero (v : Byte) : diffuseChannel v 0 = v := by
  have hv := v.isLt
  have heq := diffuseChannel_toNat v 0
  apply BitVec.eq_of_toNat_eq
  omega

theorem diffuseTarget_zero (p : Pixel) : diffuseTarget p Diffusion.zero = p := by
  simp [diffuseTarget, Diffusion.zero, diffuseChannel_zero]

theorem entryError_entry {pal : List Pixel} {p : Pixel} (h : p ∈ pal) :
    entryError pal p = Diffusion.zero := by
  simp only [entryError, nearest_entry h, quantError, Int.sub_self]
  rfl

theorem addError_zero (w x : Nat) (k : Int) :
    addError (List.replicate w Diffusion.zero) x k Diffusion.zero = List.replicate w Diffusion.zero := by
  have hplus : Diffusion.zero.plus k Diffusion.zero = Diffusion.zero := by
    simp [Diffusion.plus, Diffusion.zero]
  refine List.ext_getElem (by simp) fun i hi _ => ?_
  simp only [addError, List.getElem_modify, List.getElem_replicate, hplus, ite_self]

theorem spreadBelow_zero (w x : Nat) :
    spreadBelow (List.replicate w Diffusion.zero) x Diffusion.zero = List.replicate w Diffusion.zero := by
  simp only [spreadBelow, addError_zero, ite_self]

section ExactPalette
variable {pal : List Pixel} {w : Nat}

theorem rowTargets_exact {row : List Pixel} (h : ∀ p ∈ row, p ∈ pal) {x : Nat} (hx : x + row.length ≤ w) :
    rowTargets pal x (List.replicate w Diffusion.zero) row = row := by
  induction row generalizing x with
  | nil => rfl
  | cons p row ih =>
    obtain ⟨hp, hrow⟩ := List.forall_mem_cons.1 h
    rw [List.length_cons] at hx
    simp only [rowTargets, List.getD_replicate Diffusion.zero (by omega : x < w), diffuseTarget_zero,
      entryError_entry hp, addError_zero, ih hrow (by omega : x + 1 + row.length ≤ w)]

theorem carryBelow_exact {row : List Pixel} (h : ∀ p ∈ row, p ∈ pal) (x : Nat) :
    carryBelow pal x (List.replicate w Diffusion.zero) row = List.replicate w Diffusion.zero := by
  induction row generalizing x with
  | nil => rfl
  | cons p row ih =>
    obtain ⟨hp, hrow⟩ := List.forall_mem_cons.1 h
    rw [carryBelow, entryError_entry hp, spreadBelow_zero, ih hrow]

/-- No pixel has an error, so every target is the pixel itself. -/
theorem targetsOf_exact {rows : List (List Pixel)} (hrows : ∀ row ∈ rows, row.length = w)
    (h : ∀ row ∈ rows, ∀ p ∈ row, p ∈ pal) : targetsOf pal w rows = rows := by
  simp only [targetsOf]
  induction rows with
  | nil => rfl
  | cons row rest ih =>
    obtain ⟨hrow, hrest⟩ := List.forall_mem_cons.1 hrows
    obtain ⟨hpal, hpals⟩ := List.forall_mem_cons.1 h
    simp only [rasterTargets, rowTargets_exact hpal (by omega : 0 + row.length ≤ w),
      carryBelow_exact hpal, ih hrest hpals]

theorem mapIndices_exact {px : List Pixel} {h : Nat} (hp : px.length = w * h)
    (hpal : ∀ p ∈ px, p ∈ pal) : mapIndices px w h pal true = mapIndices px w h pal false := by
  have hflat := rasterRows_flatten hp
  have hrows : ∀ row ∈ rasterRows w h px, ∀ p ∈ row, p ∈ pal := fun row hrow p hmem =>
    hpal p (hflat ▸ List.mem_flatten_of_mem hrow hmem)
  calc mapIndices px w h pal true
      = (targetsOf pal w (rasterRows w h px)).flatten.map (nearest pal) := mapIndices_dither_eq _ _ _ _
    _ = px.map (nearest pal) := by rw [targetsOf_exact (rasterRows_width hp) hrows, hflat]
    _ = mapIndices px w h pal false := rfl

end ExactPalette

/-- Settles O41: every index is the nearest to its pixel or to its target, and `ch_targetAt` is R65's formula. -/
theorem assignmentRule : Obligations.AssignmentRule := fun _ _ _ _ hp =>
  ⟨fun dither hpal => mapIndices_assigned hp hpal dither, mapIndices_exact hp⟩

end Sys2Proof.Machine
end

section
/-! PROOFS. The median cut (R62): the ranges and the span of a box, its sorted form and its cut, one turn of the loop,
and the boxes after every number of turns. -/

namespace Sys2Proof.Machine

/-! ### Ranges and spans -/

theorem foldl_max_zero_eq (l : List Nat) : l.foldl max 0 = l.max?.getD 0 := by
  cases l with
  | nil => rfl
  | cons x l => rw [List.max?_cons', Option.getD_some, List.foldl_cons, Nat.zero_max]

theorem foldl_min_eq {l : List Nat} {bound : Nat} (hl : ∀ x ∈ l, x ≤ bound) (hne : l ≠ []) :
    l.foldl min bound = l.min?.getD 0 := by
  cases l with
  | nil => exact absurd rfl hne
  | cons x l =>
    rw [List.min?_cons', Option.getD_some, List.foldl_cons, Nat.min_eq_right (hl x List.mem_cons_self)]

theorem channel_eq_channelValue {c : Nat} (hc : c < 4) (x : Pixel) : channel c x = channelValue c x := by
  match c, hc with
  | 0, _ => rfl
  | 1, _ => rfl
  | 2, _ => rfl
  | 3, _ => rfl

theorem channelValue_le (c : Nat) (x : Pixel) : channelValue c x ≤ 255 :=
  Nat.le_of_lt_succ (BitVec.isLt _)

theorem map_channel_eq {α : Type} (f : α → Pixel) {c : Nat} (hc : c < 4) (l : List α) :
    (l.map fun e => channel c (f e)) = l.map fun e => channelValue c (f e) :=
  List.map_congr_left fun _ _ => channel_eq_channelValue hc _

theorem boxRange_eq {c : Nat} (hc : c < 4) (box : Box) : boxRange box c = rangeOf box c := by
  rw [boxRange, rangeOf, map_channel_eq Prod.fst hc, foldl_max_zero_eq]
  cases box with
  | nil => simp
  | cons e box =>
    have hle : ∀ v ∈ (e :: box).map fun f => channelValue c f.1, v ≤ 255 :=
      List.forall_mem_map.2 fun f _ => channelValue_le c f.1
    rw [foldl_min_eq hle (List.cons_ne_nil _ _)]

theorem boxRanges_eq (box : Box) : boxRanges box = (List.range 4).map (rangeOf box) :=
  List.map_congr_left fun _ hc => boxRange_eq (List.mem_range.1 hc) box

theorem boxSpan_eq (box : Box) : boxSpan box = spanOf box := by
  rw [boxSpan, foldl_max_zero_eq, boxRanges_eq, spanOf]

/-- The channel a box is split by. -/
theorem widestChannel_leastAt (box : Box) :
    LeastAt (fun c => -(rangeOf box c : Int)) 4 (argMax (boxRanges box)) := by
  have hne : (List.range 4).map (rangeOf box) ≠ [] := by simp
  obtain ⟨hlt, hmax, hfirst⟩ := argMax_spec hne
  rw [boxRanges_eq]
  simp only [List.length_map, List.length_range, List.getElem_map, List.getElem_range] at hlt hmax hfirst
  exact ⟨hlt, fun j hj => Int.neg_le_neg (Int.ofNat_le.2 (hmax j hj)),
    fun j hj => Int.neg_lt_neg (Int.ofNat_lt.2 (hfirst j hj))⟩

/-! ### Sorting a box -/

/-- The order a box is sorted in: by the value of the channel, then by key. -/
def ChannelPrecedes (c : Nat) (e f : Pixel × Nat) : Prop :=
  channelValue c e.1 < channelValue c f.1 ∨
    (channelValue c e.1 = channelValue c f.1 ∧ keyOf e.1 < keyOf f.1)

/-- The entries of a box have different colours. -/
def ColoursDiffer (box : Box) : Prop := box.Pairwise fun e f => keyOf e.1 ≠ keyOf f.1

section BoxSort
variable {c : Nat}

theorem insertByChannel_perm (x : Pixel × Nat) (box : Box) :
    (insertByChannel c x box).Perm (x :: box) := by
  induction box with
  | nil => exact List.Perm.refl _
  | cons e box ih =>
    simp only [insertByChannel]
    split
    · exact List.Perm.refl _
    · exact (ih.cons e).trans (List.Perm.swap x e box)

theorem sortByChannel_perm (c : Nat) (box : Box) : (sortByChannel c box).Perm box := by
  induction box with
  | nil => exact List.Perm.refl _
  | cons e box ih => exact (insertByChannel_perm e _).trans (ih.cons e)

variable (hc : c < 4)
include hc

theorem insertByChannel_sorted {x : Pixel × Nat} {box : Box} (hx : ∀ e ∈ box, keyOf x.1 ≠ keyOf e.1)
    (hs : box.Pairwise (ChannelPrecedes c)) : (insertByChannel c x box).Pairwise (ChannelPrecedes c) := by
  induction box with
  | nil => exact List.pairwise_singleton _ _
  | cons e box ih =>
    obtain ⟨hxe, hxbox⟩ := List.forall_mem_cons.1 hx
    obtain ⟨hfirst, hrest⟩ := List.pairwise_cons.1 hs
    simp only [insertByChannel, channel_eq_channelValue hc, pixelKey_eq_keyOf]
    split
    next hlt =>
      refine List.pairwise_cons.2 ⟨List.forall_mem_cons.2 ⟨hlt, fun f hf => ?_⟩, hs⟩
      have hef := hfirst f hf
      unfold ChannelPrecedes at hef ⊢
      omega
    next hge =>
      refine List.pairwise_cons.2 ⟨fun f hf => ?_, ih hxbox hrest⟩
      rcases List.mem_cons.1 ((insertByChannel_perm x box).mem_iff.1 hf) with rfl | hf
      · unfold ChannelPrecedes
        omega
      · exact hfirst f hf

theorem sortByChannel_sorted {box : Box} (hd : ColoursDiffer box) :
    (sortByChannel c box).Pairwise (ChannelPrecedes c) := by
  induction box with
  | nil => exact List.Pairwise.nil
  | cons e box ih =>
    obtain ⟨hfirst, hrest⟩ := List.pairwise_cons.1 hd
    exact insertByChannel_sorted hc
      (fun f hf => hfirst f ((sortByChannel_perm c box).mem_iff.1 hf)) (ih hrest)

end BoxSort

/-! ### The cut -/

theorem firstCounts_cons (e : Pixel × Nat) (box : Box) (j : Nat) :
    firstCounts (e :: box) (j + 1) = e.2 + firstCounts box j := by
  simp [firstCounts]

theorem firstCounts_length (box : Box) : firstCounts box box.length = boxTotal box := by
  rw [firstCounts, List.take_length, boxTotal]

/-- `cutPoint` is the least number of entries from 1 up whose counts reach half of the total. -/
theorem cutPoint_least {total acc : Nat} {box : Box} (h : total ≤ 2 * (acc + boxTotal box)) :
    total ≤ 2 * (acc + firstCounts box (cutPoint total acc box)) ∧
      ∀ i, 1 ≤ i → i < cutPoint total acc box → 2 * (acc + firstCounts box i) < total := by
  induction box generalizing acc with
  | nil => exact ⟨h, fun i _ hi => absurd hi (Nat.not_lt_zero i)⟩
  | cons e box ih =>
    simp only [cutPoint]
    split
    next hreach => exact ⟨by simpa [firstCounts] using hreach, fun i h1 hi => by omega⟩
    next hshort =>
      have htotal : boxTotal (e :: box) = e.2 + boxTotal box := List.sum_cons
      obtain ⟨hreach, hless⟩ := ih (acc := acc + e.2) (by omega)
      refine ⟨by rw [firstCounts_cons]; omega, fun i h1 hi => ?_⟩
      obtain ⟨i, rfl⟩ := Nat.exists_eq_succ_of_ne_zero (Nat.ne_of_gt h1)
      rw [Nat.succ_eq_add_one, firstCounts_cons]
      cases i with
      | zero => simp only [firstCounts, List.take_zero, List.map_nil, List.sum_nil]; omega
      | succ i => have := hless (i + 1) (Nat.succ_pos i) (by omega); omega

theorem cutPoint_pos {total acc : Nat} {box : Box} (h : box ≠ []) : 1 ≤ cutPoint total acc box := by
  cases box with
  | nil => exact absurd rfl h
  | cons e box => simp only [cutPoint]; split <;> omega

/-- The number of entries in the lower part of a sorted box. -/
def cutLength (sorted : Box) : Nat :=
  max 1 (min (cutPoint (boxTotal sorted) 0 sorted) (sorted.length - 1))

theorem cutAt_cutLength {sorted : Box} (h : sorted ≠ []) : CutAt sorted (cutLength sorted) := by
  obtain ⟨hreach, hless⟩ := cutPoint_least (total := boxTotal sorted) (acc := 0) (box := sorted) (by omega)
  simp only [Nat.zero_add] at hreach hless
  refine ⟨cutPoint (boxTotal sorted) 0 sorted, cutPoint_pos h, ?_, ?_, rfl⟩
  · rw [firstCounts_length]; exact hreach
  · rw [firstCounts_length]; exact hless

/-- A cut leaves both parts an entry. -/
theorem cutAt_bounds {sorted : Box} {k : Nat} (h : CutAt sorted k) (hlen : 2 ≤ sorted.length) :
    1 ≤ k ∧ k < sorted.length := by
  obtain ⟨j, _, _, _, rfl⟩ := h
  omega

/-! ### One turn of the loop -/

/-- The box chosen is the first of the largest span among those of two colours or more, once there is one. -/
theorem widestBox_spec {boxes : List Box} (h : ∃ box ∈ boxes, 2 ≤ box.length) :
    ∃ box, boxes[argMax (boxes.map splitRank)]? = some box ∧ 2 ≤ box.length ∧
      ∀ (j : Nat) (q : Box), boxes[j]? = some q → 2 ≤ q.length →
        spanOf q ≤ spanOf box ∧ (j < argMax (boxes.map splitRank) → spanOf q < spanOf box) := by
  obtain ⟨big, hbig, hlen⟩ := h
  obtain ⟨hlt, hmax, hfirst⟩ :=
    argMax_spec (ds := boxes.map splitRank) (by simpa using List.ne_nil_of_mem hbig)
  have hrank : ∀ q : Box, 2 ≤ q.length → splitRank q = spanOf q + 1 := fun q hq => by
    rw [splitRank, if_pos hq, boxSpan_eq]
  simp only [List.length_map, List.getElem_map] at hlt hmax hfirst
  have htwo : 2 ≤ (boxes[argMax (boxes.map splitRank)]).length := by
    obtain ⟨j, hj, rfl⟩ := List.getElem_of_mem hbig
    have hle := hmax j hj
    rw [hrank _ hlen, splitRank] at hle
    by_contra hshort
    rw [if_neg hshort] at hle
    omega
  refine ⟨_, List.getElem?_eq_getElem hlt, htwo, fun j q hq hqlen => ?_⟩
  obtain ⟨hj, rfl⟩ := List.getElem?_eq_some_iff.1 hq
  have hle := hmax j hj
  rw [hrank _ hqlen, hrank _ htwo] at hle
  refine ⟨by omega, fun hjb => ?_⟩
  have hlt' := hfirst j hjb
  rw [hrank _ hqlen, hrank _ htwo] at hlt'
  omega

/-- The model's turn is the rule's. -/
theorem splitWidest_rule {boxes : List Box} (hd : ∀ box ∈ boxes, ColoursDiffer box)
    (h : ∃ box ∈ boxes, 2 ≤ box.length) : SplitRule boxes (splitWidest boxes) := by
  obtain ⟨box, hbox, hlen, hspan⟩ := widestBox_spec h
  have hwidest := widestChannel_leastAt box
  have hperm := sortByChannel_perm (argMax (boxRanges box)) box
  have hne : sortByChannel (argMax (boxRanges box)) box ≠ [] :=
    List.ne_nil_of_length_pos (by rw [hperm.length_eq]; omega)
  refine ⟨_, _, _, box, _, hbox, hlen, hspan, hwidest, hperm,
    sortByChannel_sorted hwidest.1 (hd box (List.mem_of_getElem? hbox)), cutAt_cutLength hne, ?_⟩
  simp only [splitWidest, List.getD_eq_getElem?_getD, hbox, Option.getD_some]
  rfl

/-! ### The boxes after any number of turns -/

/-- Boxes that share out a histogram, none of them empty. -/
structure SharesOut (hist : Box) (boxes : List Box) : Prop where
  nonempty : ∀ box ∈ boxes, box ≠ []
  perm : boxes.flatten.Perm hist

/-- One box replaced by the first of its two parts, the second put last. -/
theorem flatten_split_perm {boxes : List Box} {b : Nat} {box lower upper : Box}
    (hb : boxes[b]? = some box) (h : (lower ++ upper).Perm box) :
    (boxes.set b lower ++ [upper]).flatten.Perm boxes.flatten := by
  induction boxes generalizing b with
  | nil => cases hb
  | cons q boxes ih =>
    cases b with
    | zero =>
      obtain rfl : q = box := Option.some.inj hb
      have hswap : (boxes.flatten ++ upper).Perm (upper ++ boxes.flatten) := List.perm_append_comm
      calc ((q :: boxes).set 0 lower ++ [upper]).flatten
          = lower ++ (boxes.flatten ++ upper) := by simp
        List.Perm _ (lower ++ (upper ++ boxes.flatten)) := hswap.append_left lower
        _ = lower ++ upper ++ boxes.flatten := (List.append_assoc _ _ _).symm
        List.Perm _ (q ++ boxes.flatten) := h.append_right boxes.flatten
    | succ b => exact (ih hb).append_left q

/-- A turn keeps what the boxes hold and leaves none empty. -/
theorem splitRule_sharesOut {hist : Box} {boxes split : List Box} (h : SplitRule boxes split)
    (hs : SharesOut hist boxes) : SharesOut hist split := by
  obtain ⟨b, ch, k, box, sorted, hbox, hlen, _, _, hperm, _, hcut, rfl⟩ := h
  obtain ⟨hpos, hlt⟩ := cutAt_bounds hcut (hperm.length_eq ▸ hlen)
  constructor
  · intro q hq
    rcases List.mem_append.1 hq with hq | hq
    · rcases List.mem_or_eq_of_mem_set hq with hq | rfl
      · exact hs.nonempty q hq
      · exact List.ne_nil_of_length_pos (by rw [List.length_take]; omega)
    · obtain rfl := List.mem_singleton.1 hq
      exact List.ne_nil_of_length_pos (by rw [List.length_drop]; omega)
  · exact (flatten_split_perm hbox ((List.take_append_drop k sorted).symm ▸ hperm)).trans hs.perm

theorem SharesOut.coloursDiffer {hist : Box} {boxes : List Box} (hs : SharesOut hist boxes)
    (hd : ColoursDiffer hist) : ∀ box ∈ boxes, ColoursDiffer box := fun _ hbox =>
  ((hs.perm.pairwise_iff fun h => h.symm).2 hd).sublist (List.sublist_flatten_of_mem hbox)

/-- Fewer boxes than colours: one of the boxes holds two. -/
theorem SharesOut.exists_two {hist : Box} {boxes : List Box} (hs : SharesOut hist boxes)
    (h : boxes.length < hist.length) : ∃ box ∈ boxes, 2 ≤ box.length := by
  by_contra hnone
  have hsmall : ∀ n ∈ boxes.map List.length, n ≤ 1 := List.forall_mem_map.2 fun box hbox => by
    by_contra hbig
    exact hnone ⟨box, hbox, by omega⟩
  have hle := List.sum_le_card_nsmul _ _ hsmall
  rw [← List.length_flatten, hs.perm.length_eq, List.length_map, smul_eq_mul, Nat.mul_one] at hle
  omega

theorem splitTimes_succ (n : Nat) (boxes : List Box) :
    splitTimes (n + 1) boxes = splitWidest (splitTimes n boxes) := by
  induction n generalizing boxes with
  | zero => rfl
  | succ n ih => exact ih (splitWidest boxes)

section Histogram
variable {px : List Pixel} {n : Nat}

theorem histogram_coloursDiffer (px : List Pixel) : ColoursDiffer (histogram px) :=
  (histogram_form px).rising.imp fun h => h.ne

/-- While there are more colours than boxes a turn follows the rule. -/
theorem splitRule_of_sharesOut (hs : SharesOut (histogram px) (splitTimes n [histogram px]))
    (h : n + 1 < distinctColours px) :
    SplitRule (splitTimes n [histogram px]) (splitTimes (n + 1) [histogram px]) := by
  rw [splitTimes_succ]
  refine splitWidest_rule (hs.coloursDiffer (histogram_coloursDiffer px)) (hs.exists_two ?_)
  rw [splitTimes_length, histogram_length, List.length_singleton]
  omega

theorem splitTimes_sharesOut (h : n < distinctColours px) :
    SharesOut (histogram px) (splitTimes n [histogram px]) := by
  induction n with
  | zero =>
    rw [← histogram_length] at h
    exact ⟨by simpa [splitTimes] using List.ne_nil_of_length_pos h, by simp [splitTimes]⟩
  | succ n ih =>
    have hs := ih (Nat.lt_of_succ_lt h)
    exact splitRule_sharesOut (splitRule_of_sharesOut hs h) hs

end Histogram

/-! ### The means -/

theorem boxMean_eq {c : Nat} (hc : c < 4) (box : Box) : boxMean box c = meanOf box c := by
  simp only [boxMean, meanOf, firstCounts_length, channel_eq_channelValue hc]

theorem weightedSum_le (c : Nat) (box : Box) :
    (box.map fun e => e.2 * channelValue c e.1).sum ≤ 255 * boxTotal box := by
  induction box with
  | nil => exact Nat.zero_le _
  | cons e box ih =>
    have htotal : boxTotal (e :: box) = e.2 + boxTotal box := List.sum_cons
    have he := Nat.mul_le_mul_left e.2 (channelValue_le c e.1)
    rw [List.map_cons, List.sum_cons, htotal]
    omega

/-- A mean of bytes is a byte. -/
theorem meanOf_lt (c : Nat) (box : Box) : meanOf box c < 256 := by
  have hsum := weightedSum_le c box
  rw [meanOf, firstCounts_length]
  rcases Nat.eq_zero_or_pos (boxTotal box) with hzero | hpos
  · simp [hzero]
  · rw [Nat.div_lt_iff_lt_mul hpos]
    omega

theorem channelsOf_boxColour (box : Box) :
    channelsOf (boxColour box) = (meanOf box 0, meanOf box 1, meanOf box 2, meanOf box 3) := by
  have hbyte : ∀ c < 4, (BitVec.ofNat 8 (boxMean box c)).toNat = meanOf box c := fun c hc => by
    rw [BitVec.toNat_ofNat, boxMean_eq hc]
    exact Nat.mod_eq_of_lt (meanOf_lt c box)
  rw [boxColour, channelsOf_ofNats, hbyte 0 (by decide), hbyte 1 (by decide), hbyte 2 (by decide),
    hbyte 3 (by decide)]

theorem medianCut_length (hist : Box) {k : Nat} (hk : 1 ≤ k) : (medianCut hist k).length = k := by
  rw [medianCut, List.length_map, splitTimes_length, List.length_singleton]
  omega

/-- Settles O39: the boxes share out the histogram, so a box of two colours is left while there are fewer boxes than
colours, and a turn that finds one follows the rule. -/
theorem medianCutRule : Obligations.MedianCutRule := by
  intro px n h
  have hs := splitTimes_sharesOut h
  refine ⟨by rw [splitTimes_length, List.length_singleton, Nat.add_comm], hs.nonempty, hs.perm,
    fun hn => by rw [hn]; rfl,
    fun hmore => ⟨splitRule_of_sharesOut hs hmore, medianCut (histogram px) (n + 1),
      buildPalette_cut hmore, medianCut_length _ (Nat.succ_pos n), fun j box hbox => ?_⟩⟩
  have hentry : (medianCut (histogram px) (n + 1)).getD j Pixel.zero = boxColour box := by
    rw [medianCut, List.getD_eq_getElem?_getD, List.getElem?_map, Nat.add_sub_cancel, hbox]
    rfl
  rw [hentry, channelsOf_boxColour]

end Sys2Proof.Machine
end

section
/-! PROOFS. The runs of QMAP, PLUT and QUANT (R66 to R68): the index bytes, and what each command stores. -/

namespace Sys2Proof.Machine

/-! ### A command that stores one run of bytes at DST (R86) -/

/-- A command that passes its checks, its inputs readable, stores the bytes its plan computes at DST. -/
theorem exec_storedAtDst {s : State} {i : Instr} {p : Plan} {bss : List (List Byte)} {out : List Byte}
    {n : Nat} (hacc : Accepted s i) (hp : commandPlan s i = some p)
    (hread : readRegions s.mem p.ins = some bss)
    (hcompute : p.compute bss = .ok { writes := [(s.dstAddr, out)], dstlen := n, pallen := 0 })
    (hlen : out.length = n) (hfits : n < 2 ^ 32) :
    ∃ t, exec i s = .next t ∧ StoredAtDst s t out 0 := by
  obtain ⟨hcheck, _, hadm⟩ := accepted_plan hacc hp
  subst hlen
  exact ⟨_, (exec_eq_runPlan hp).trans (runPlan_ok hcheck hadm hread hcompute),
    storedAtDst_succeed s hfits (Nat.two_pow_pos 32)⟩

theorem readRegions_pair {m : Memory} {r q : Region} {bs cs : List Byte}
    (hr : m.readBytes r.start r.len = some bs) (hq : m.readBytes q.start q.len = some cs) :
    readRegions m [r, q] = some [bs, cs] := by
  simp [readRegions, hr, hq]

/-! ### The bytes of the indices -/

theorem mapIndices_lt {pal : List Pixel} (hpal : pal ≠ []) (px : List Pixel) (w h : Nat) (dither : Bool) :
    ∀ i ∈ mapIndices px w h pal dither, i < pal.length := by
  cases dither with
  | false => exact List.forall_mem_map.2 fun p _ => nearest_lt hpal p
  | true =>
    rw [mapIndices_dither_eq]
    exact List.forall_mem_map.2 fun p _ => nearest_lt hpal p

theorem valueBytes_map_toNat {vs : List Nat} (h : ∀ v ∈ vs, v < 256) :
    (valueBytes vs).map BitVec.toNat = vs := by
  rw [valueBytes, List.map_map]
  refine (List.map_congr_left fun v hv => ?_).trans (List.map_id vs)
  exact (BitVec.toNat_ofNat v 8).trans (Nat.mod_eq_of_lt (h v hv))

/-- The index bytes that QUANT and QMAP store for the raster `v` and a palette. -/
def indexBytes (s : State) (v : List Byte) (pal : List Pixel) : List Byte :=
  valueBytes
    (mapIndices (pixelsOf (rasterPixels s) v) s.width.toNat s.height.toNat pal s.optDither)

section IndexBytes
variable (s : State) (v : List Byte) {pal : List Pixel} (hpal : pal ≠ []) (hcap : pal.length ≤ 256)

theorem indexBytes_length (pal : List Pixel) : (indexBytes s v pal).length = rasterPixels s :=
  (valueBytes_length _).trans (mapIndices_length (pixelsOf_length (rasterPixels s) v))

include hpal hcap

theorem indexBytes_map_toNat : (indexBytes s v pal).map BitVec.toNat =
    mapIndices (pixelsOf (rasterPixels s) v) s.width.toNat s.height.toNat pal s.optDither :=
  valueBytes_map_toNat fun i hi => (mapIndices_lt hpal _ _ _ _ i hi).trans_le hcap

/-- Every index byte names an entry. -/
theorem indexBytes_lt : ∀ b ∈ indexBytes s v pal, b.toNat < pal.length := fun b hb =>
  mapIndices_lt hpal _ _ _ _ b.toNat
    (indexBytes_map_toNat s v hpal hcap ▸ List.mem_map_of_mem (f := BitVec.toNat) hb)

/-- The index bytes are those of R64 or R65. -/
theorem indexBytes_assigned :
    AssignedIndices (pixelsOf (rasterPixels s) v) s.width.toNat s.height.toNat pal s.optDither
      ((indexBytes s v pal).map BitVec.toNat) := by
  rw [indexBytes_map_toNat s v hpal hcap]
  exact mapIndices_assigned (pixelsOf_length (rasterPixels s) v) hpal s.optDither

end IndexBytes

/-- What the palette check of an accepted command says. -/
theorem accepted_palsize {s : State} {i : Instr} (hacc : Accepted s i)
    (hi : operandIllegal s i = palsizeIllegal s.palsize.toNat 256) :
    1 ≤ s.palsize.toNat ∧ s.palsize.toNat ≤ 256 := by
  obtain ⟨_, _, hoperand, _, _⟩ := hacc
  exact palsizeIllegal_false (hi ▸ hoperand)

/-! ### QMAP (R67) -/

/-- Settles O42: the plan stores the bytes of MapIndices against the palette at AUX. -/
theorem qmapCompletes : Obligations.QmapCompletes := by
  intro s v c hacc hraster hpalette
  obtain ⟨hk, hcap⟩ := accepted_palsize hacc rfl
  have hlen : (pixelsOf s.palsize.toNat c).length = s.palsize.toNat := pixelsOf_length _ _
  have hne : pixelsOf s.palsize.toNat c ≠ [] := List.ne_nil_of_length_pos (by omega)
  have hle : (pixelsOf s.palsize.toNat c).length ≤ 256 := hlen.le.trans hcap
  have hcount := indexBytes_length s v (pixelsOf s.palsize.toNat c)
  obtain ⟨_, _, hadm⟩ := accepted_plan hacc (rfl : commandPlan s .qmap = some (qmapPlan s))
  have hfits : rasterPixels s < 2 ^ 32 :=
    admitted_output_lt hacc.1 hadm List.mem_cons_self (List.mem_singleton_self _)
      fun hpos => Nat.mul_ne_zero (by decide) hpos
  obtain ⟨t, ht, hstored⟩ :=
    exec_storedAtDst hacc rfl (readRegions_pair hraster hpalette) rfl hcount hfits
  exact ⟨t, _, ht, hstored, hcount, fun b hb => (indexBytes_lt s v hne hle b hb).trans_eq hlen,
    indexBytes_assigned s v hne hle⟩

/-! ### PLUT (R68) -/

theorem pixelsOf_getD {n k : Nat} (bs : List Byte) (hk : k < n) :
    (pixelsOf n bs).getD k Pixel.zero = pixelAt bs k := by
  simp [pixelsOf, List.getD_eq_getElem?_getD, List.getElem?_range hk]

/-- Whether every index byte names an entry is one test of the plan. -/
theorem indices_all_iff (v : List Byte) (n : Nat) :
    (byteValues v).all (· < n) = true ↔ ∀ b ∈ v, b.toNat < n := by
  simp [byteValues]

/-- The pixels looked up by the indices `v` in the palette `c`. -/
def lookedUp (n : Nat) (v c : List Byte) : List Pixel :=
  (byteValues v).map fun i => (pixelsOf n c).getD i Pixel.zero

theorem lookedUp_getElem {n : Nat} {v c : List Byte} (hv : ∀ b ∈ v, b.toNat < n) {k : Nat}
    (hk : k < v.length) : (lookedUp n v c)[k]'(by simpa [lookedUp] using hk) =
      pixelAt c (v.getD k 0).toNat := by
  simp only [lookedUp, byteValues, List.getElem_map, List.getD_eq_getElem v _ hk]
  exact pixelsOf_getD c (hv _ (List.getElem_mem hk))

/-- Settles O43: the plan tests every index before it writes, and then stores the entries the indices name. -/
theorem plutOutcome : Obligations.PlutOutcome := by
  intro s v c hacc hindices hpalette
  have hp : commandPlan s .plut = some (plutPlan s) := rfl
  obtain ⟨hcheck, _, hadm⟩ := accepted_plan hacc hp
  have hread : readRegions s.mem (plutPlan s).ins = some [v, c] := readRegions_pair hindices hpalette
  have hcount : v.length = s.count.toNat := readBytes_length hindices
  split
  next hlegal =>
    have hlen : (pixelBytes (lookedUp s.palsize.toNat v c)).length = 4 * s.count.toNat := by
      simp [lookedUp, hcount]
    have hfits : 4 * s.count.toNat < 2 ^ 32 :=
      admitted_output_lt hacc.1 hadm List.mem_cons_self (List.mem_singleton_self _)
        Nat.ne_zero_of_mul_ne_zero_right
    have hcompute : (plutPlan s).compute [v, c] = .ok
        { writes := [(s.dstAddr, pixelBytes (lookedUp s.palsize.toNat v c))]
          dstlen := 4 * s.count.toNat
          pallen := 0 } :=
      if_pos ((indices_all_iff v s.palsize.toNat).2 hlegal)
    obtain ⟨t, ht, hstored⟩ := exec_storedAtDst hacc hp hread hcompute hlen hfits
    refine ⟨t, _, ht, hstored, hlen, fun k hk => ?_⟩
    rw [← hcount] at hk
    rw [pixelAt_pixelBytes (by simpa [lookedUp] using hk), lookedUp_getElem hlegal hk]
  next hillegal =>
    have hcompute : (plutPlan s).compute [v, c] = .error badOperand :=
      if_neg fun h => hillegal ((indices_all_iff v s.palsize.toNat).1 h)
    rw [exec_eq_runPlan hp, runPlan_error hcheck hadm hread hcompute, takeFault_eq_faulted]
    rfl

/-! ### QUANT (R66) -/

theorem distinctColours_pos {px : List Pixel} (h : px ≠ []) : 1 ≤ distinctColours px := by
  obtain ⟨x, hx⟩ := List.exists_mem_of_ne_nil px h
  exact List.length_pos_of_mem (List.mem_dedup.2 hx)

/-- BuildPalette but for its fault: min(U, K) entries, the colours themselves by rising key when they fit. -/
theorem buildPalette_completes {px : List Pixel} {k : Nat} (hk : 1 ≤ k) {strict : Bool}
    (h : strict = true → distinctColours px ≤ k) :
    ∃ pal, buildPalette px k strict = .ok pal ∧ pal.length = min (distinctColours px) k ∧
      (distinctColours px ≤ k → (∀ x, x ∈ pal ↔ x ∈ px) ∧
        pal.Pairwise fun x y => pixelKey x < pixelKey y) := by
  by_cases hfit : distinctColours px ≤ k
  · refine ⟨_, buildPalette_exact hfit strict, ?_, fun _ => ⟨mem_histogram_colours_iff px, ?_⟩⟩
    · rw [List.length_map, histogram_length, Nat.min_eq_left hfit]
    · simpa only [pixelKey_eq_keyOf] using histogram_colours_rising px
  · have hmany : k < distinctColours px := Nat.lt_of_not_le hfit
    obtain rfl : strict = false := Bool.eq_false_iff.2 fun hs => hfit (h hs)
    refine ⟨_, buildPalette_cut hmany, ?_, fun hle => absurd hle hfit⟩
    rw [medianCut_length _ hk, Nat.min_eq_right hmany.le]

/-- Two byte runs stored one after the other, apart from each other: both are read back, all other bytes kept. -/
theorem writeAll_pair (m : Memory) {a b : Nat} {bs cs : List Byte}
    (h : a + bs.length ≤ b ∨ b + cs.length ≤ a) :
    (m.writeAll [(a, bs), (b, cs)]).readBytes a bs.length = some bs ∧
      (m.writeAll [(a, bs), (b, cs)]).readBytes b cs.length = some cs ∧
      ∀ x, (x < a ∨ a + bs.length ≤ x) → (x < b ∨ b + cs.length ≤ x) →
        (m.writeAll [(a, bs), (b, cs)]).read x = m.read x := by
  refine ⟨?_, readBytes_writeBytes_same _ b cs, fun x hxa hxb => read_writeAll_outside m _ ?_⟩
  · exact (readBytes_writeBytes_outside _ b cs h).trans (readBytes_writeBytes_same m a bs)
  · simpa using ⟨hxa, hxb⟩

/-- The record of step 7 of R86, its two lengths in range. -/
theorem successRecord_succeed (s : State) {m n : Nat} (hm : m < 2 ^ 32) (hn : n < 2 ^ 32) :
    SuccessRecord (s.succeed m n) m n :=
  ⟨(by decide : statusWord true false 0 = 1), rfl, BitVec.toNat_ofNat _ _ ▸ Nat.mod_eq_of_lt hm,
    BitVec.toNat_ofNat _ _ ▸ Nat.mod_eq_of_lt hn⟩

/-- The raster of an accepted QUANT has a pixel. -/
theorem quant_rasterPixels_pos {s : State} (hacc : Accepted s .quant) : 1 ≤ rasterPixels s := by
  obtain ⟨_, _, _, hdims, _⟩ := hacc
  obtain ⟨hw, _, hh, _⟩ := dimsOutOfRange_false (w := s.width.toNat) (h := s.height.toNat) hdims
  exact Nat.mul_pos hw hh

/-- The palette's bytes and the index bytes of an accepted QUANT lie apart, and the index bytes fit DSTLEN. -/
theorem quant_regions {s : State} (hacc : Accepted s .quant) {n : Nat} (hn : n ≤ s.palsize.toNat) :
    (s.aux.toNat + 4 * n ≤ s.dst.toNat ∨ s.dst.toNat + rasterPixels s ≤ s.aux.toNat) ∧
      rasterPixels s < 2 ^ 32 := by
  have hpos := quant_rasterPixels_pos hacc
  obtain ⟨hk, _⟩ := accepted_palsize hacc rfl
  obtain ⟨_, _, hadm⟩ := accepted_plan hacc (rfl : commandPlan s .quant = some (quantPlan s))
  obtain ⟨_, _, _, hpair⟩ := (admitted_iff _ _ _).1 hadm
  have hapart : (Region.mk s.aux.toNat (4 * s.palsize.toNat)).disjoint
      ⟨s.dst.toNat, rasterPixels s⟩ = true :=
    (List.pairwise_cons.1 hpair).1 _ (List.mem_singleton_self _)
  rw [disjoint_iff] at hapart
  simp only at hapart
  have hfits : rasterPixels s < 2 ^ 32 :=
    admitted_output_lt hacc.1 hadm (List.mem_singleton_self _)
      (List.mem_cons_of_mem _ (List.mem_singleton_self _)) fun h => Nat.mul_ne_zero (by decide) h
  exact ⟨by omega, hfits⟩

/-- What QUANT computes with the palette of BuildPalette. -/
theorem quantPlan_compute {s : State} {v : List Byte} {pal : List Pixel}
    (h : buildPalette (pixelsOf (rasterPixels s) v) s.palsize.toNat s.optStrict = .ok pal) :
    (quantPlan s).compute [v] = .ok
      { writes := [(s.aux.toNat, pixelBytes pal), (s.dst.toNat, indexBytes s v pal)]
        dstlen := rasterPixels s
        pallen := pal.length } := by
  have hbuild : buildPalette (pixelsOf (s.widthVal * s.heightVal) v) s.palsizeVal s.optStrict =
      .ok pal := h
  simp only [quantPlan, List.headD_cons, hbuild]
  rfl

/-- Settles O37: BuildPalette has a palette, which the plan stores at AUX, and the bytes of MapIndices at DST. -/
theorem quantCompletes : Obligations.QuantCompletes := by
  intro s v hacc hraster hstrict
  have hp : commandPlan s .quant = some (quantPlan s) := rfl
  obtain ⟨hcheck, _, hadm⟩ := accepted_plan hacc hp
  have hread : readRegions s.mem (quantPlan s).ins = some [v] :=
    (readRegions_single _ _).trans (congrArg (Option.map _) hraster)
  obtain ⟨hk, hcap⟩ := accepted_palsize hacc rfl
  obtain ⟨pal, hbuild, hpallen, hexact⟩ := buildPalette_completes hk hstrict
  have hcolours : 1 ≤ distinctColours (pixelsOf (rasterPixels s) v) :=
    distinctColours_pos (List.ne_nil_of_length_pos (by
      rw [pixelsOf_length]; exact quant_rasterPixels_pos hacc))
  have hpal : pal ≠ [] := List.ne_nil_of_length_pos (by omega)
  have hle : pal.length ≤ 256 := by omega
  obtain ⟨hapart, hfits⟩ := quant_regions hacc (n := pal.length) (by omega)
  have hcount := indexBytes_length s v pal
  obtain ⟨haux, hdst, hframe⟩ := writeAll_pair s.mem (a := s.aux.toNat) (b := s.dst.toNat)
    (bs := pixelBytes pal) (cs := indexBytes s v pal)
    (by rw [pixelBytes_length, hcount]; exact hapart)
  rw [pixelBytes_length] at haux hframe
  rw [hcount] at hdst hframe
  exact ⟨_, pal, _,
    (exec_eq_runPlan hp).trans (runPlan_ok hcheck hadm hread (quantPlan_compute hbuild)), rfl,
    successRecord_succeed _ hfits (by omega : pal.length < 2 ^ 32), hcount, hbuild, hpallen, haux, hdst,
    hframe, indexBytes_lt s v hpal hle, hexact, indexBytes_assigned s v hpal hle⟩

end Sys2Proof.Machine
end

section
/-! PROOFS. The BlockCompressor's compression (R70 to R73): the two endpoint searches, the four colours of a block as
channels, and what a compressed block stores. -/

namespace Sys2Proof.Machine

/-! ### The least index of the extreme value (R71, R73) -/

section Extremes
variable {α : Type} {l : List α} (hl : l ≠ []) {f : α → Nat} {d : Nat → Int}
include hl

/-- The search over the values of a list, for any integer form `d` of them. -/
theorem argMin_map_leastAt (hd : ∀ j (hj : j < l.length), d j = f l[j]) :
    LeastAt d l.length (argMin (l.map f)) := by
  obtain ⟨hlt, hmin, hfirst⟩ := argMin_spec (ds := l.map f) (by simpa using hl)
  simp only [List.length_map, List.getElem_map] at hlt hmin hfirst
  refine ⟨hlt, fun j hj => ?_, fun j hj => ?_⟩
  · rw [hd _ hlt, hd j hj]
    exact Int.ofNat_le.2 (hmin j hj)
  · rw [hd _ hlt, hd j (hj.trans hlt)]
    exact Int.ofNat_lt.2 (hfirst j hj)

theorem argMax_map_leastAt (hd : ∀ j (hj : j < l.length), d j = -(f l[j] : Int)) :
    LeastAt d l.length (argMax (l.map f)) := by
  obtain ⟨hlt, hmax, hfirst⟩ := argMax_spec (ds := l.map f) (by simpa using hl)
  simp only [List.length_map, List.getElem_map] at hlt hmax hfirst
  refine ⟨hlt, fun j hj => ?_, fun j hj => ?_⟩
  · rw [hd _ hlt, hd j hj]
    exact Int.neg_le_neg (Int.ofNat_le.2 (hmax j hj))
  · rw [hd _ hlt, hd j (hj.trans hlt)]
    exact Int.neg_lt_neg (Int.ofNat_lt.2 (hfirst j hj))

/-- In a list sorted by a strict order, the search answers the first of the elements of largest value. -/
theorem argMax_map_first {R : α → α → Prop} (hsorted : l.Pairwise R) (hasymm : ∀ a b, R a b → ¬ R b a) :
    ∃ h : argMax (l.map f) < l.length, ∀ b ∈ l,
      f b ≤ f l[argMax (l.map f)] ∧ (R b l[argMax (l.map f)] → f b < f l[argMax (l.map f)]) := by
  obtain ⟨hlt, hmax, hfirst⟩ := argMax_spec (ds := l.map f) (by simpa using hl)
  simp only [List.length_map, List.getElem_map] at hlt hmax hfirst
  refine ⟨hlt, fun b hb => ?_⟩
  obtain ⟨m, hm, rfl⟩ := List.getElem_of_mem hb
  refine ⟨hmax m hm, fun hR => hfirst m (Nat.lt_of_not_le fun hge => ?_)⟩
  rcases Nat.eq_or_lt_of_le hge with rfl | hlater
  · exact hasymm _ _ hR hR
  · exact hasymm _ _ hR (List.pairwise_iff_getElem.1 hsorted _ _ hlt hm hlater)

end Extremes

/-! ### The exact search (R70) -/

theorem mem_pixelPairs_iff (i j : Nat) : (i, j) ∈ pixelPairs ↔ i < j ∧ j < 16 := by
  simp only [pixelPairs, List.mem_flatMap, List.mem_range, List.mem_map, List.mem_filter,
    decide_eq_true_eq, Prod.mk.injEq]
  constructor
  · rintro ⟨_, _, _, ⟨hj, hij⟩, rfl, rfl⟩
    exact ⟨hij, hj⟩
  · rintro ⟨hij, hj⟩
    exact ⟨i, hij.trans hj, j, ⟨hj, hij⟩, rfl, rfl⟩

/-- The pairs are listed in R70's order. -/
theorem pixelPairs_sorted : pixelPairs.Pairwise fun a b => PairBefore a.1 a.2 b.1 b.2 := by
  refine List.pairwise_flatMap.2 ⟨fun i _ => ?_, ?_⟩
  · exact List.pairwise_map.2 ((List.pairwise_lt_range.filter _).imp fun h => .inr ⟨rfl, h⟩)
  · refine List.pairwise_lt_range.imp fun {i k} hik a ha b hb => .inl ?_
    obtain ⟨_, _, rfl⟩ := List.mem_map.1 ha
    obtain ⟨_, _, rfl⟩ := List.mem_map.1 hb
    exact hik

theorem pairBefore_asymm {i j k l : Nat} (h : PairBefore i j k l) : ¬ PairBefore k l i j := by
  simp only [PairBefore] at *
  omega

theorem distRGB_eq (p q : Pixel) : (distRGB p q : Int) = squaredRGB p q := by
  simp only [distRGB, Nat.cast_add, sqDiff_eq, squaredRGB]

theorem endpointsBest_eq (blk : List Pixel) :
    ∃ i j, BestPair blk i j ∧ endpointsBest blk = (blockPixel blk i, blockPixel blk j) := by
  obtain ⟨hlt, hmax⟩ := argMax_map_first (f := fun ij => distRGB (blockPixel blk ij.1) (blockPixel blk ij.2))
    (List.ne_nil_of_mem ((mem_pixelPairs_iff 0 1).2 (by decide))) pixelPairs_sorted
    fun _ _ => pairBefore_asymm
  obtain ⟨hij, hj⟩ := (mem_pixelPairs_iff _ _).1 (List.getElem_mem hlt)
  refine ⟨_, _, ⟨hij, hj, fun k l hkl hl => ?_⟩, ?_⟩
  · obtain ⟨hle, hbefore⟩ := hmax (k, l) ((mem_pixelPairs_iff k l).2 ⟨hkl, hl⟩)
    simp only [← distRGB_eq]
    exact ⟨Int.ofNat_le.2 hle, fun h => Int.ofNat_lt.2 (hbefore h)⟩
  · simp only [endpointsBest, List.getD_eq_getElem _ _ hlt, List.get_eq_getElem]

/-! ### The fast search (R71) -/

theorem blockPixel_eq {blk : List Pixel} {k : Nat} (hk : k < blk.length) : blockPixel blk k = blk[k] :=
  List.getD_eq_getElem _ _ hk

theorem endpointsFast_eq (p : Params) {blk : List Pixel} (h : blk.length = 16) :
    ∃ i j, FastPair p blk i j ∧ endpointsFast p blk = (blockPixel blk i, blockPixel blk j) := by
  have hne : blk ≠ [] := List.ne_nil_of_length_pos (by omega)
  refine ⟨_, _, ⟨?_, ?_⟩, rfl⟩
  · rw [← h]
    exact argMax_map_leastAt hne fun k hk => by rw [blockPixel_eq hk, luma_eq_lumaOf]
  · rw [← h]
    exact argMin_map_leastAt hne fun k hk => by rw [blockPixel_eq hk, luma_eq_lumaOf]

/-! ### What a compressed block stores (R73) -/

/-- The endpoints the search of a quality finds (R70, R71). -/
def endpointsOf (p : Params) (best : Bool) (blk : List Pixel) : Pixel × Pixel :=
  if best then endpointsBest blk else endpointsFast p blk

theorem endpointsOf_eq (p : Params) (best : Bool) {blk : List Pixel} (h : blk.length = 16) :
    ∃ i j, (if best = true then BestPair blk i j else FastPair p blk i j) ∧
      endpointsOf p best blk = (blockPixel blk i, blockPixel blk j) := by
  cases best with
  | true => exact endpointsBest_eq blk
  | false => exact endpointsFast_eq p h

/-- Both searches find pixels of the block. -/
theorem endpointsOf_mem (p : Params) (best : Bool) {blk : List Pixel} (h : blk.length = 16) :
    (endpointsOf p best blk).1 ∈ blk ∧ (endpointsOf p best blk).2 ∈ blk := by
  have hmem : ∀ k < 16, blockPixel blk k ∈ blk := fun k hk => by
    rw [blockPixel_eq (h ▸ hk)]
    exact List.getElem_mem _
  obtain ⟨i, j, hpair, heq⟩ := endpointsOf_eq p best h
  have hij : i < 16 ∧ j < 16 := by
    cases best with
    | true => exact ⟨hpair.1.trans hpair.2.1, hpair.2.1⟩
    | false => exact ⟨hpair.1.1, hpair.2.1⟩
  rw [heq]
  exact ⟨hmem i hij.1, hmem j hij.2⟩

section Codes
variable (p : Params) (best : Bool) (blk : List Pixel)

theorem compressBlock_c0 : (compressBlock p best blk).c0 =
    max (encRGB565 (endpointsOf p best blk).1) (encRGB565 (endpointsOf p best blk).2) :=
  (max_def_lt _ _).symm

theorem compressBlock_c1 : (compressBlock p best blk).c1 =
    min (encRGB565 (endpointsOf p best blk).1) (encRGB565 (endpointsOf p best blk).2) :=
  (min_def_lt _ _).symm

theorem compressBlock_idx : (compressBlock p best blk).idx = blk.map fun x =>
    argMin ((blockColours (compressBlock p best blk).c0 (compressBlock p best blk).c1).map (distRGB x)) :=
  rfl

end Codes

/-- The least index of the colour nearest to a pixel. -/
theorem nearestColour_leastAt (c0 c1 : Nat) (x : Pixel) :
    LeastAt (fun m => squaredRGB x ((blockColours c0 c1).getD m Pixel.zero)) 4
      (argMin ((blockColours c0 c1).map (distRGB x))) :=
  argMin_map_leastAt (l := blockColours c0 c1) (List.cons_ne_nil _ _) fun m hm => by
    rw [List.getD_eq_getElem _ _ hm, distRGB_eq]

/-- Settles O44: each search answers a pair of its rule, and each index is that of a search over the four colours. -/
theorem compressedBlockRule : Obligations.CompressedBlockRule := by
  intro p best blk h
  obtain ⟨i, j, hpair, hends⟩ := endpointsOf_eq p best h
  refine ⟨⟨i, j, hpair, ?_, ?_⟩, by rw [compressBlock_idx, List.length_map, h], fun k hk => ?_⟩
  · rw [compressBlock_c0, hends]
  · rw [compressBlock_c1, hends]
  · have hkb : k < blk.length := h ▸ hk
    rw [compressBlock_idx, List.getD_eq_getElem _ _ (by simpa using hkb), List.getElem_map,
      ← blockPixel_eq hkb]
    exact nearestColour_leastAt _ _ _

end Sys2Proof.Machine
end

section
/-! PROOFS. The stored block (R72, R74, R75): the 8 bytes of a compressed block and the four colours a block decodes to,
the round trip of a solid block (R78), and the runs of BC.ENC and BC.DEC (R76, R77). -/

namespace Sys2Proof.Machine

/-! ### Codes and indices that fit a stored block (R74) -/

/-- Both codes fit two bytes, and there are sixteen indices of 2 bits. -/
structure Compressed.Fits (c : Compressed) : Prop where
  c0_lt : c.c0 < 65536
  c1_lt : c.c1 < 65536
  idx_length : c.idx.length = 16
  idx_lt : ∀ i ∈ c.idx, i < 4

theorem encRGB565_lt (x : Pixel) : encRGB565 x < 65536 := by
  obtain ⟨heq, hlt⟩ := encRGB565_eq (Config.defaultParams 1) x
  exact heq ▸ hlt

theorem compressBlock_fits (p : Params) (best : Bool) {blk : List Pixel} (h : blk.length = 16) :
    (compressBlock p best blk).Fits where
  c0_lt := compressBlock_c0 p best blk ▸ max_lt (encRGB565_lt _) (encRGB565_lt _)
  c1_lt := compressBlock_c1 p best blk ▸ min_lt_of_left_lt (encRGB565_lt _)
  idx_length := by rw [compressBlock_idx, List.length_map, h]
  idx_lt := List.forall_mem_map.2 fun x _ => (nearestColour_leastAt _ _ x).1

/-! ### The bytes of a stored block (R74) -/

/-- A code stored in two bytes. -/
def codeAt (bs : List Byte) (k : Nat) : Nat := 256 * (bs.getD k 0).toNat + (bs.getD (k + 1) 0).toNat

theorem fromBigEndian_pair {bs : List Byte} {k : Nat} (h : k + 2 ≤ bs.length) :
    fromBigEndian ((bs.drop k).take 2) = codeAt bs k := by
  have hpair : (bs.drop k).take 2 = [bs[k], bs[k + 1]] := by
    rw [List.drop_eq_getElem_cons (by omega), List.drop_eq_getElem_cons (by omega)]
    rfl
  rw [hpair, codeAt, List.getD_eq_getElem _ _ (by omega), List.getD_eq_getElem _ _ (by omega)]
  simp [fromBigEndian, Nat.mul_comm]

theorem codeAt_lt (bs : List Byte) (k : Nat) : codeAt bs k < 256 ^ 2 := by
  have hhigh := (bs.getD k 0).isLt
  have hlow := (bs.getD (k + 1) 0).isLt
  rw [codeAt]
  omega

/-- The 2-bit slots of a byte, written with powers of 4. -/
theorem slotAt_two (bs : List Byte) (k : Nat) :
    slotAt 2 bs k = (bs.getD (k / 4) 0).toNat / 4 ^ (3 - k % 4) % 4 := by
  rw [slotAt, slotShift_eq (by decide), Nat.pow_mul]
  rfl

theorem slotAt_two_lt (bs : List Byte) (k : Nat) : slotAt 2 bs k < 4 := Nat.mod_lt _ (by decide)

theorem Compressed.bytes_drop_codes (c : Compressed) : c.bytes.drop 4 = pack 2 c.idx :=
  List.drop_left' (by simp)

namespace Compressed.Fits
variable {c : Compressed} (hc : c.Fits)
include hc

theorem bytes_length : c.bytes.length = 8 := by
  simp [Compressed.bytes, packedLen, ceilDiv, hc.idx_length]

theorem fromBigEndian_c0 : fromBigEndian (c.bytes.take 2) = c.c0 := by
  rw [Compressed.bytes, List.append_assoc, List.take_left' (bigEndian_length _ _), fromBigEndian_bigEndian]
  exact Nat.mod_eq_of_lt hc.c0_lt

theorem fromBigEndian_c1 : fromBigEndian ((c.bytes.drop 2).take 2) = c.c1 := by
  rw [Compressed.bytes, List.append_assoc, List.drop_left' (bigEndian_length _ _),
    List.take_left' (bigEndian_length _ _), fromBigEndian_bigEndian]
  exact Nat.mod_eq_of_lt hc.c1_lt

theorem unpack_idx : unpack 2 16 (c.bytes.drop 4) = c.idx := by
  rw [Compressed.bytes_drop_codes, ← hc.idx_length, unpack_pack (by decide)]
  exact (List.map_congr_left fun i hi => Nat.mod_eq_of_lt (hc.idx_lt i hi)).trans (List.map_id _)

/-- Decompression gives each pixel the colour its index names. -/
theorem decompress_bytes : decompressBlock c.bytes =
    c.idx.map fun i => (blockColours c.c0 c.c1).getD i Pixel.zero := by
  simp only [decompressBlock, hc.fromBigEndian_c0, hc.fromBigEndian_c1, hc.unpack_idx]

end Compressed.Fits

/-! ### The round trip of a solid block (R78) -/

/-- A third of the way between two equal colours is that colour. -/
theorem blendThird_self {m n : Nat} (h : m + n = 3) {e : Pixel} (ha : e.a = 255) : blendThird m n e e = e := by
  have hchannel : ∀ b : Byte, BitVec.ofNat 8 ((m * b.toNat + n * b.toNat + 1) / 3) = b := fun b => by
    have hthird : (m * b.toNat + n * b.toNat + 1) / 3 = b.toNat := by
      rw [← Nat.add_mul, h]
      omega
    rw [hthird, BitVec.ofNat_toNat, BitVec.setWidth_eq]
  simp only [blendThird, Pixel.ofNats, hchannel]
  exact congrArg (Pixel.mk e.r e.g e.b) ha.symm

/-- A block whose two codes are equal has one colour. -/
theorem blockColours_self (c : Nat) : blockColours c c = List.replicate 4 (decRGB565 c) := by
  simp only [blockColours, blendThird_self (rfl : 2 + 1 = 3) (e := decRGB565 c) rfl,
    blendThird_self (rfl : 1 + 2 = 3) (e := decRGB565 c) rfl]
  rfl

theorem compressBlock_solid (p : Params) (best : Bool) (x : Pixel) :
    (compressBlock p best (List.replicate 16 x)).c0 = encRGB565 x ∧
      (compressBlock p best (List.replicate 16 x)).c1 = encRGB565 x := by
  obtain ⟨h0, h1⟩ := endpointsOf_mem p best (List.length_replicate (n := 16) (a := x))
  rw [compressBlock_c0, compressBlock_c1, List.eq_of_mem_replicate h0, List.eq_of_mem_replicate h1]
  exact ⟨max_self _, min_self _⟩

/-- Settles O47: both stored codes are the pixel's, so that every index names the one colour of the block. -/
theorem solidBlockRoundTrip : Obligations.SolidBlockRoundTrip := by
  intro p best x
  have hfits := compressBlock_fits p best (List.length_replicate (n := 16) (a := x))
  obtain ⟨h0, h1⟩ := compressBlock_solid p best x
  rw [hfits.decompress_bytes, h0, h1, blockColours_self]
  refine List.eq_replicate_iff.2 ⟨by rw [List.length_map, hfits.idx_length], List.forall_mem_map.2 fun i hi => ?_⟩
  exact List.getD_replicate _ (hfits.idx_lt i hi)

/-! ### Blocks in a run of blocks -/

/-- Item `x` of block `m` in a run of blocks of one length. -/
theorem flatMap_range_getD {α : Type} {n w m x : Nat} {f : Nat → List α} (hf : ∀ j < n, (f j).length = w)
    (hm : m < n) (hx : x < w) (d : α) : ((List.range n).flatMap f).getD (w * m + x) d = (f m).getD x d := by
  rw [List.flatMap_def, Nat.mul_comm w m,
    getD_flatten (List.forall_mem_map.2 fun j hj => hf j (List.mem_range.1 hj)) hx,
    List.getD_eq_getElem _ [] (by simpa using hm), List.getElem_map, List.getElem_range]

/-! ### BC.ENC (R76) -/

/-- The pixels of block `m` of an input of BC.ENC. -/
def inputBlock (v : List Byte) (m : Nat) : List Pixel := (List.range 16).map fun k => pixelAt v (16 * m + k)

@[simp] theorem inputBlock_length (v : List Byte) (m : Nat) : (inputBlock v m).length = 16 := by simp [inputBlock]

theorem pixelsOf_block {n m : Nat} (v : List Byte) (hm : m < n) :
    ((pixelsOf (16 * n) v).drop (16 * m)).take 16 = inputBlock v m := by
  refine List.ext_getElem (by simp; omega) fun k _ _ => ?_
  simp [pixelsOf, inputBlock]

theorem compressBlocks_getD (p : Params) (best : Bool) {n m x : Nat} (v : List Byte) (hm : m < n) (hx : x < 8) :
    (compressBlocks p best n (pixelsOf (16 * n) v)).getD (8 * m + x) 0 =
      (compressBlock p best (inputBlock v m)).bytes.getD x 0 := by
  rw [compressBlocks, flatMap_range_getD (fun j hj => ?_) hm hx, pixelsOf_block v hm]
  rw [pixelsOf_block v hj]
  exact compressed_bytes_length p best (inputBlock_length v j)

/-- The layout of R74, wherever the bytes of a block stand. -/
theorem Compressed.Fits.layout {c : Compressed} (hc : c.Fits) {bs : List Byte} {a : Nat}
    (h : ∀ x < 8, bs.getD (a + x) 0 = c.bytes.getD x 0) :
    codeAt bs a = c.c0 ∧ codeAt bs (a + 2) = c.c1 ∧
      ∀ k < 16, (bs.getD (a + 4 + k / 4) 0).toNat / 4 ^ (3 - k % 4) % 4 = c.idx.getD k 0 := by
  have hcode : ∀ k, k + 2 ≤ 8 → codeAt bs (a + k) = fromBigEndian ((c.bytes.drop k).take 2) := fun k hk => by
    rw [fromBigEndian_pair (hc.bytes_length.symm ▸ hk), codeAt, codeAt, Nat.add_assoc, h k (by omega),
      h (k + 1) (by omega)]
  refine ⟨(hcode 0 (by decide)).trans hc.fromBigEndian_c0, (hcode 2 (by decide)).trans hc.fromBigEndian_c1,
    fun k hk => ?_⟩
  have hbyte : bs.getD (a + 4 + k / 4) 0 = (c.bytes.drop 4).getD (k / 4) 0 := by
    rw [Nat.add_assoc, h (4 + k / 4) (by omega)]
    simp [List.getD_eq_getElem?_getD]
  rw [hbyte, ← slotAt_two, ← unpack_getD 2 _ hk, hc.unpack_idx]

/-- Settles O45: block m of the output is the bytes of the compressed block m, in the layout of R74. -/
theorem blockEncodeCompletes : Obligations.BlockEncodeCompletes := by
  intro s v hacc hread
  have hlen : (compressBlocks s.params s.optQuality s.countVal (pixelsOf (16 * s.countVal) v)).length =
      8 * s.countVal := compressBlocks_length _ _ (by simp)
  obtain ⟨t, ht, hstored⟩ := exec_streamPlan hacc (rfl : commandPlan s .bcEnc = some (bcEncPlan s)) hread hlen
    fun hne => Nat.mul_ne_zero (by decide) (Nat.ne_zero_of_mul_ne_zero_right hne)
  refine ⟨t, _, ht, hstored, hlen, fun m hm => ?_⟩
  have hfits := compressBlock_fits s.params s.optQuality (inputBlock_length v m)
  exact hfits.layout fun x hx => compressBlocks_getD s.params s.optQuality v hm hx

/-! ### BC.DEC (R77) -/

theorem channelsOf_blendThird {m n : Nat} (h : m + n = 3) (x y : Pixel) :
    channelsOf (blendThird m n x y) =
      ((m * x.r.toNat + n * y.r.toNat + 1) / 3, (m * x.g.toNat + n * y.g.toNat + 1) / 3,
        (m * x.b.toNat + n * y.b.toNat + 1) / 3, 255) := by
  have hfits : ∀ b c : Byte, (BitVec.ofNat 8 ((m * b.toNat + n * c.toNat + 1) / 3)).toNat =
      (m * b.toNat + n * c.toNat + 1) / 3 := fun b c => by
    have hb : m * b.toNat ≤ m * 255 := Nat.mul_le_mul_left m (Nat.le_of_lt_succ b.isLt)
    have hc : n * c.toNat ≤ n * 255 := Nat.mul_le_mul_left n (Nat.le_of_lt_succ c.isLt)
    rw [BitVec.toNat_ofNat]
    exact Nat.mod_eq_of_lt (by omega)
  simp only [blendThird, channelsOf_ofNats, hfits]
  rfl

/-- The four colours of a block channel by channel (R72). -/
theorem channelsOf_blockColours (c0 c1 : Nat) {i : Nat} (hi : i < 4) :
    channelsOf ((blockColours c0 c1).getD i Pixel.zero) =
      (blockColourChannel (decRGB565 c0).r.toNat (decRGB565 c1).r.toNat i,
        blockColourChannel (decRGB565 c0).g.toNat (decRGB565 c1).g.toNat i,
        blockColourChannel (decRGB565 c0).b.toNat (decRGB565 c1).b.toNat i, 255) := by
  match i, hi with
  | 0, _ => rfl
  | 1, _ => rfl
  | 2, _ =>
    refine (channelsOf_blendThird (rfl : 2 + 1 = 3) (decRGB565 c0) (decRGB565 c1)).trans ?_
    simp only [Nat.one_mul, blockColourChannel]
  | 3, _ =>
    refine (channelsOf_blendThird (rfl : 1 + 2 = 3) (decRGB565 c0) (decRGB565 c1)).trans ?_
    simp only [Nat.one_mul, blockColourChannel]

/-- Decompression reads 8 bytes. -/
theorem decompressBlock_take (bs : List Byte) : decompressBlock (bs.take 8) = decompressBlock bs := by
  have hidx : unpack 2 16 ((bs.drop 4).take 4) = unpack 2 16 (bs.drop 4) := unpack_take (by decide) 16 _
  simp only [decompressBlock, List.drop_take, List.take_take, Nat.reduceSub, Nat.min_eq_left (by decide : 2 ≤ 8),
    Nat.min_eq_left (by decide : 2 ≤ 6), hidx]

/-- Pixel `k` of a block is the colour its slot selects (R75). -/
theorem decompressBlock_getD {bs : List Byte} (h : 4 ≤ bs.length) {k : Nat} (hk : k < 16) :
    (decompressBlock bs).getD k Pixel.zero =
      (blockColours (codeAt bs 0) (codeAt bs 2)).getD (slotAt 2 (bs.drop 4) k) Pixel.zero := by
  have h0 : fromBigEndian (bs.take 2) = codeAt bs 0 := fromBigEndian_pair (k := 0) (by omega)
  rw [List.getD_eq_getElem _ _ (by simpa using hk)]
  simp only [decompressBlock, List.getElem_map, h0, fromBigEndian_pair h]
  rw [← List.getD_eq_getElem _ 0, unpack_getD 2 _ hk]

/-- The rule's channels, over the model's endpoints and slot. -/
theorem decodedBlockChannels_eq (bs : List Byte) (k : Nat) :
    decodedBlockChannels bs k = channelsOf
      ((blockColours (codeAt bs 0) (codeAt bs 2)).getD (slotAt 2 (bs.drop 4) k) Pixel.zero) := by
  have hbyte : (bs.drop 4).getD (k / 4) 0 = bs.getD (4 + k / 4) 0 := by simp [List.getD_eq_getElem?_getD]
  have h0 := decRGB565_channels (codeAt_lt bs 0)
  have h1 := decRGB565_channels (codeAt_lt bs 2)
  simp only [codeAt, Nat.reduceAdd] at h0 h1
  rw [channelsOf_blockColours _ _ (slotAt_two_lt _ k), slotAt_two, hbyte]
  simp only [decodedBlockChannels, ← h0, ← h1, channelsOf, codeAt, Nat.reduceAdd]

/-- Settles O46: a pixel of the output is the colour its slot selects among the four, which are the rule's. -/
theorem blockDecodeCompletes : Obligations.BlockDecodeCompletes := by
  intro s v hacc hread
  have hv : v.length = 8 * s.countVal := readBytes_length hread
  have hlen : (pixelBytes (decompressBlocks s.countVal v)).length = 64 * s.countVal := by
    simp; omega
  obtain ⟨t, ht, hstored⟩ := exec_streamPlan hacc (rfl : commandPlan s .bcDec = some (bcDecPlan s)) hread hlen
    fun hne => Nat.mul_ne_zero (by decide) (Nat.ne_zero_of_mul_ne_zero_right hne)
  refine ⟨t, _, ht, hstored, hlen, fun m hm k hk => ?_⟩
  replace hm : m < s.countVal := hm
  rw [pixelAt_pixelBytes (by simp; omega), ← List.getD_eq_getElem _ Pixel.zero, decompressBlocks,
    flatMap_range_getD (fun _ _ => decompressBlock_length _) hm hk, decompressBlock_take]
  rw [decompressBlock_getD (by simp; omega) hk, decodedBlockChannels_eq]

end Sys2Proof.Machine
end

section
/-! PROOFS. The tiled traversal (R90, R94) as a pair of inverse maps of the element positions, and the runs of TILE.F
and TILE.I (R92, R93), each of which gathers its elements along one of the two. -/

namespace Sys2Proof.Machine

/-! ### Numbers of two digits: `q * n + c` with `c < n` -/

theorem twoDigits_lt {q c m n : Nat} (hq : q < m) (hc : c < n) : q * n + c < m * n :=
  Nat.mul_comm n q ▸ Nat.mul_add_lt_mul_of_lt_of_lt hq hc

theorem twoDigits_div {c n : Nat} (q : Nat) (hc : c < n) : (q * n + c) / n = q := by
  rw [Nat.mul_comm, Nat.mul_add_div (Nat.zero_lt_of_lt hc), Nat.div_eq_of_lt hc, Nat.add_zero]

/-! ### The traversal of a grid of whole tiles (R90, R94) -/

/-- A grid of `w`×`h` is made of whole tiles of `tw`×`th` (R90). -/
structure TiledDims (w h tw th : Nat) : Prop where
  tw_pos : 0 < tw
  th_pos : 0 < th
  width : w / tw * tw = w
  height : h / th * th = h

theorem tiledDims_of_mod {w h tw th : Nat} (htw : 1 ≤ tw) (hth : 1 ≤ th) (hw : w % tw = 0)
    (hh : h % th = 0) : TiledDims w h tw th :=
  ⟨htw, hth, Nat.div_mul_cancel (Nat.dvd_of_mod_eq_zero hw), Nat.div_mul_cancel (Nat.dvd_of_mod_eq_zero hh)⟩

/-- The place in the tiled order of the element at position `j` of the raster, the other way from `tileLinear` (R94). -/
def rasterPlace (w tw th j : Nat) : Nat := tilePlace w tw th (j / w) (j % w)

theorem rasterPlace_twoDigits {w col : Nat} (tw th row : Nat) (hcol : col < w) :
    rasterPlace w tw th (row * w + col) = tilePlace w tw th row col := by
  rw [rasterPlace, twoDigits_div row hcol, Nat.mul_add_mod_of_lt hcol]

section Traversal
variable {w h tw th : Nat} (hd : TiledDims w h tw th)
include hd

/-- The elements of the grid are the elements of all its tiles. -/
theorem TiledDims.area : h / th * (w / tw) * (tw * th) = w * h := by
  calc h / th * (w / tw) * (tw * th)
      = (w / tw * tw) * (h / th * th) := by ring
    _ = w * h := by rw [hd.width, hd.height]

theorem TiledDims.col_div_lt {col : Nat} (hcol : col < w) : col / tw < w / tw :=
  Nat.div_lt_of_lt_mul (by rwa [Nat.mul_comm, hd.width])

theorem TiledDims.row_div_lt {row : Nat} (hrow : row < h) : row / th < h / th :=
  Nat.div_lt_of_lt_mul (by rwa [Nat.mul_comm, hd.height])

/-- Position inside the tile of (row, col). -/
theorem TiledDims.inTile_lt (row col : Nat) : row % th * tw + col % tw < tw * th :=
  Nat.mul_comm tw th ▸ twoDigits_lt (Nat.mod_lt row hd.th_pos) (Nat.mod_lt col hd.tw_pos)

theorem tilePlace_lt {row col : Nat} (hrow : row < h) (hcol : col < w) : tilePlace w tw th row col < w * h := by
  rw [tilePlace, Nat.add_assoc, ← hd.area]
  exact twoDigits_lt (twoDigits_lt (hd.row_div_lt hrow) (hd.col_div_lt hcol)) (hd.inTile_lt row col)

/-- The traversal meets (row, col) at its place: the place's digits are the tile's and the element's. -/
theorem tileCoord_tilePlace {col : Nat} (row : Nat) (hcol : col < w) :
    tileCoord w tw th (tilePlace w tw th row col) = (row, col) := by
  have hin := hd.inTile_lt row col
  have htx := hd.col_div_lt hcol
  have hc := Nat.mod_lt col hd.tw_pos
  simp only [tileCoord, tilePlace, Nat.add_assoc, twoDigits_div _ hin, Nat.mul_add_mod_of_lt hin,
    twoDigits_div _ htx, Nat.mul_add_mod_of_lt htx, twoDigits_div _ hc, Nat.mul_add_mod_of_lt hc,
    Nat.div_add_mod']

/-- The row and the column of element `i` of a tile. -/
theorem TiledDims.inTile_digits_lt {i : Nat} (hi : i < tw * th) : i / tw < th ∧ i % tw < tw :=
  ⟨Nat.div_lt_of_lt_mul hi, Nat.mod_lt i hd.tw_pos⟩

/-- The tile row and the tile column of place `k`. -/
theorem TiledDims.tile_digits_lt {k : Nat} (hk : k < w * h) :
    k / (tw * th) / (w / tw) < h / th ∧ k / (tw * th) % (w / tw) < w / tw := by
  have ht : k / (tw * th) < h / th * (w / tw) :=
    Nat.div_lt_of_lt_mul (by rwa [Nat.mul_comm, hd.area])
  exact ⟨Nat.div_lt_of_lt_mul (ht.trans_eq (Nat.mul_comm _ _)), Nat.mod_lt _ (Nat.pos_of_lt_mul_left ht)⟩

theorem tileCoord_lt {k : Nat} (hk : k < w * h) :
    (tileCoord w tw th k).1 < h ∧ (tileCoord w tw th k).2 < w := by
  obtain ⟨hty, htx⟩ := hd.tile_digits_lt hk
  obtain ⟨hr, hc⟩ := hd.inTile_digits_lt (Nat.mod_lt k (Nat.mul_pos hd.tw_pos hd.th_pos))
  exact ⟨(twoDigits_lt hty hr).trans_eq hd.height, (twoDigits_lt htx hc).trans_eq hd.width⟩

/-- The closed form gives back the place of a coordinate of the traversal. -/
theorem tilePlace_tileCoord (k : Nat) :
    tilePlace w tw th (tileCoord w tw th k).1 (tileCoord w tw th k).2 = k := by
  obtain ⟨hr, hc⟩ := hd.inTile_digits_lt (Nat.mod_lt k (Nat.mul_pos hd.tw_pos hd.th_pos))
  simp only [tileCoord, tilePlace, Nat.add_assoc, twoDigits_div _ hr, Nat.mul_add_mod_of_lt hr,
    twoDigits_div _ hc, Nat.mul_add_mod_of_lt hc, Nat.div_add_mod']

end Traversal

/-- Settles O48: in both directions, the digits of the place and of the coordinates are the same. -/
theorem tileOrderBijection : Obligations.TileOrderBijection := by
  intro w h tw th htw hth hw hh
  have hd := tiledDims_of_mod htw hth hw hh
  refine ⟨fun k hk => ?_, fun row hrow col hcol => ?_⟩
  · obtain ⟨hrow, hcol⟩ := tileCoord_lt hd hk
    exact ⟨hrow, hcol, tilePlace_tileCoord hd k⟩
  · exact ⟨tilePlace_lt hd hrow hcol, tileCoord_tilePlace hd row hcol⟩

/-! ### The two maps of positions undo each other (R94) -/

section Positions
variable {w h tw th : Nat} (hd : TiledDims w h tw th)
include hd

theorem tileLinear_tilePlace {col : Nat} (row : Nat) (hcol : col < w) :
    tileLinear w tw th (tilePlace w tw th row col) = row * w + col := by
  rw [tileLinear, tileCoord_tilePlace hd row hcol]

theorem tileLinear_mapsTo : Set.MapsTo (tileLinear w tw th) (Set.Iio (w * h)) (Set.Iio (w * h)) := by
  intro k hk
  obtain ⟨hrow, hcol⟩ := tileCoord_lt hd hk
  exact (twoDigits_lt hrow hcol).trans_eq (Nat.mul_comm h w)

theorem rasterPlace_mapsTo : Set.MapsTo (rasterPlace w tw th) (Set.Iio (w * h)) (Set.Iio (w * h)) := fun _ hj =>
  tilePlace_lt hd (Nat.div_lt_of_lt_mul hj) (Nat.mod_lt _ (Nat.pos_of_lt_mul_right hj))

theorem rasterPlace_leftInvOn : Set.LeftInvOn (rasterPlace w tw th) (tileLinear w tw th) (Set.Iio (w * h)) := by
  intro k hk
  obtain ⟨_, hcol⟩ := tileCoord_lt hd hk
  rw [tileLinear, rasterPlace_twoDigits tw th _ hcol, tilePlace_tileCoord hd]

theorem tileLinear_leftInvOn :
    Set.LeftInvOn (tileLinear w tw th) (rasterPlace w tw th) (Set.Iio (w * h)) := by
  intro j hj
  rw [rasterPlace, tileLinear_tilePlace hd _ (Nat.mod_lt _ (Nat.pos_of_lt_mul_right hj)), Nat.div_add_mod']

end Positions

/-! ### Elements gathered along a map of positions (R24, R92, R93) -/

/-- The bytes of `n` elements of `es` bytes each, element `k` of the result being element `σ k` of `v`. -/
def gatherBytes (es n : Nat) (σ : Nat → Nat) (v : List Byte) : List Byte :=
  (List.range n).flatMap fun k => elementBytes es v (σ k)

/-- The elements the model reorders as a list of lists, their bytes in a row. -/
theorem flatten_gathered {es n : Nat} {σ : Nat → Nat} {v : List Byte} (hσ : Set.MapsTo σ (Set.Iio n) (Set.Iio n)) :
    ((List.range n).map fun k => ((List.range n).map (elementBytes es v)).getD (σ k) []).flatten =
      gatherBytes es n σ v := by
  rw [gatherBytes, List.flatMap_def]
  refine congrArg List.flatten (List.map_congr_left fun k hk => ?_)
  have hlt : σ k < n := hσ (List.mem_range.1 hk)
  rw [List.getD_eq_getElem _ _ (by simpa using hlt), List.getElem_map, List.getElem_range]

section Gather
variable {es n : Nat} {σ : Nat → Nat} {v : List Byte} (hv : v.length = es * n)
  (hσ : Set.MapsTo σ (Set.Iio n) (Set.Iio n))
include hv hσ

theorem gatherBytes_length : (gatherBytes es n σ v).length = es * n := by
  rw [gatherBytes, List.flatMap_def, flatten_length_const (n := es), List.length_map, List.length_range]
  exact List.forall_mem_map.2 fun k hk => elementBytes_length hv (hσ (List.mem_range.1 hk))

/-- Byte `b` of element `k` of the result is byte `b` of element `σ k` of the input. -/
theorem gatherBytes_getD {k b : Nat} (hk : k < n) (hb : b < es) :
    (gatherBytes es n σ v).getD (es * k + b) 0 = v.getD (es * σ k + b) 0 := by
  rw [gatherBytes, flatMap_range_getD (fun j hj => elementBytes_length hv (hσ hj)) hk hb]
  simp [elementBytes, List.getD_eq_getElem?_getD, hb]

/-- Gathering along a map that σ undoes restores the input. -/
theorem gatherBytes_gatherBytes {τ : Nat → Nat} (hτ : Set.MapsTo τ (Set.Iio n) (Set.Iio n))
    (hinv : Set.LeftInvOn σ τ (Set.Iio n)) : gatherBytes es n τ (gatherBytes es n σ v) = v := by
  have hgather := gatherBytes_length hv hσ
  have hlen := gatherBytes_length hgather hτ
  refine List.ext_getElem (hlen.trans hv.symm) fun x hx hxv => ?_
  have hk : x / es < n := Nat.div_lt_of_lt_mul (hlen ▸ hx)
  have hb : x % es < es := Nat.mod_lt x (Nat.pos_of_lt_mul_right (hlen ▸ hx))
  calc (gatherBytes es n τ (gatherBytes es n σ v))[x]
      = (gatherBytes es n τ (gatherBytes es n σ v)).getD (es * (x / es) + x % es) 0 := by
        rw [Nat.div_add_mod, List.getD_eq_getElem _ _ hx]
    _ = v.getD (es * σ (τ (x / es)) + x % es) 0 := by
        rw [gatherBytes_getD hgather hτ hk hb, gatherBytes_getD hv hσ (hτ hk) hb]
    _ = v[x] := by rw [hinv hk, Nat.div_add_mod, List.getD_eq_getElem _ _ hxv]

end Gather

/-! ### The run of a Tiler command (R91 to R93) -/

/-- What the checks of R91 let pass. -/
theorem tilerCheck_none {s : State} (h : tilerCheck s = none) :
    TiledDims s.width.toNat s.height.toNat s.tilew.toNat s.tileh.toNat := by
  obtain ⟨hoperand, hrest⟩ := firstFault_eq_none_cons h
  obtain ⟨hdims, _⟩ := firstFault_eq_none_cons hrest
  obtain ⟨_, hw, hh⟩ := dimsNotTiled_false hdims
  simp only [Bool.or_eq_false_iff, beq_eq_false_iff_ne] at hoperand
  obtain ⟨⟨⟨⟨_, htw⟩, _⟩, hth⟩, _⟩ := hoperand
  exact tiledDims_of_mod (Nat.one_le_iff_ne_zero.2 htw) (Nat.one_le_iff_ne_zero.2 hth) hw hh

/-- For a grid of width `W` with tiles of `tw`×`th`, the position of the input at which each position of the output
takes its element, in the order `W tw th k`. -/
abbrev PositionMap := Nat → Nat → Nat → Nat → Nat

/-- The plan of a Tiler command whose output takes element `k` from element `σ W tw th k` of its input. -/
def gatherPlan (σ : PositionMap) (s : State) : Plan :=
  tilerPlan s fun elems => (List.range (rasterPixels s)).map fun k =>
    elems.getD (σ s.width.toNat s.tilew.toNat s.tileh.toNat k) []

/-- TILE.F gathers along the traversal (R92). -/
theorem commandPlan_tileF (s : State) : commandPlan s .tileF = some (gatherPlan tileLinear s) := rfl

/-- TILE.I gathers along its inverse (R93, R94). -/
theorem commandPlan_tileI (s : State) : commandPlan s .tileI = some (gatherPlan rasterPlace s) := rfl

/-- `σ` takes no element from outside the grid. -/
def KeepsGrid (σ : PositionMap) : Prop :=
  ∀ {w h tw th : Nat}, TiledDims w h tw th → Set.MapsTo (σ w tw th) (Set.Iio (w * h)) (Set.Iio (w * h))

/-- The bytes a Tiler command stores. -/
def gatheredBytes (σ : PositionMap) (s : State) (v : List Byte) : List Byte :=
  gatherBytes s.esize.toNat (rasterPixels s) (σ s.width.toNat s.tilew.toNat s.tileh.toNat) v

theorem gatherPlan_compute {σ : PositionMap} {s : State} (v : List Byte)
    (hmaps : Set.MapsTo (σ s.width.toNat s.tilew.toNat s.tileh.toNat) (Set.Iio (rasterPixels s))
      (Set.Iio (rasterPixels s))) :
    (gatherPlan σ s).compute [v] = .ok
      { writes := [(s.dstAddr, gatheredBytes σ s v)]
        dstlen := s.esize.toNat * rasterPixels s
        pallen := 0 } := by
  rw [gatheredBytes, ← flatten_gathered hmaps]
  rfl

section Run
variable {i : Instr} {σ : PositionMap} (hp : ∀ s, commandPlan s i = some (gatherPlan σ s))
  {s : State} (hacc : Accepted s i)
include hp hacc

theorem accepted_tiledDims : TiledDims s.width.toNat s.height.toNat s.tilew.toNat s.tileh.toNat :=
  tilerCheck_none (accepted_plan hacc (hp s)).1

/-- A Tiler command that passes its checks, its input readable, stores the gathered elements at DST. -/
theorem exec_gatherPlan (hσ : KeepsGrid σ) {v : List Byte}
    (hread : s.mem.readBytes s.src.toNat (s.esize.toNat * rasterPixels s) = some v) :
    ∃ t, exec i s = .next t ∧ StoredAtDst s t (gatheredBytes σ s v) 0 := by
  have hmaps : Set.MapsTo (σ s.width.toNat s.tilew.toNat s.tileh.toNat) (Set.Iio (rasterPixels s))
      (Set.Iio (rasterPixels s)) := hσ (accepted_tiledDims hp hacc)
  obtain ⟨_, _, hadm⟩ := accepted_plan hacc (hp s)
  have hfits : s.esize.toNat * rasterPixels s < 2 ^ 32 :=
    admitted_output_lt hacc.1 hadm (List.mem_singleton_self _) (List.mem_singleton_self _) id
  have hregions : readRegions s.mem (gatherPlan σ s).ins = some [v] :=
    (readRegions_single _ _).trans (congrArg (Option.map _) hread)
  exact exec_storedAtDst hacc (hp s) hregions (gatherPlan_compute v hmaps)
    (gatherBytes_length (readBytes_length hread) hmaps) hfits

end Run

/-- Settles O49: the traversal meets the element at (row, col) at its place. -/
theorem tileForwardCompletes : Obligations.TileForwardCompletes := by
  intro s v hacc hread
  have hd := accepted_tiledDims commandPlan_tileF hacc
  have hmaps := tileLinear_mapsTo hd
  have hv := readBytes_length hread
  obtain ⟨t, ht, hstored⟩ := exec_gatherPlan commandPlan_tileF hacc tileLinear_mapsTo hread
  refine ⟨t, _, ht, hstored, gatherBytes_length hv hmaps, fun row hrow col hcol b hb => ?_⟩
  have hplace := tilePlace_lt hd hrow hcol
  rw [← tileLinear_tilePlace hd row hcol]
  exact gatherBytes_getD hv hmaps hplace hb

/-- Settles O50: the element at position `L(k)` of the raster comes from place `k`, which R94's form gives back. -/
theorem tileInverseCompletes : Obligations.TileInverseCompletes := by
  intro s v hacc hread
  have hd := accepted_tiledDims commandPlan_tileI hacc
  have hmaps := rasterPlace_mapsTo hd
  have hv := readBytes_length hread
  obtain ⟨t, ht, hstored⟩ := exec_gatherPlan commandPlan_tileI hacc rasterPlace_mapsTo hread
  refine ⟨t, _, ht, hstored, gatherBytes_length hv hmaps, fun k hk b hb => ?_⟩
  have hbyte := gatherBytes_getD hv hmaps (tileLinear_mapsTo hd hk) hb
  rw [rasterPlace_leftInvOn hd hk] at hbyte
  exact hbyte

/-! ### One Tiler command after the other (R94) -/

/-- Two Tiler commands, the second gathering along a map the first one's undoes, return the input bytes. -/
theorem gather_roundTrip {i j : Instr} {σ τ : PositionMap}
    (hi : ∀ s, commandPlan s i = some (gatherPlan σ s)) (hj : ∀ s, commandPlan s j = some (gatherPlan τ s))
    (hσ : KeepsGrid σ) (hτ : KeepsGrid τ)
    (hinv : ∀ {w h tw th}, TiledDims w h tw th → Set.LeftInvOn (σ w tw th) (τ w tw th) (Set.Iio (w * h)))
    {s t : State} {v : List Byte} {dst2 : Word} (hacc : Accepted s i)
    (hread : s.mem.readBytes s.src.toNat (s.esize.toNat * rasterPixels s) = some v)
    (ht : exec i s = .next t) (hacc2 : Accepted { t with src := s.dst, dst := dst2 } j) :
    ∃ u, exec j { t with src := s.dst, dst := dst2 } = .next u ∧
      u.mem.readBytes dst2.toNat (s.esize.toNat * rasterPixels s) = some v := by
  have hd := accepted_tiledDims hi hacc
  have hv := readBytes_length hread
  have hlen : (gatheredBytes σ s v).length = s.esize.toNat * rasterPixels s := gatherBytes_length hv (hσ hd)
  obtain ⟨t', ht', hfirst⟩ := exec_gatherPlan hi hacc hσ hread
  obtain rfl : t = t' := Host.Outcome.next.inj (ht.symm.trans ht')
  have hsize : t.esize.toNat * rasterPixels { t with src := s.dst, dst := dst2 } =
      s.esize.toNat * rasterPixels s := by rw [hfirst.kept]; rfl
  have hsame : gatheredBytes τ { t with src := s.dst, dst := dst2 } = gatheredBytes τ s := by
    rw [hfirst.kept]; rfl
  obtain ⟨u, hu, hsecond⟩ := exec_gatherPlan hj hacc2 hτ (v := gatheredBytes σ s v)
    (by rw [hsize, ← hlen]; exact hfirst.stored)
  have hback : gatheredBytes τ { t with src := s.dst, dst := dst2 } (gatheredBytes σ s v) = v := by
    rw [hsame]
    exact gatherBytes_gatherBytes hv (hσ hd) (hτ hd) (hinv hd)
  rw [hback] at hsecond
  exact ⟨u, hu, hv ▸ hsecond.stored⟩

/-- Settles O51: the maps of positions of the two commands undo each other in both orders. -/
theorem tilerRoundTrip : Obligations.TilerRoundTrip := by
  intro i j hij s t v dst2 hacc hread ht hacc2
  simp only [List.mem_cons, Prod.mk.injEq, List.not_mem_nil, or_false] at hij
  obtain ⟨rfl, rfl⟩ | ⟨rfl, rfl⟩ := hij
  · exact gather_roundTrip commandPlan_tileF commandPlan_tileI tileLinear_mapsTo rasterPlace_mapsTo
      tileLinear_leftInvOn hacc hread ht hacc2
  · exact gather_roundTrip commandPlan_tileI commandPlan_tileF rasterPlace_mapsTo tileLinear_mapsTo
      rasterPlace_leftInvOn hacc hread ht hacc2

end Sys2Proof.Machine
end

section
/-! PROOFS. The MipBuilder (R100 to R104): the rounded mean of a 2×2 box, the chain as iterated downsampling with its
last level the first of 1×1, and the runs of MIP.DOWN and MIP.CHAIN. -/

namespace Sys2Proof.Machine

/-! ### The mean of a clamped box (R101) -/

/-- The mean of four channels fits a channel. -/
theorem toNat_boxAverage (x0 x1 x2 x3 : Byte) : (BitVec.ofNat 8 (boxAverage x0 x1 x2 x3)).toNat =
    (x0.toNat + x1.toNat + x2.toNat + x3.toNat + 2) / 4 := by
  rw [boxAverage, Nat.shiftRight_eq_div_pow, BitVec.toNat_ofNat]
  exact Nat.mod_eq_of_lt (by omega)

/-- All four channels are averaged alike, alpha as the colours are. -/
theorem downPixel_channel (r : Raster) (x y : Nat) {ch : Pixel → Byte}
    (hch : ch ∈ [Pixel.r, Pixel.g, Pixel.b, Pixel.a]) :
    (ch (downPixel r x y)).toNat =
      ((ch (r.pixel (min (2 * y) (r.h - 1)) (min (2 * x) (r.w - 1)))).toNat +
        (ch (r.pixel (min (2 * y) (r.h - 1)) (min (2 * x + 1) (r.w - 1)))).toNat +
        (ch (r.pixel (min (2 * y + 1) (r.h - 1)) (min (2 * x) (r.w - 1)))).toNat +
        (ch (r.pixel (min (2 * y + 1) (r.h - 1)) (min (2 * x + 1) (r.w - 1)))).toNat + 2) / 4 := by
  simp only [List.mem_cons, List.not_mem_nil, or_false] at hch
  obtain rfl | rfl | rfl | rfl := hch
  all_goals exact toNat_boxAverage _ _ _ _

/-! ### Pixels by row and column (R7, R23) -/

/-- Pixel (row, col) of the raster a byte run holds. -/
theorem rasterOf_pixel {w h row col : Nat} (v : List Byte) (hrow : row < h) (hcol : col < w) :
    (rasterOf w h v).pixel row col = pixelAt v (row * w + col) :=
  pixelsOf_getD v ((twoDigits_lt hrow hcol).trans_eq (Nat.mul_comm h w))

/-- A sample clamped to the raster is one of its pixels (R101). -/
theorem rasterOf_pixel_clamped {w h : Nat} (hw : 1 ≤ w) (hh : 1 ≤ h) (v : List Byte) (row col : Nat) :
    (rasterOf w h v).pixel (min row (h - 1)) (min col (w - 1)) =
      pixelAt v (min row (h - 1) * w + min col (w - 1)) :=
  rasterOf_pixel v (by omega) (by omega)

/-- The bytes of the next level hold its pixels row after row. -/
theorem pixelAt_downRaster {r : Raster} {x y : Nat} (hx : x < (downRaster r).w) (hy : y < (downRaster r).h) :
    pixelAt (pixelBytes (downRaster r).px) (y * (downRaster r).w + x) = downPixel r x y := by
  have hk : y * (downRaster r).w + x < (downRaster r).px.length := by
    rw [downRaster_px_length, Nat.mul_comm (downRaster r).w]
    exact twoDigits_lt hy hx
  have hpx : (downRaster r).px[y * (downRaster r).w + x] =
      downPixel r ((y * (downRaster r).w + x) % (downRaster r).w) ((y * (downRaster r).w + x) / (downRaster r).w) := by
    simp [downRaster]
  rw [pixelAt_pixelBytes hk, hpx, Nat.mul_add_mod_of_lt hx, twoDigits_div y hx]

/-! ### The levels of a chain (R100, R102) -/

/-- A chain is iterated downsampling. -/
theorem chainFrom_eq_iterate (n : Nat) (r : Raster) : chainFrom n r = List.iterate downRaster r n := by
  induction n generalizing r with
  | zero => rfl
  | succ n ih => rw [chainFrom, ih]; rfl

theorem buildChain_length (r : Raster) : (buildChain r).length = chainLevels r.w r.h := chainFrom_length _ _

/-- Level `n` of a chain is the base downsampled `n` times. -/
theorem buildChain_getElem?_eq_some {r q : Raster} {n : Nat} (h : (buildChain r)[n]? = some q) :
    n < chainLevels r.w r.h ∧ q = downRaster^[n] r := by
  have hn : n < chainLevels r.w r.h := buildChain_length r ▸ (List.getElem?_eq_some_iff.1 h).1
  rw [buildChain, chainFrom_eq_iterate, List.getElem?_iterate _ _ _ _ hn] at h
  exact ⟨hn, (Option.some.inj h).symm⟩

theorem buildChain_base (r : Raster) : (buildChain r)[0]? = some r := by
  rw [buildChain, chainLevels, Nat.add_comm]
  rfl

theorem buildChain_successive {r p q : Raster} {n : Nat} (hp : (buildChain r)[n]? = some p)
    (hq : (buildChain r)[n + 1]? = some q) : q = downRaster p := by
  obtain ⟨_, rfl⟩ := buildChain_getElem?_eq_some hp
  obtain ⟨_, rfl⟩ := buildChain_getElem?_eq_some hq
  exact Function.iterate_succ_apply' downRaster n r

/-- The dimensions of level `n`, read off the list of all of them. -/
theorem buildChain_level_dims {r q : Raster} (hw : 1 ≤ r.w) (hh : 1 ≤ r.h) {n : Nat}
    (h : (buildChain r)[n]? = some q) : q.w = levelDim r.w n ∧ q.h = levelDim r.h n := by
  obtain ⟨hn, _⟩ := buildChain_getElem?_eq_some h
  have hdims := congrArg (·[n]?) (buildChain_dims hw hh)
  simpa [h, List.getElem?_range hn] using hdims

theorem levelDim_eq (b n : Nat) : levelDim b n = max 1 (b / 2 ^ n) := by
  rw [levelDim, Nat.shiftRight_eq_div_pow]

/-- An axis has shrunk to 1 once its halvings leave less than 2. -/
theorem levelDim_eq_one_iff (b n : Nat) : levelDim b n = 1 ↔ b < 2 ^ (n + 1) := by
  rw [levelDim_eq, max_eq_left_iff, ← Nat.lt_succ_iff, Nat.div_lt_iff_lt_mul (Nat.two_pow_pos n), Nat.pow_succ']

/-- The last level of a chain is its only one of 1×1: both axes are below `2 ^ (n + 1)` exactly when the logarithm of
the longer is at most `n`. -/
theorem lastLevel_iff {w h n : Nat} (hn : n < chainLevels w h) :
    n + 1 = chainLevels w h ↔ levelDim w n = 1 ∧ levelDim h n = 1 := by
  have hlog : Nat.log2 (max (max w h) 1) < n + 1 ↔ max (max w h) 1 < 2 ^ (n + 1) := Nat.log2_lt (by omega)
  have hone : 1 < 2 ^ (n + 1) := Nat.one_lt_two_pow n.succ_ne_zero
  rw [chainLevels] at hn ⊢
  rw [levelDim_eq_one_iff, levelDim_eq_one_iff]
  omega

/-! ### The runs of the two commands (R103, R104) -/

/-- What the dimension check of an accepted command says. -/
theorem accepted_dims {s : State} {i : Instr} (hacc : Accepted s i) (hi : dimensionsIllegal s i = rangeIllegal s) :
    1 ≤ s.width.toNat ∧ 1 ≤ s.height.toNat := by
  obtain ⟨_, _, _, hdims, _⟩ := hacc
  obtain ⟨hw, _, hh, _⟩ := dimsOutOfRange_false (hi ▸ hdims)
  exact ⟨hw, hh⟩

/-- A command whose one input is the raster at SRC, and whose one output stands at DST, stores what its plan
computes: the raster has a byte, so that an admitted output fits DSTLEN. -/
theorem exec_rasterPlan {s : State} {i : Instr} {p : Plan} {v out : List Byte} {n : Nat} (hacc : Accepted s i)
    (hi : dimensionsIllegal s i = rangeIllegal s) (hp : commandPlan s i = some p)
    (hins : p.ins = [⟨s.src.toNat, 4 * rasterPixels s⟩]) (houts : p.outs = [⟨s.dst.toNat, n⟩])
    (hread : s.mem.readBytes s.src.toNat (4 * rasterPixels s) = some v)
    (hcompute : p.compute [v] = .ok { writes := [(s.dstAddr, out)], dstlen := n, pallen := 0 })
    (hlen : out.length = n) : ∃ t, exec i s = .next t ∧ StoredAtDst s t out 0 := by
  obtain ⟨hw, hh⟩ := accepted_dims hacc hi
  have hpixels : rasterPixels s ≠ 0 := (Nat.mul_pos hw hh).ne'
  obtain ⟨_, _, hadm⟩ := accepted_plan hacc hp
  rw [hins, houts] at hadm
  have hfits : n < 2 ^ 32 :=
    admitted_output_lt hacc.1 hadm (List.mem_singleton_self _) (List.mem_singleton_self _)
      fun _ => Nat.mul_ne_zero (by decide) hpixels
  have hregions : readRegions s.mem p.ins = some [v] := by
    rw [hins, readRegions_single, hread, Option.map_some]
  exact exec_storedAtDst hacc hp hregions hcompute hlen hfits

/-- Settles O52: the plan stores the next level, whose channels are means of samples inside the raster. -/
theorem mipDownCompletes : Obligations.MipDownCompletes := by
  intro s v hacc hread
  obtain ⟨hw, hh⟩ := accepted_dims hacc rfl
  have hlen : (pixelBytes (downRaster (rasterOf s.width.toNat s.height.toNat v)).px).length =
      4 * (max 1 (s.width.toNat / 2) * max 1 (s.height.toNat / 2)) :=
    (pixelBytes_length _).trans (congrArg (4 * ·) (downRaster_px_length _))
  obtain ⟨t, ht, hstored⟩ := exec_rasterPlan hacc rfl rfl rfl rfl hread rfl
    (hlen.trans (Nat.mul_assoc 4 _ _).symm)
  refine ⟨t, _, ht, hstored, hlen, fun x hx y hy ch hch => ?_⟩
  have hpixel := pixelAt_downRaster (r := rasterOf s.width.toNat s.height.toNat v) hx hy
  have hmean := downPixel_channel (rasterOf s.width.toNat s.height.toNat v) x y hch
  rw [← hpixel] at hmean
  simp only [rasterOf_w, rasterOf_h, rasterOf_pixel_clamped hw hh] at hmean
  exact hmean

/-- Settles O53: the plan stores the chain of the base, level after level. -/
theorem mipChainCompletes : Obligations.MipChainCompletes := by
  intro s v hacc hread
  obtain ⟨hw, hh⟩ := accepted_dims hacc rfl
  have hp := rasterOf_px_length s.width.toNat s.height.toNat v
  obtain ⟨t, ht, hstored⟩ := exec_rasterPlan hacc rfl rfl rfl rfl hread rfl (buildChain_bytes_length hw hh hp)
  refine ⟨t, _, ht, hstored, buildChain_base _, fun n r q => buildChain_successive, fun n r hr => ?_⟩
  obtain ⟨hn, _⟩ := buildChain_getElem?_eq_some hr
  obtain ⟨hrw, hrh⟩ := buildChain_level_dims hw hh hr
  refine ⟨hrw.trans (levelDim_eq _ n), hrh.trans (levelDim_eq _ n),
    chainFrom_px_length hp r (List.mem_of_getElem? hr), ?_⟩
  rw [buildChain_length, hrw, hrh]
  exact lastLevel_iff hn

end Sys2Proof.Machine
end

section
/-! PROOFS. What both directions of a level share (R112, R114 to R116, R120): the padded raster, items in tile order, the
converter of a format, and codes as they are stored. -/

namespace Sys2Proof.Machine

/-! ### The padded raster (R112) -/

theorem formatTile_pos {p : Params} (h : p.valid = true) (f : PixelFormat) :
    0 < (formatTile p f).w ∧ 0 < (formatTile p f).h := by
  simp only [Params.valid, Tile.positive, Bool.and_eq_true, decide_eq_true_eq] at h
  cases f
  all_goals simp only [formatTile]; omega

theorem le_padDim (d : Nat) {t : Nat} (ht : 0 < t) : d ≤ padDim d t := by
  have hdiv := Nat.div_add_mod' (d + t - 1) t
  have hmod := Nat.mod_lt (d + t - 1) ht
  rw [padDim, ceilDiv]
  omega

/-- Whole tiles need no padding. -/
theorem padDim_of_mod {d t : Nat} (ht : 0 < t) (h : d % t = 0) : padDim d t = d := by
  obtain ⟨q, rfl⟩ := Nat.dvd_of_mod_eq_zero h
  rw [padDim, ceilDiv, Nat.add_sub_assoc ht, Nat.mul_add_div ht, Nat.div_eq_of_lt (by omega), Nat.add_zero,
    Nat.mul_comm]

/-- A padded raster is made of whole tiles. -/
theorem tiledDims_padDim {p : Params} (h : p.valid = true) (f : PixelFormat) (w ht : Nat) :
    TiledDims (padDim w (formatTile p f).w) (padDim ht (formatTile p f).h) (formatTile p f).w (formatTile p f).h := by
  obtain ⟨htw, hth⟩ := formatTile_pos h f
  exact tiledDims_of_mod htw hth (Nat.mod_eq_zero_of_dvd (padDim_dvd _ _)) (Nat.mod_eq_zero_of_dvd (padDim_dvd _ _))

theorem padRaster_eq (r : Raster) (pw ph : Nat) :
    padRaster r pw ph = (List.range (pw * ph)).map fun k => paddedPixel r (k / pw) (k % pw) := rfl

/-- Item (row, col) of a list made row by row. -/
theorem map_range_getD {α : Type} {w h row col : Nat} (hrow : row < h) (hcol : col < w) (g : Nat → Nat → α) (d : α) :
    ((List.range (w * h)).map fun k => g (k / w) (k % w)).getD (row * w + col) d = g row col := by
  have hlt : row * w + col < w * h := (twoDigits_lt hrow hcol).trans_eq (Nat.mul_comm h w)
  simp [List.getD_eq_getElem?_getD, List.getElem?_range hlt, twoDigits_div row hcol, Nat.mul_add_mod_of_lt hcol]

/-- No pixel inside the level is clamped. -/
theorem paddedPixel_inside {r : Raster} {row col : Nat} (hrow : row < r.h) (hcol : col < r.w) :
    paddedPixel r row col = r.pixel row col := by
  rw [paddedPixel, Nat.min_eq_left (Nat.le_sub_one_of_lt hrow), Nat.min_eq_left (Nat.le_sub_one_of_lt hcol)]
  rfl

/-- Two lists of one raster's positions are compared position by position. -/
theorem ext_positions {α : Type} {w h : Nat} {l l' : List α} (hl : l.length = w * h) (hl' : l'.length = w * h) (d : α)
    (heq : ∀ row < h, ∀ col < w, l.getD (row * w + col) d = l'.getD (row * w + col) d) : l = l' := by
  refine List.ext_getElem (hl.trans hl'.symm) fun k hk hk' => ?_
  have hitem := heq (k / w) (Nat.div_lt_of_lt_mul (hl ▸ hk)) (k % w) (Nat.mod_lt _ (Nat.pos_of_lt_mul_right (hl ▸ hk)))
  rwa [Nat.div_add_mod', List.getD_eq_getElem _ _ hk, List.getD_eq_getElem _ _ hk'] at hitem

/-- A raster of its own dimensions is its pixels. -/
theorem padRaster_self {r : Raster} (h : r.px.length = r.w * r.h) : padRaster r r.w r.h = r.px :=
  ext_positions (padRaster_length r r.w r.h) h Pixel.zero fun _ hrow _ hcol =>
    (map_range_getD hrow hcol (paddedPixel r) _).trans (paddedPixel_inside hrow hcol)

/-! ### Items in tile order (R90, R94) -/

section Tiled
variable {w h tw th : Nat} (hd : TiledDims w h tw th) {row col : Nat} (hrow : row < h) (hcol : col < w)
include hd hrow hcol

theorem toTiled_getD {α : Type} (d d' : α) (l : List α) :
    (toTiled w h tw th d l).getD (tilePlace w tw th row col) d' = l.getD (row * w + col) d := by
  simp [toTiled, List.getD_eq_getElem?_getD, List.getElem?_range (tilePlace_lt hd hrow hcol),
    tileLinear_tilePlace hd row hcol]

omit hd in
theorem fromTiled_getD {α : Type} (d d' : α) (l : List α) :
    (fromTiled w h tw th d l).getD (row * w + col) d' = l.getD (tilePlace w tw th row col) d :=
  map_range_getD hrow hcol (fun row col => l.getD (tilePlace w tw th row col) d) d'

end Tiled

/-! ### The converters of an encoding and of a PixelFormat (R43, R121) -/

/-- The command CVT.E of an encoding (R43). -/
def Encoding.encoder : Encoding → Instr
  | .i4 => .cvtEI4
  | .i8 => .cvtEI8
  | .ia44 => .cvtEIA44
  | .ia88 => .cvtEIA88
  | .rgb565 => .cvtERGB565
  | .rgb5a3 => .cvtERGB5A3
  | .argb8888 => .cvtEARGB8888
  | .argb4444 => .cvtEARGB4444

/-- The command CVT.D of an encoding (R43). -/
def Encoding.decoder : Encoding → Instr
  | .i4 => .cvtDI4
  | .i8 => .cvtDI8
  | .ia44 => .cvtDIA44
  | .ia88 => .cvtDIA88
  | .rgb565 => .cvtDRGB565
  | .rgb5a3 => .cvtDRGB5A3
  | .argb8888 => .cvtDARGB8888
  | .argb4444 => .cvtDARGB4444

/-- The model's code of a pixel is the rule's, and fits an element. -/
theorem encodePixel_eq {p : Params} (h : p.valid = true) (e : Encoding) (x : Pixel) :
    encodePixel p e x = encodedCode p x e.encoder ∧ encodedCode p x e.encoder < 256 ^ e.elementSize := by
  cases e
  case i4 => exact encI4_eq h x
  case i8 => exact encI8_eq h x
  case ia44 => exact encIA44_eq h x
  case ia88 => exact encIA88_eq h x
  case rgb565 => exact encRGB565_eq p x
  case rgb5a3 => exact encRGB5A3_eq p x
  case argb8888 => exact encARGB8888_eq p x
  case argb4444 => exact encARGB4444_eq p x

/-- The model's channels of an element are the rule's. -/
theorem decodePixel_channels (e : Encoding) {c : Nat} (h : c < 256 ^ e.elementSize) :
    channelsOf (decodePixel e c) = decodedChannels c e.decoder := by
  cases e
  case i4 => exact decI4_channels c
  case i8 => exact decI8_channels h
  case ia44 => exact decIA44_channels h
  case ia88 => exact decIA88_channels h
  case rgb565 => exact decRGB565_channels h
  case rgb5a3 => exact decRGB5A3_channels h
  case argb8888 => exact decARGB8888_channels h
  case argb4444 => exact decARGB4444_channels h

/-- The encoding of a PixelFormat without a palette and without blocks (R121). -/
def formatEncoding : PixelFormat → Encoding
  | .i4 => .i4
  | .i8 => .i8
  | .ia44 => .ia44
  | .ia88 => .ia88
  | .rgb565 => .rgb565
  | .rgb5a3 => .rgb5a3
  | _ => .argb8888

theorem converterOf_eq (f : PixelFormat) : converterOf f = (formatEncoding f).encoder := by cases f <;> rfl

theorem decoderOf_eq (f : PixelFormat) : decoderOf f = (formatEncoding f).decoder := by cases f <;> rfl

/-- A code of a format's bits fits an element of its encoding. -/
theorem two_pow_bpp_le (f : PixelFormat) : 2 ^ f.bpp ≤ 256 ^ (formatEncoding f).elementSize := by
  cases f <;> decide

/-- A code of whole bytes takes as many bytes as it has eights of bits. -/
theorem two_pow_bpp_of_ne {f : PixelFormat} (h : f.bpp ≠ 4) : 256 ^ (f.bpp / 8) = 2 ^ f.bpp := by
  cases f
  case i4 => exact absurd rfl h
  case index4 => exact absurd rfl h
  case dxt1 => exact absurd rfl h
  all_goals rfl

/-- The code a format without a palette stores for a pixel is the rule's, and fits the format's bits. -/
theorem formatCode_eq {f : PixelFormat} (hf : f ≠ .dxt1) (hcap : f.cap = none) {p : Params} (h : p.valid = true)
    (x : Pixel) : encodePixel p (formatEncoding f) x = encodedCode p x (converterOf f) ∧
      encodedCode p x (converterOf f) < 2 ^ f.bpp := by
  obtain ⟨heq, hlt⟩ := encodePixel_eq h (formatEncoding f) x
  rw [converterOf_eq]
  refine ⟨heq, ?_⟩
  cases f
  case i4 => exact narrow_lt 4 (lumaOf_lt h x)
  case index4 => cases hcap
  case index8 => cases hcap
  case dxt1 => exact absurd rfl hf
  all_goals exact hlt

/-! ### Codes as they are stored (R114 to R116) -/

/-- The code at a place of a stored 4-bit level is a slot of a packed stream. -/
theorem storedCode_eq_slotAt {f : PixelFormat} (h : f.bpp = 4) (bs : List Byte) (k : Nat) :
    storedCode f bs k = slotAt 4 bs k := by
  rw [storedCode, if_pos h, slotAt, slotShift_eq (by decide), Nat.pow_mul]
  rfl

/-- The code at a place of a stored level of whole bytes is an element. -/
theorem storedCode_eq_element {f : PixelFormat} (h : f.bpp ≠ 4) (bs : List Byte) (k : Nat) :
    storedCode f bs k = fromBigEndian (elementBytes (f.bpp / 8) bs k) := if_neg h

theorem storedCode_lt (f : PixelFormat) (bs : List Byte) (k : Nat) : storedCode f bs k < 2 ^ f.bpp := by
  by_cases h : f.bpp = 4
  · rw [storedCode_eq_slotAt h, h]
    exact Nat.mod_lt _ (by decide)
  · rw [storedCode_eq_element h, ← two_pow_bpp_of_ne h]
    exact (fromBigEndian_lt _).trans_le (Nat.pow_le_pow_right (by decide) (List.length_take_le _ _))

/-- Codes stored one after the other: packed, or as elements of whole bytes. -/
def storeCodes (f : PixelFormat) (codes : List Nat) : List Byte :=
  if f.bpp = 4 then pack 4 codes else elementStream (f.bpp / 8) codes

/-- Element `k` of a stream of codes that fit is code `k`. -/
theorem fromBigEndian_elementStream {size k : Nat} {codes : List Nat} (hk : k < codes.length)
    (hlt : codes[k] < 256 ^ size) : fromBigEndian (elementBytes size (elementStream size codes) k) = codes[k] := by
  rw [elementBytes_elementStream hk, fromBigEndian_bigEndian, Nat.mod_eq_of_lt hlt]

theorem storedCode_storeCodes {f : PixelFormat} {codes : List Nat} {k : Nat} (hk : k < codes.length)
    (hlt : codes[k] < 2 ^ f.bpp) : storedCode f (storeCodes f codes) k = codes[k] := by
  by_cases h : f.bpp = 4
  · rw [h] at hlt
    rw [storedCode_eq_slotAt h, storeCodes, if_pos h, slotAt_pack (by decide) _ (lt_slots_of_lt (by decide) hk),
      packSlot, List.getD_eq_getElem _ _ hk, Nat.mod_eq_of_lt hlt]
  · rw [storedCode_eq_element h, storeCodes, if_neg h,
      fromBigEndian_elementStream hk (two_pow_bpp_of_ne h ▸ hlt)]

theorem storedCodes_getD {f : PixelFormat} {n k : Nat} (bs : List Byte) (hk : k < n) :
    (storedCodes f n bs).getD k 0 = storedCode f bs k := by
  by_cases h : f.bpp = 4
  · rw [storedCodes, if_pos h, unpack_getD 4 bs hk, storedCode_eq_slotAt h]
  · rw [storedCodes, if_neg h, storedCode_eq_element h]
    simp [elementsOf, List.getD_eq_getElem?_getD, List.getElem?_range hk]

@[simp] theorem storedCodes_length (f : PixelFormat) (n : Nat) (bs : List Byte) :
    (storedCodes f n bs).length = n := by
  rw [storedCodes]
  split <;> simp

end Sys2Proof.Machine
end

section
/-! PROOFS. The bytes of an encoded level (R114 to R117): the codes of a level in raster order, each stored at the place
of its position, and for DXT1 the blocks of its tiles. -/

namespace Sys2Proof.Machine

/-! ### The codes of a level (R114 to R116) -/

/-- The codes of a level of any format but DXT1, in the raster order of its padded raster. -/
def levelCodes (p : Params) (f : PixelFormat) (pal : List Pixel) (dither : Bool) (r : Raster) : List Nat :=
  let pw := padDim r.w (formatTile p f).w
  let ph := padDim r.h (formatTile p f).h
  match f.cap with
  | some _ => mapIndices (padRaster r pw ph) pw ph pal dither
  | none => (padRaster r pw ph).map (encodePixel p (formatEncoding f))

theorem levelCodes_length (p : Params) (f : PixelFormat) (pal : List Pixel) (dither : Bool) (r : Raster) :
    (levelCodes p f pal dither r).length = padDim r.w (formatTile p f).w * padDim r.h (formatTile p f).h := by
  cases hcap : f.cap with
  | some _ => simp only [levelCodes, hcap, mapIndices_length (padRaster_length r _ _)]
  | none => simp only [levelCodes, hcap, List.length_map, padRaster_length]

theorem valueBytes_eq_elementStream (vs : List Nat) : valueBytes vs = elementStream 1 vs := by
  rw [valueBytes, List.map_eq_flatMap]
  rfl

/-- A level is its codes in tile order. -/
theorem encodeLevel_eq_storeCodes {f : PixelFormat} (hf : f ≠ .dxt1) (p : Params) (pal : List Pixel)
    (dither best : Bool) (r : Raster) : encodeLevel p f pal dither best r =
      storeCodes f (toTiled (padDim r.w (formatTile p f).w) (padDim r.h (formatTile p f).h) (formatTile p f).w
        (formatTile p f).h 0 (levelCodes p f pal dither r)) := by
  cases f
  case dxt1 => exact absurd rfl hf
  case index8 => exact valueBytes_eq_elementStream _
  all_goals rfl

section LevelCodes
variable {p : Params} (hvalid : p.valid = true) {f : PixelFormat} (hf : f ≠ .dxt1) {pal : List Pixel}
  (hpal : ∀ cap, f.cap = some cap → pal ≠ [] ∧ pal.length ≤ cap)
include hvalid hf hpal

theorem levelCodes_lt (dither : Bool) (r : Raster) : ∀ c ∈ levelCodes p f pal dither r, c < 2 ^ f.bpp := by
  cases hcap : f.cap with
  | some cap =>
    obtain ⟨hne, hle⟩ := hpal cap hcap
    have hbits : cap = 2 ^ f.bpp := by cases f <;> cases hcap <;> rfl
    simp only [levelCodes, hcap]
    exact fun c hc => (mapIndices_lt hne _ _ _ _ c hc).trans_le (hle.trans_eq hbits)
  | none =>
    simp only [levelCodes, hcap]
    refine List.forall_mem_map.2 fun x _ => ?_
    obtain ⟨heq, hlt⟩ := formatCode_eq hf hcap hvalid x
    exact heq ▸ hlt

/-- The place of a position of the padded raster holds the position's code. -/
theorem storedCode_encodeLevel (dither best : Bool) (r : Raster) {row col : Nat}
    (hrow : row < padDim r.h (formatTile p f).h) (hcol : col < padDim r.w (formatTile p f).w) :
    storedCode f (encodeLevel p f pal dither best r)
        (tilePlace (padDim r.w (formatTile p f).w) (formatTile p f).w (formatTile p f).h row col) =
      (levelCodes p f pal dither r).getD (row * padDim r.w (formatTile p f).w + col) 0 := by
  have hd := tiledDims_padDim hvalid f r.w r.h
  have hk := tilePlace_lt hd hrow hcol
  have hlt : row * padDim r.w (formatTile p f).w + col < (levelCodes p f pal dither r).length := by
    rw [levelCodes_length]
    exact (twoDigits_lt hrow hcol).trans_eq (Nat.mul_comm _ _)
  rw [← toTiled_getD hd hrow hcol 0 0, encodeLevel_eq_storeCodes hf, List.getD_eq_getElem _ _ (by simpa using hk)]
  refine storedCode_storeCodes (by simpa using hk) ?_
  rw [← List.getD_eq_getElem _ 0, toTiled_getD hd hrow hcol, List.getD_eq_getElem _ _ hlt]
  exact levelCodes_lt hvalid hf hpal dither r _ (List.getElem_mem hlt)

end LevelCodes

/-- The code of a format without a palette is that of the padded raster's pixel. -/
theorem levelCodes_getD {f : PixelFormat} (hcap : f.cap = none) (p : Params) (pal : List Pixel) (dither : Bool)
    (r : Raster) {row col : Nat} (hrow : row < padDim r.h (formatTile p f).h)
    (hcol : col < padDim r.w (formatTile p f).w) :
    (levelCodes p f pal dither r).getD (row * padDim r.w (formatTile p f).w + col) 0 =
      encodePixel p (formatEncoding f) (paddedPixel r row col) := by
  simp only [levelCodes, hcap, padRaster_eq, List.map_map]
  exact map_range_getD hrow hcol (fun row col => encodePixel p (formatEncoding f) (paddedPixel r row col)) 0

/-! ### The blocks of a level of DXT1 (R117) -/

/-- Part `n` of a run of parts, found after the parts before it. -/
theorem flatMap_part {α β : Type} {l : List α} {n : Nat} {x : α} (h : l[n]? = some x) (f : α → List β) :
    ((l.flatMap f).drop ((l.take n).flatMap f).length).take (f x).length = f x := by
  obtain ⟨hn, rfl⟩ := List.getElem?_eq_some_iff.1 h
  have hsplit : l = l.take n ++ l[n] :: l.drop (n + 1) := by
    rw [← List.drop_eq_getElem_cons hn, List.take_append_drop]
  have hparts : l.flatMap f = (l.take n).flatMap f ++ (f l[n] ++ (l.drop (n + 1)).flatMap f) := by
    rw [← List.flatMap_cons, ← List.flatMap_append, ← hsplit]
  rw [hparts, List.drop_left, List.take_left]

/-- Block `m` of a run of blocks of one length. -/
theorem flatMap_range_block {n w m : Nat} {f : Nat → List Byte} (hf : ∀ j < n, (f j).length = w) (hm : m < n) :
    (((List.range n).flatMap f).drop (w * m)).take w = f m := by
  have hbefore : ((List.range m).flatMap f).length = w * m := by
    rw [List.flatMap_def, flatten_length_const (n := w), List.length_map, List.length_range]
    exact List.forall_mem_map.2 fun j hj => hf j ((List.mem_range.1 hj).trans hm)
  have hpart := flatMap_part (List.getElem?_range hm) f
  rwa [List.take_range, Nat.min_eq_left hm.le, hbefore, hf m hm] at hpart

/-- The sixteen places of the tile that holds (row, col), one row of four after the other. -/
theorem tilePlace_four (w row col : Nat) {j : Nat} (hj : j < 16) :
    tilePlace w 4 4 (row - row % 4 + j / 4) (col - col % 4 + j % 4) = 16 * (tilePlace w 4 4 row col / 16) + j := by
  have hrow : (row - row % 4 + j / 4) / 4 = row / 4 ∧ (row - row % 4 + j / 4) % 4 = j / 4 := by omega
  have hcol : (col - col % 4 + j % 4) / 4 = col / 4 ∧ (col - col % 4 + j % 4) % 4 = j % 4 := by omega
  simp only [tilePlace, hrow, hcol, Nat.reduceMul]
  generalize row / 4 * (w / 4) = q
  omega

/-- A padded level of DXT1 is made of whole blocks. -/
theorem dxt1_blocks (w h : Nat) : 16 * (padDim w 4 * padDim h 4 / 16) = padDim w 4 * padDim h 4 :=
  Nat.mul_div_cancel' (Nat.mul_dvd_mul (padDim_dvd w 4) (padDim_dvd h 4))

/-- The pixels of the 4×4 square that holds (row, col), row after row (R117). -/
def squareAround (r : Raster) (row col : Nat) : List Pixel :=
  (List.range 16).map fun j => paddedPixel r (row - row % 4 + j / 4) (col - col % 4 + j % 4)

section Square
variable (r : Raster) {row col : Nat} (hrow : row < padDim r.h 4) (hcol : col < padDim r.w 4)
include hrow hcol

/-- The sixteen pixels of a tile stand together in the tiled order. -/
theorem toTiled_square :
    ((toTiled (padDim r.w 4) (padDim r.h 4) 4 4 Pixel.zero (padRaster r (padDim r.w 4) (padDim r.h 4))).drop
        (16 * (tilePlace (padDim r.w 4) 4 4 row col / 16))).take 16 = squareAround r row col := by
  have hw := Nat.mod_eq_zero_of_dvd (padDim_dvd r.w 4)
  have hh := Nat.mod_eq_zero_of_dvd (padDim_dvd r.h 4)
  have hd : TiledDims (padDim r.w 4) (padDim r.h 4) 4 4 := tiledDims_of_mod (by decide) (by decide) hw hh
  have hk := tilePlace_lt hd hrow hcol
  have hblocks := dxt1_blocks r.w r.h
  refine List.ext_getElem (by simp [squareAround]; omega) fun j _ hj => ?_
  have hj16 : j < 16 := by simpa [squareAround] using hj
  rw [List.getElem_take, List.getElem_drop, ← List.getD_eq_getElem _ Pixel.zero, ← tilePlace_four _ _ _ hj16,
    toTiled_getD hd (by omega) (by omega), padRaster_eq]
  exact (map_range_getD (by omega) (by omega) (paddedPixel r) _).trans (by simp [squareAround])

/-- The block of a square stands at the place of its tile (R117). -/
theorem encodeDxt1Level_block (p : Params) (best : Bool) :
    ((encodeDxt1Level p best r).drop (8 * (tilePlace (padDim r.w 4) 4 4 row col / 16))).take 8 =
      (compressBlock p best (squareAround r row col)).bytes := by
  have hk : tilePlace (padDim r.w 4) 4 4 row col < padDim r.w 4 * padDim r.h 4 :=
    tilePlace_lt (tiledDims_of_mod (by decide) (by decide) (Nat.mod_eq_zero_of_dvd (padDim_dvd r.w 4))
      (Nat.mod_eq_zero_of_dvd (padDim_dvd r.h 4))) hrow hcol
  have hblocks := dxt1_blocks r.w r.h
  rw [encodeDxt1Level, compressBlocks, flatMap_range_block (fun j hj => ?_) (by omega), toTiled_square r hrow hcol]
  exact compressed_bytes_length p best (by simp; omega)

end Square

/-- Settles O55: a level but one of DXT1 is its codes in tile order, which are the converter's or those of
MapIndices; a level of DXT1 is its blocks tile by tile. -/
theorem encodedLevelLayout : Obligations.EncodedLevelLayout := by
  intro p f pal dither best r hvalid _ _ _ hpal pw ph place out
  split_ifs with hf hcap
  · subst hf
    exact fun row hrow col hcol => encodeDxt1Level_block r hrow hcol p best
  · intro row hrow col hcol
    refine (storedCode_encodeLevel hvalid hf hpal dither best r hrow hcol).trans ?_
    rw [levelCodes_getD hcap p pal dither r hrow hcol]
    exact (formatCode_eq hf hcap hvalid _).1
  · obtain ⟨cap, hcap⟩ := Option.ne_none_iff_exists'.1 hcap
    refine ⟨levelCodes p f pal dither r, ?_, fun row hrow col hcol =>
      storedCode_encodeLevel hvalid hf hpal dither best r hrow hcol⟩
    simp only [levelCodes, hcap]
    exact mapIndices_assigned (padRaster_length r pw ph) (hpal cap hcap).1 dither

end Sys2Proof.Machine
end

section
/-! PROOFS. The pixels of a decoded level (R120): each is that of the code at its place, or of its place in the block at
its place. -/

namespace Sys2Proof.Machine

/-! ### The pixel of a code -/

/-- The pixel of a code is the converter's in a format without a palette. -/
theorem codePixel_channels {f : PixelFormat} (hf : f ≠ .dxt1) (hcap : f.cap = none) (pal : List Pixel) {c : Nat}
    (hc : c < 2 ^ f.bpp) : channelsOf (codePixel f pal c) = decodedChannels c (decoderOf f) := by
  have hpixel : codePixel f pal c = decodePixel (formatEncoding f) c := by
    cases f
    case index4 => cases hcap
    case index8 => cases hcap
    case dxt1 => exact absurd rfl hf
    all_goals rfl
  rw [hpixel, decoderOf_eq]
  exact decodePixel_channels _ (hc.trans_le (two_pow_bpp_le f))

theorem codePixel_palette {f : PixelFormat} (hcap : f.cap ≠ none) (pal : List Pixel) (c : Nat) :
    codePixel f pal c = pal.getD c Pixel.zero := by
  cases f
  case index4 => rfl
  case index8 => rfl
  all_goals exact absurd rfl hcap

/-! ### The pixels of a run of blocks -/

/-- Pixel `k` of a run of blocks is that of its place in its block. -/
theorem decompressBlocks_channels {n k : Nat} {bs : List Byte} (hlen : bs.length = 8 * n) (hk : k < 16 * n) :
    channelsOf ((decompressBlocks n bs).getD k Pixel.zero) =
      decodedBlockChannels (bs.drop (8 * (k / 16))) (k % 16) := by
  have hpixel := Nat.mod_lt k (by decide : 16 > 0)
  conv_lhs => rw [decompressBlocks, ← Nat.div_add_mod k 16]
  rw [flatMap_range_getD (fun _ _ => decompressBlock_length _) (by omega) hpixel, decompressBlock_take,
    decompressBlock_getD (by simp; omega) hpixel, decodedBlockChannels_eq]

theorem levelBytes_dxt1 (p : Params) (w h : Nat) :
    levelBytes p .dxt1 w h = 8 * (padDim w 4 * padDim h 4 / 16) := by
  have hblocks := dxt1_blocks w h
  simp only [levelBytes, ceilDiv, formatTile, PixelFormat.bpp]
  omega

/-! ### The pixels of a level -/

section DecodedLevel
variable {p : Params} (hvalid : p.valid = true) (f : PixelFormat) (pal : List Pixel) {w h : Nat} (bs : List Byte)
  {row col : Nat} (hrow : row < h) (hcol : col < w)
include hvalid hrow hcol

/-- A pixel of a level is a pixel of the padded raster. -/
theorem inside_padded : row < padDim h (formatTile p f).h ∧ col < padDim w (formatTile p f).w :=
  ⟨hrow.trans_le (le_padDim h (formatTile_pos hvalid f).2), hcol.trans_le (le_padDim w (formatTile_pos hvalid f).1)⟩

omit hvalid in
theorem decodeLevel_getD : (decodeLevel p f pal w h bs).getD (row * w + col) Pixel.zero =
    (decodeStored p f pal (padDim w (formatTile p f).w) (padDim h (formatTile p f).h) bs).getD
      (row * padDim w (formatTile p f).w + col) Pixel.zero :=
  map_range_getD hrow hcol (fun row col =>
    (decodeStored p f pal (padDim w (formatTile p f).w) (padDim h (formatTile p f).h) bs).getD
      (row * padDim w (formatTile p f).w + col) Pixel.zero) _

/-- Pixel (row, col) of a level of any format but DXT1 is that of the code at its place. -/
theorem decodeLevel_code (hf : f ≠ .dxt1) : (decodeLevel p f pal w h bs).getD (row * w + col) Pixel.zero =
    codePixel f pal (storedCode f bs
      (tilePlace (padDim w (formatTile p f).w) (formatTile p f).w (formatTile p f).h row col)) := by
  obtain ⟨hprow, hpcol⟩ := inside_padded hvalid f hrow hcol
  have hk := tilePlace_lt (tiledDims_padDim hvalid f w h) hprow hpcol
  have hstored : decodeStored p f pal (padDim w (formatTile p f).w) (padDim h (formatTile p f).h) bs =
      (fromTiled (padDim w (formatTile p f).w) (padDim h (formatTile p f).h) (formatTile p f).w (formatTile p f).h 0
        (storedCodes f (padDim w (formatTile p f).w * padDim h (formatTile p f).h) bs)).map (codePixel f pal) := by
    cases f
    case dxt1 => exact absurd rfl hf
    all_goals rfl
  have hlt := (twoDigits_lt hprow hpcol).trans_eq (Nat.mul_comm (padDim h (formatTile p f).h) _)
  rw [decodeLevel_getD f pal bs hrow hcol, hstored, List.getD_eq_getElem _ _ (by simpa using hlt),
    List.getElem_map, ← List.getD_eq_getElem _ 0, fromTiled_getD hprow hpcol, storedCodes_getD bs hk]

/-- Pixel (row, col) of a level of DXT1 is that of its place in the block at its place. -/
theorem decodeLevel_block (hbs : bs.length = levelBytes p .dxt1 w h) :
    channelsOf ((decodeLevel p .dxt1 pal w h bs).getD (row * w + col) Pixel.zero) =
      decodedBlockChannels (bs.drop (8 * (tilePlace (padDim w 4) 4 4 row col / 16)))
        (tilePlace (padDim w 4) 4 4 row col % 16) := by
  obtain ⟨hprow, hpcol⟩ := inside_padded hvalid .dxt1 hrow hcol
  have hk : tilePlace (padDim w 4) 4 4 row col < padDim w 4 * padDim h 4 :=
    tilePlace_lt (tiledDims_padDim hvalid .dxt1 w h) hprow hpcol
  have hpixel : (decodeStored p .dxt1 pal (padDim w 4) (padDim h 4) bs).getD (row * padDim w 4 + col) Pixel.zero =
      (decompressBlocks (padDim w 4 * padDim h 4 / 16) bs).getD (tilePlace (padDim w 4) 4 4 row col) Pixel.zero :=
    fromTiled_getD hprow hpcol _ _ _
  refine (congrArg channelsOf ((decodeLevel_getD .dxt1 pal bs hrow hcol).trans hpixel)).trans ?_
  exact decompressBlocks_channels (hbs.trans (levelBytes_dxt1 p w h)) ((dxt1_blocks w h).symm ▸ hk)

end DecodedLevel

/-- Settles O57: cropping keeps the pixel, and the place in the tiled order holds its code, or its block. -/
theorem decodedLevelPixels : Obligations.DecodedLevelPixels := by
  intro p f pal w h bs hvalid _ _ hbs _ row hrow col hcol k
  split_ifs with hf hcap
  · subst hf
    exact decodeLevel_block hvalid pal bs hrow hcol hbs
  · rw [decodeLevel_code hvalid f pal bs hrow hcol hf]
    exact codePixel_channels hf hcap pal (storedCode_lt f bs k)
  · rw [decodeLevel_code hvalid f pal bs hrow hcol hf, codePixel_palette hcap]
    rfl

end Sys2Proof.Machine
end

section
/-! PROOFS. The runs of TEX.ENC and TEX.DEC (R110, R113, R118, R119): the palette block, the levels at their offsets,
and what each command stores. -/

namespace Sys2Proof.Machine

/-! ### The palette block (R118) -/

theorem optPalfmt_lt (s : State) : s.optPalfmt < 4 := (s.options.extractLsb' 4 2).isLt

section Palfmt
variable {palfmt : Nat} (h : palfmt < 4)
include h

theorem paletteConverter_eq : paletteConverter palfmt = (paletteEncoding palfmt).encoder := by
  interval_cases palfmt <;> rfl

theorem paletteDecoder_eq : paletteDecoder palfmt = (paletteEncoding palfmt).decoder := by
  interval_cases palfmt <;> rfl

theorem storedEntry_eq (bs : List Byte) (e : Nat) : storedEntry palfmt bs e =
    fromBigEndian (elementBytes (paletteEncoding palfmt).elementSize bs e) := by
  interval_cases palfmt <;> rfl

end Palfmt

theorem elementStream_append (size : Nat) (cs ds : List Nat) :
    elementStream size (cs ++ ds) = elementStream size cs ++ elementStream size ds := List.flatMap_append

theorem elementStream_zeros (size n : Nat) : elementStream size (List.replicate n 0) = List.replicate (n * size) 0 := by
  have hzero : bigEndian size 0 = List.replicate size 0 := by simp [bigEndian]
  rw [elementStream, List.flatMap_def, List.map_replicate, hzero, List.flatten_replicate_replicate]

/-- The entries past the palette's own are elements 0. -/
theorem paletteBlock_eq (p : Params) (cap palfmt : Nat) (pal : List Pixel) : paletteBlock p cap palfmt pal =
    elementStream (paletteEncoding palfmt).elementSize
      (pal.map (encodePixel p (paletteEncoding palfmt)) ++ List.replicate (cap - pal.length) 0) := by
  rw [elementStream_append, elementStream_zeros]
  rfl

theorem elementBytes_append_left {size k : Nat} {as : List Byte} (h : size * (k + 1) ≤ as.length) (bs : List Byte) :
    elementBytes size (as ++ bs) k = elementBytes size as k := by
  rw [Nat.mul_succ] at h
  rw [elementBytes, elementBytes, List.drop_append_of_le_length (by omega),
    List.take_append_of_le_length (by rw [List.length_drop]; omega)]

/-- Entry `e` of the palette block a payload starts with. -/
theorem storedEntry_paletteBlock {p : Params} (hvalid : p.valid = true) {cap palfmt : Nat} (hfmt : palfmt < 4)
    {pal : List Pixel} (hpal : pal.length ≤ cap) (rest : List Byte) {e : Nat} (he : e < cap) :
    storedEntry palfmt (paletteBlock p cap palfmt pal ++ rest) e =
      if e < pal.length then encodedCode p (pal.getD e Pixel.zero) (paletteConverter palfmt) else 0 := by
  have hblock := paletteBlock_length p palfmt hpal
  rw [storedEntry_eq hfmt, paletteConverter_eq hfmt, elementBytes_append_left
    (by rw [hblock, Nat.mul_comm]; exact Nat.mul_le_mul_right _ he), paletteBlock_eq]
  split_ifs with hlt
  · obtain ⟨heq, hbound⟩ := encodePixel_eq hvalid (paletteEncoding palfmt) pal[e]
    rw [List.getD_eq_getElem _ _ hlt]
    refine (fromBigEndian_elementStream (by simp; omega) ?_).trans ?_ <;> simp [hlt, heq, hbound]
  · refine (fromBigEndian_elementStream (by simp; omega) ?_).trans ?_ <;> simp [Nat.le_of_not_lt hlt]

/-- Entry `e` of a stored palette has the channels of its code. -/
theorem storedPalette_channels {cap palfmt : Nat} (hfmt : palfmt < 4) {block : List Byte}
    {e : Nat} (he : e < cap) :
    channelsOf ((storedPalette cap palfmt block).getD e Pixel.zero) =
      decodedChannels (storedEntry palfmt block e) (paletteDecoder palfmt) := by
  rw [storedEntry_eq hfmt, paletteDecoder_eq hfmt, ← decodePixel_channels]
  · simp [storedPalette, elementsOf, List.getD_eq_getElem?_getD, List.getElem?_range he]
  · exact (fromBigEndian_lt _).trans_le (Nat.pow_le_pow_right (by decide) (List.length_take_le _ _))

/-! ### What the checks let pass (R110, R119) -/

theorem commandPlan_texEnc (f : PixelFormat) (s : State) :
    commandPlan s (.texEnc f.code) = some (texEncFormatPlan f s) := by
  cases f <;> rfl

theorem commandPlan_texDec (f : PixelFormat) (s : State) :
    commandPlan s (.texDec f.code) = some (texDecFormatPlan f s) := by
  cases f <;> rfl

/-- A format without a palette builds none; the others build that of the base (R116). -/
theorem encodePalette_none {f : PixelFormat} (h : f.cap = none) (s : State) (base : Raster) :
    encodePalette s f base = .ok [] := by simp only [encodePalette, h]

theorem encodePalette_some {f : PixelFormat} {cap : Nat} (h : f.cap = some cap) (s : State) (base : Raster) :
    encodePalette s f base = buildPalette base.px s.palsize.toNat s.optStrict := by
  simp only [encodePalette, h, State.palsizeVal]

theorem cap_le {f : PixelFormat} {cap : Nat} (h : f.cap = some cap) : cap ≤ 256 := by
  cases f <;> cases h <;> decide

section Encode
variable {s : State} {f : PixelFormat} (hacc : Accepted s (.texEnc f.code))
include hacc

theorem texEnc_dims : (1 ≤ s.width.toNat ∧ 1 ≤ s.height.toNat) ∧
    s.width.toNat % (formatTile s.params f).w = 0 ∧ s.height.toNat % (formatTile s.params f).h = 0 := by
  obtain ⟨hcheck, _, _⟩ := accepted_plan hacc (commandPlan_texEnc f s)
  obtain ⟨_, hrest⟩ := firstFault_eq_none_cons hcheck
  obtain ⟨⟨hw, _, hh, _⟩, htiles⟩ := dimsNotTiled_false (firstFault_eq_none_cons hrest).1
  exact ⟨⟨hw, hh⟩, htiles⟩

theorem texEnc_palsize {cap : Nat} (hcap : f.cap = some cap) : palsizeIllegal s.palsize.toNat cap = false := by
  obtain ⟨hcheck, _, _⟩ := accepted_plan hacc (commandPlan_texEnc f s)
  obtain ⟨hpalsize, _⟩ := firstFault_eq_none_cons hcheck
  rw [hcap] at hpalsize
  exact hpalsize

/-- An encode has a palette unless it is strict and the colours do not fit. -/
theorem encodePalette_completes {base : Raster}
    (hstrict : f.cap ≠ none → s.optStrict = true → distinctColours base.px ≤ s.palsize.toNat) :
    ∃ pal, encodePalette s f base = .ok pal := by
  cases hcap : f.cap with
  | none => exact ⟨[], encodePalette_none hcap s base⟩
  | some cap =>
    obtain ⟨hk, _⟩ := palsizeIllegal_false (texEnc_palsize hacc hcap)
    obtain ⟨pal, hbuild, _⟩ := buildPalette_completes hk (hstrict (by simp [hcap]))
    exact ⟨pal, (encodePalette_some hcap s base).trans hbuild⟩

/-- The palette of an accepted encode fits its palette block. -/
theorem texEnc_palette_length {base : Raster} {pal : List Pixel} (hpal : encodePalette s f base = .ok pal) :
    ∀ cap, f.cap = some cap → pal.length ≤ cap :=
  encodePalette_length (fun _ => texEnc_palsize hacc) hpal

theorem texEnc_pallen_lt {base : Raster} {pal : List Pixel} (hpal : encodePalette s f base = .ok pal) :
    pal.length < 2 ^ 32 := by
  cases hcap : f.cap with
  | none =>
    cases (encodePalette_none hcap s base).symm.trans hpal
    decide
  | some cap =>
    have hentries := texEnc_palette_length hacc hpal cap hcap
    have hblock := cap_le hcap
    omega

/-- TEX.ENC that passes its checks, its raster readable and its palette built, stores the payload at DST. -/
theorem exec_texEnc {v : List Byte} {pal : List Pixel}
    (hread : s.mem.readBytes s.src.toNat (4 * rasterPixels s) = some v)
    (hpal : encodePalette s f (rasterOf s.width.toNat s.height.toNat v) = .ok pal) :
    ∃ t, exec (.texEnc f.code) s = .next t ∧
      StoredAtDst s t (encodePayload s f (rasterOf s.width.toNat s.height.toNat v) pal) pal.length := by
  have hp := commandPlan_texEnc f s
  obtain ⟨⟨hw, hh⟩, _⟩ := texEnc_dims hacc
  obtain ⟨hcheck, _, hadm⟩ := accepted_plan hacc hp
  have hlen := encodePayload_length (s := s) f (base := rasterOf s.width.toNat s.height.toNat v) hw hh
    (texEnc_palette_length hacc hpal)
  have hfits : payloadLen s.params f s.width.toNat s.height.toNat s.optMipmaps s.optPalfmt < 2 ^ 32 :=
    admitted_output_lt hacc.1 hadm (List.mem_singleton_self _) (List.mem_singleton_self _)
      fun _ => Nat.mul_ne_zero (by decide) (Nat.mul_pos hw hh).ne'
  have hregions : readRegions s.mem (texEncFormatPlan f s).ins = some [v] :=
    (readRegions_single _ _).trans (congrArg (Option.map _) hread)
  have hcompute : (texEncFormatPlan f s).compute [v] = .ok
      { writes := [(s.dstAddr, encodePayload s f (rasterOf s.width.toNat s.height.toNat v) pal)]
        dstlen := (encodePayload s f (rasterOf s.width.toNat s.height.toNat v) pal).length
        pallen := pal.length } := by
    have hpal' : encodePalette s f (rasterOf s.widthVal s.heightVal v) = .ok pal := hpal
    simp only [texEncFormatPlan, List.headD_cons, hpal', hlen]
    rfl
  exact ⟨_, (exec_eq_runPlan hp).trans (runPlan_ok hcheck hadm hregions hcompute),
    storedAtDst_succeed s (hlen.trans_lt hfits) (texEnc_pallen_lt hacc hpal)⟩

end Encode

/-! ### The levels of a payload (R111, R113) -/

section Payload
variable {s : State} (hw : 1 ≤ s.width.toNat) (hh : 1 ≤ s.height.toNat) (v : List Byte)

/-- The palette block of an index format, nothing for the others. -/
def paletteBytes (s : State) (f : PixelFormat) (pal : List Pixel) : List Byte :=
  match f.cap with
  | some cap => paletteBlock s.params cap s.optPalfmt pal
  | none => []

theorem paletteBytes_length {f : PixelFormat} {pal : List Pixel} (hcap : ∀ cap, f.cap = some cap → pal.length ≤ cap) :
    (paletteBytes s f pal).length = palBytes f s.optPalfmt := by
  cases hf : f.cap with
  | none => simp [paletteBytes, palBytes, hf]
  | some cap => simp [paletteBytes, palBytes, hf, paletteBlock_length _ _ (hcap cap hf)]

/-- A payload is its palette block and its levels. -/
theorem encodePayload_eq (f : PixelFormat) (pal : List Pixel) :
    encodePayload s f (rasterOf s.width.toNat s.height.toNat v) pal = paletteBytes s f pal ++
      (encodeLevels s v).flatMap (encodeLevel s.params f pal s.optDither s.optQuality) := rfl

include hw hh

theorem encodeLevels_dims : (encodeLevels s v).map (fun q => (q.w, q.h)) =
    (List.range (levelCount s.width.toNat s.height.toNat s.optMipmaps)).map fun i =>
      (levelDim s.width.toNat i, levelDim s.height.toNat i) := by
  rw [encodeLevels, levelCount]
  split
  · exact buildChain_dims (r := rasterOf s.width.toNat s.height.toNat v) hw hh
  · simp [levelDim_zero hw, levelDim_zero hh]

theorem encodeLevels_length :
    (encodeLevels s v).length = levelCount s.width.toNat s.height.toNat s.optMipmaps := by
  simpa using congrArg List.length (encodeLevels_dims hw hh v)

/-- Level `n` stands at its offset (R113). -/
theorem payload_level {f : PixelFormat} {pal : List Pixel} (hcap : ∀ cap, f.cap = some cap → pal.length ≤ cap)
    {n : Nat} {r : Raster} (hr : (encodeLevels s v)[n]? = some r) :
    ((encodePayload s f (rasterOf s.width.toNat s.height.toNat v) pal).drop
        (levelOffset s.params f s.optPalfmt s.width.toNat s.height.toNat n)).take (levelBytes s.params f r.w r.h) =
      encodeLevel s.params f pal s.optDither s.optQuality r := by
  have hn : n < levelCount s.width.toNat s.height.toNat s.optMipmaps :=
    encodeLevels_length hw hh v ▸ (List.getElem?_eq_some_iff.1 hr).1
  have hbefore : (((encodeLevels s v).take n).flatMap
        (encodeLevel s.params f pal s.optDither s.optQuality)).length =
      ((List.range n).map fun i =>
        levelBytes s.params f (levelDim s.width.toNat i) (levelDim s.height.toNat i)).sum := by
    rw [flatMap_encodeLevel_length, List.map_take, encodeLevels_dims hw hh v, ← List.map_take, List.take_range,
      Nat.min_eq_left hn.le, List.map_map]
    rfl
  have hpart := flatMap_part hr (encodeLevel s.params f pal s.optDither s.optQuality)
  rw [encodePayload_eq, levelOffset, ← List.drop_drop, List.drop_left' (paletteBytes_length hcap), ← hbefore,
    ← encodeLevel_length s.params f pal s.optDither s.optQuality r]
  exact hpart

end Payload

/-- Settles O54: the palette is built, and the payload is the palette block and then the levels. -/
theorem texEncodeCompletes : Obligations.TexEncodeCompletes := by
  intro f s v hacc hread hstrict
  obtain ⟨⟨hw, hh⟩, _⟩ := texEnc_dims hacc
  obtain ⟨pal, hpal⟩ := encodePalette_completes hacc (base := rasterOf s.width.toNat s.height.toNat v) hstrict
  have hlen := texEnc_palette_length hacc hpal
  obtain ⟨t, ht, hstored⟩ := exec_texEnc hacc hread hpal
  refine ⟨t, _, pal, ht, hstored, encodePayload_length f hw hh hlen, fun hcap => ?_, fun cap hcap => ⟨?_, ?_⟩,
    encodeLevels_length hw hh v, fun n r => payload_level hw hh v hlen⟩
  · cases (encodePalette_none hcap s _).symm.trans hpal
    rfl
  · exact (encodePalette_some hcap s _).symm.trans hpal
  · intro e he
    rw [encodePayload_eq, paletteBytes, hcap]
    exact storedEntry_paletteBlock hacc.1 (optPalfmt_lt s) (hlen cap hcap) _ he

/-! ### The run of TEX.DEC (R119) -/

section Decode
variable {s : State} {f : PixelFormat} (hacc : Accepted s (.texDec f.code))
include hacc

/-- LEVEL passes its check, so that the plan is that of the level. -/
theorem texDec_levelPlan : commandPlan s (.texDec f.code) = some (texDecLevelPlan f s) := by
  obtain ⟨_, _, hoperand, _, _⟩ := hacc
  have hlevel : ¬ levelCount s.widthVal s.heightVal s.optMipmaps ≤ s.level.toNat := of_decide_eq_false hoperand
  rw [commandPlan_texDec, texDecFormatPlan, if_neg hlevel]

theorem texDec_dims : 1 ≤ s.width.toNat ∧ 1 ≤ s.height.toNat := by
  obtain ⟨hcheck, _, _⟩ := accepted_plan hacc (texDec_levelPlan hacc)
  obtain ⟨⟨hw, _, hh, _⟩, _⟩ := dimsNotTiled_false (firstFault_eq_none_cons hcheck).1
  exact ⟨hw, hh⟩

end Decode

/-- A level has a byte. -/
theorem levelBytes_pos {p : Params} (hvalid : p.valid = true) (f : PixelFormat) {w h : Nat} (hw : 1 ≤ w) (hh : 1 ≤ h) :
    0 < levelBytes p f w h := by
  have hpw := hw.trans (le_padDim w (formatTile_pos hvalid f).1)
  have hph := hh.trans (le_padDim h (formatTile_pos hvalid f).2)
  have hbpp : 1 ≤ f.bpp := by cases f <;> decide
  have hbits := Nat.mul_pos (Nat.mul_pos hpw hph) hbpp
  rw [levelBytes, ceilDiv]
  omega

/-- The palette that TEX.DEC reads from a palette block. -/
def decodePalette (s : State) (f : PixelFormat) (block : List Byte) : List Pixel :=
  match f.cap with
  | some cap => storedPalette cap s.optPalfmt block
  | none => []

/-- The raster that TEX.DEC decodes from a palette block and the level LEVEL selects. -/
def decodedRaster (s : State) (f : PixelFormat) (block level : List Byte) : List Pixel :=
  decodeLevel s.params f (decodePalette s f block) (levelDim s.width.toNat s.level.toNat)
    (levelDim s.height.toNat s.level.toNat) level

/-- TEX.DEC that passes its checks, its palette block and its level readable, stores the level's raster at DST. -/
theorem exec_texDec {s : State} {f : PixelFormat} (hacc : Accepted s (.texDec f.code)) {block level : List Byte}
    (hblock : s.mem.readBytes s.src.toNat (palBytes f s.optPalfmt) = some block)
    (hlevel : s.mem.readBytes
        (s.src.toNat + levelOffset s.params f s.optPalfmt s.width.toNat s.height.toNat s.level.toNat)
        (levelBytes s.params f (levelDim s.width.toNat s.level.toNat) (levelDim s.height.toNat s.level.toNat)) =
      some level) :
    ∃ t, exec (.texDec f.code) s = .next t ∧ StoredAtDst s t (pixelBytes (decodedRaster s f block level)) 0 := by
  have hp := texDec_levelPlan hacc
  obtain ⟨_, _, hadm⟩ := accepted_plan hacc hp
  have hbytes := levelBytes_pos hacc.1 f (w := levelDim s.width.toNat s.level.toNat)
    (h := levelDim s.height.toNat s.level.toNat) (Nat.le_max_left _ _) (Nat.le_max_left _ _)
  refine exec_storedAtDst hacc hp (readRegions_pair hblock hlevel) rfl
    ((pixelBytes_length _).trans (congrArg (4 * ·) (decodeLevel_length _ _ _ _ _ _))) ?_
  exact admitted_output_lt hacc.1 hadm (List.mem_cons_of_mem _ (List.mem_singleton_self _))
    (List.mem_singleton_self _) fun _ => hbytes.ne'

/-- Level 0 stands after the palette block (R113). -/
theorem levelOffset_zero (p : Params) (f : PixelFormat) (palfmt w h : Nat) :
    levelOffset p f palfmt w h 0 = palBytes f palfmt := rfl

/-- TEX.DEC of the base level (R119). -/
theorem exec_texDec_base {s : State} {f : PixelFormat} (hacc : Accepted s (.texDec f.code)) (hzero : s.level.toNat = 0)
    {block level : List Byte} (hblock : s.mem.readBytes s.src.toNat (palBytes f s.optPalfmt) = some block)
    (hlevel : s.mem.readBytes (s.src.toNat + palBytes f s.optPalfmt)
      (levelBytes s.params f s.width.toNat s.height.toNat) = some level) :
    ∃ t, exec (.texDec f.code) s = .next t ∧ StoredAtDst s t (pixelBytes
      (decodeLevel s.params f (decodePalette s f block) s.width.toNat s.height.toNat level)) 0 := by
  obtain ⟨hw, hh⟩ := texDec_dims hacc
  have hrun := exec_texDec hacc (block := block) (level := level) hblock
  simp only [decodedRaster, hzero, levelDim_zero hw, levelDim_zero hh, levelOffset_zero] at hrun
  exact hrun hlevel

/-- Settles O56: the plan reads the palette block and the level alone, and stores the decoded level. -/
theorem texDecodeCompletes : Obligations.TexDecodeCompletes := by
  intro f s block level hacc hblock hlevel
  obtain ⟨t, ht, hstored⟩ := exec_texDec hacc hblock hlevel
  refine ⟨t, _, decodePalette s f block, ht, hstored, by simp [decodedRaster], fun h => by simp [decodePalette, h],
    fun cap h => ?_, rfl⟩
  simp only [decodePalette, h]
  exact ⟨by simp [storedPalette], fun e he => storedPalette_channels (optPalfmt_lt s) he⟩

end Sys2Proof.Machine
end

section
/-! PROOFS. What two pipeline commands do one after the other (R122): ARGB8888 encoded and decoded, and a direct format
encoded in one command or in two. -/

namespace Sys2Proof.Machine

/-! ### A level of ARGB8888 and back (R57, R122) -/

/-- The code of ARGB8888 is the four channels. -/
theorem decodePixel_encodePixel_argb8888 {p : Params} (h : p.valid = true) (x : Pixel) :
    decodePixel .argb8888 (encodePixel p .argb8888 x) = x := by
  obtain ⟨heq, hlt⟩ := encodePixel_eq h .argb8888 x
  have hchannels := decodePixel_channels .argb8888 hlt
  simp only [Encoding.encoder, Encoding.decoder, encodedCode, decodedChannels, channelsOf, Prod.mk.injEq]
    at heq hchannels
  rw [heq]
  apply Pixel.ext_toNat <;> omega

theorem decodeLevel_encodeLevel_argb8888 {p : Params} (hvalid : p.valid = true) {r : Raster}
    (hlen : r.px.length = r.w * r.h) (pal pal' : List Pixel) (dither best : Bool) :
    decodeLevel p .argb8888 pal' r.w r.h (encodeLevel p .argb8888 pal dither best r) = r.px := by
  have hne : PixelFormat.argb8888 ≠ .dxt1 := nofun
  refine ext_positions (decodeLevel_length _ _ _ _ _ _) hlen Pixel.zero fun row hrow col hcol => ?_
  obtain ⟨hprow, hpcol⟩ := inside_padded hvalid .argb8888 hrow hcol
  calc (decodeLevel p .argb8888 pal' r.w r.h (encodeLevel p .argb8888 pal dither best r)).getD (row * r.w + col)
          Pixel.zero
      = decodePixel .argb8888 (encodePixel p .argb8888 (paddedPixel r row col)) := by
        rw [decodeLevel_code hvalid _ _ _ hrow hcol hne, storedCode_encodeLevel hvalid hne nofun _ _ _ hprow hpcol,
          levelCodes_getD rfl _ _ _ _ hprow hpcol]
        rfl
    _ = paddedPixel r row col := decodePixel_encodePixel_argb8888 hvalid _
    _ = r.px.getD (row * r.w + col) Pixel.zero := paddedPixel_inside hrow hcol

/-- The pixels of a run of whole pixels are its bytes (R23). -/
theorem pixelBytes_pixelsOf {n : Nat} {v : List Byte} (h : v.length = 4 * n) : pixelBytes (pixelsOf n v) = v := by
  have hpixels : pixelBytes (pixelsOf n v) = (List.range n).flatMap fun k => (pixelAt v k).bytes := by
    rw [pixelBytes, pixelsOf, List.flatMap_map]
  refine List.ext_getElem (by simp [h]) fun x hx hxv => ?_
  have hb : x % 4 < 4 := Nat.mod_lt x (by decide)
  have hbyte : (pixelAt v (x / 4)).bytes.getD (x % 4) 0 = v.getD (4 * (x / 4) + x % 4) 0 := by
    generalize x % 4 = b at hb
    interval_cases b <;> rfl
  have hitem := flatMap_range_getD (fun k _ => (rfl : (pixelAt v k).bytes.length = 4)) (by omega : x / 4 < n) hb 0
  rw [hbyte, ← hpixels, Nat.div_add_mod, List.getD_eq_getElem _ _ hx, List.getD_eq_getElem _ _ hxv] at hitem
  exact hitem

/-- A part of a run of bytes that is read is read at its own place. -/
theorem readBytes_part {m : Memory} {a n k : Nat} {bs cs : List Byte} (h : m.readBytes a n = some bs)
    (hpart : (bs.drop k).take cs.length = cs) : m.readBytes (a + k) cs.length = some cs := by
  obtain ⟨hlen, hread⟩ := (readBytes_eq_some_iff _ _ _ _).1 h
  have hfits : cs.length ≤ bs.length - k := by
    simpa using congrArg List.length hpart
  refine (readBytes_eq_some_iff _ _ _ _).2 ⟨rfl, fun i hi => ?_⟩
  rw [Nat.add_assoc, hread (k + i) (by omega), ← hpart]
  simp [List.getElem?_take_of_lt hi]

/-- The base is level 0 of an encode (R110, R111). -/
theorem encodeLevels_base (s : State) (v : List Byte) :
    (encodeLevels s v)[0]? = some (rasterOf s.width.toNat s.height.toNat v) := by
  rw [encodeLevels]
  split
  · exact buildChain_base _
  · rfl

/-- Settles O58: level 0 of the payload is read back, and each of its codes is its pixel's four channels. -/
theorem argb8888RoundTrip : Obligations.Argb8888RoundTrip := by
  intro s t v dst2 hacc hread ht hacc2
  obtain ⟨⟨hw, hh⟩, _⟩ := texEnc_dims (f := .argb8888) hacc
  obtain ⟨t', ht', hstored⟩ := exec_texEnc (f := .argb8888) (pal := []) hacc hread rfl
  obtain rfl : t = t' := Host.Outcome.next.inj (ht.symm.trans ht')
  have hparams : t.params = s.params := hstored.kept.params
  have hwidth : t.width = s.width := by rw [hstored.kept]
  have hheight : t.height = s.height := by rw [hstored.kept]
  have hpart := payload_level hw hh v (f := .argb8888) (pal := []) nofun (encodeLevels_base s v)
  rw [← encodeLevel_length s.params .argb8888 [] s.optDither s.optQuality] at hpart
  have hlevel := readBytes_part hstored.stored hpart
  rw [encodeLevel_length, ← hparams, rasterOf_w, rasterOf_h, ← hwidth, ← hheight] at hlevel
  obtain ⟨u, hu, hdecoded⟩ := exec_texDec_base (f := .argb8888) hacc2 rfl (block := []) rfl hlevel
  have hout : pixelBytes (decodeLevel t.params .argb8888 [] t.width.toNat t.height.toNat
      (encodeLevel t.params .argb8888 [] s.optDither s.optQuality (rasterOf t.width.toNat t.height.toNat v))) = v := by
    have hraster := decodeLevel_encodeLevel_argb8888 hacc.1 (rasterOf_px_length s.width.toNat s.height.toNat v) [] []
      s.optDither s.optQuality
    rw [hparams, hwidth, hheight]
    exact (congrArg pixelBytes hraster).trans (pixelBytes_pixelsOf (readBytes_length hread))
  have hback : StoredAtDst { t with src := s.dst, dst := dst2, level := 0 } u v 0 := by
    rw [← hout]
    exact hdecoded
  exact ⟨u, hu, readBytes_length hread ▸ hback.stored⟩

/-! ### A direct format in one command and in two (R114, R122) -/

theorem cap_of_direct {f : PixelFormat} {e : Encoding} (h : directEncoding f = some e) : f.cap = none := by
  cases f <;> cases h <;> rfl

theorem commandPlan_converterOf {f : PixelFormat} {e : Encoding} (h : directEncoding f = some e) (s : State) :
    commandPlan s (converterOf f) = some (cvtEPlan e s) := by
  cases f <;> cases h <;> rfl

/-- A level of whole tiles of a direct format is its codes in tile order. -/
theorem encodeLevel_direct {f : PixelFormat} {e : Encoding} (hf : directEncoding f = some e) {p : Params}
    (hvalid : p.valid = true) (pal : List Pixel) (dither best : Bool) {r : Raster} (hlen : r.px.length = r.w * r.h)
    (hw : r.w % (formatTile p f).w = 0) (hh : r.h % (formatTile p f).h = 0) :
    encodeLevel p f pal dither best r = elementStream e.elementSize
      (toTiled r.w r.h (formatTile p f).w (formatTile p f).h 0 (r.px.map (encodePixel p e))) := by
  have hlevel : encodeLevel p f pal dither best r = encodeDirect p e (formatTile p f) r := by
    cases f <;> cases hf <;> rfl
  obtain ⟨htw, hth⟩ := formatTile_pos hvalid f
  rw [hlevel, encodeDirect, padDim_of_mod htw hw, padDim_of_mod hth hh, padRaster_self hlen, tiledCodes]

/-- The elements of a stream of codes, gathered, are the stream of the codes gathered. -/
theorem gatherBytes_elementStream {n size : Nat} {σ : Nat → Nat} (hσ : Set.MapsTo σ (Set.Iio n) (Set.Iio n))
    {codes : List Nat} (hlen : codes.length = n) : gatherBytes size n σ (elementStream size codes) =
      elementStream size ((List.range n).map fun k => codes.getD (σ k) 0) := by
  have helement : ∀ k ∈ List.range n,
      elementBytes size (elementStream size codes) (σ k) = bigEndian size (codes.getD (σ k) 0) := fun k hk => by
    have hlt : σ k < codes.length := hlen ▸ hσ (List.mem_range.1 hk)
    rw [List.getD_eq_getElem _ _ hlt, elementBytes_elementStream hlt]
  rw [gatherBytes, List.flatMap_def, List.map_congr_left helement, elementStream, List.flatMap_map, List.flatMap_def]

/-- A command that passes its checks answers a next state only where its input regions are readable (R27). -/
theorem readable_of_next {s t : State} {i : Instr} {p : Plan} {r : Region} (hacc : Accepted s i)
    (hp : commandPlan s i = some p) (hr : r ∈ p.ins) (ht : exec i s = .next t) :
    ∃ bs, s.mem.readBytes r.start r.len = some bs := by
  cases hread : s.mem.readBytes r.start r.len with
  | some bs => exact ⟨bs, rfl⟩
  | none =>
    obtain ⟨hcheck, _, hadm⟩ := accepted_plan hacc hp
    rw [exec_eq_runPlan hp, runPlan_unwritten hcheck hadm (readRegions_eq_none hr hread)] at ht
    cases ht

/-- Two commands that stored the same bytes at the same DST. -/
theorem StoredAtDst.same_output {s s' t t' : State} {out : List Byte} {m n : Nat} (h : StoredAtDst s t out m)
    (h' : StoredAtDst s' t' out n) (hdst : s'.dst = s.dst) : t'.dstlen = t.dstlen ∧
      t'.mem.readBytes s.dst.toNat t.dstlen.toNat = t.mem.readBytes s.dst.toNat t.dstlen.toNat := by
  obtain ⟨_, _, hlen, _⟩ := h.record
  obtain ⟨_, _, hlen', _⟩ := h'.record
  refine ⟨BitVec.eq_of_toNat_eq (hlen'.trans hlen.symm), ?_⟩
  rw [hlen, h.stored, ← hdst, h'.stored]

/-- The codes of the raster `v` in a direct encoding (R43). -/
def rasterCodes (s : State) (e : Encoding) (v : List Byte) : List Nat :=
  (pixelsOf (rasterPixels s) v).map (encodePixel s.params e)

theorem rasterCodes_length (s : State) (e : Encoding) (v : List Byte) :
    (rasterCodes s e v).length = rasterPixels s := by simp [rasterCodes]

/-- The payload of a direct format without mipmaps. -/
theorem encodePayload_direct {f : PixelFormat} {e : Encoding} (hf : directEncoding f = some e) {s : State}
    (hacc : Accepted s (.texEnc f.code)) (hmips : s.optMipmaps = false) (v : List Byte) :
    encodePayload s f (rasterOf s.width.toNat s.height.toNat v) [] = elementStream e.elementSize
      (toTiled s.width.toNat s.height.toNat (formatTile s.params f).w (formatTile s.params f).h 0
        (rasterCodes s e v)) := by
  obtain ⟨_, hw, hh⟩ := texEnc_dims hacc
  have hpayload : encodePayload s f (rasterOf s.width.toNat s.height.toNat v) [] =
      encodeLevel s.params f [] s.optDither s.optQuality (rasterOf s.width.toNat s.height.toNat v) := by
    simp [encodePayload, cap_of_direct hf, hmips]
  exact hpayload.trans
    (encodeLevel_direct hf hacc.1 [] _ _ (rasterOf_px_length s.width.toNat s.height.toNat v) hw hh)

/-- CVT.E of the raster with COUNT its pixels (R43). -/
theorem exec_convert {f : PixelFormat} {e : Encoding} (hf : directEncoding f = some e) {s : State} {v : List Byte}
    (hacc : Accepted s (converterOf f)) (hcount : s.count.toNat = rasterPixels s)
    (hread : s.mem.readBytes s.src.toNat (4 * rasterPixels s) = some v) :
    ∃ t, exec (converterOf f) s = .next t ∧
      StoredAtDst s t (elementStream e.elementSize (rasterCodes s e v)) 0 := by
  have hrun := exec_streamPlan (v := v) hacc (commandPlan_converterOf hf s)
  rw [State.countVal, hcount] at hrun
  exact hrun hread (by simp) fun h => Nat.mul_ne_zero (by decide) (Nat.ne_zero_of_mul_ne_zero_right h)

/-- TILE.F of a stream of codes, on registers of known values, is the stream of the codes in tile order (R92). -/
theorem exec_tileF_elementStream {s : State} {w h tw th size : Nat} (hacc : Accepted s .tileF)
    (hw : s.width.toNat = w) (hh : s.height.toNat = h) (htw : s.tilew.toNat = tw) (hth : s.tileh.toNat = th)
    (hsize : s.esize.toNat = size) {codes : List Nat} (hlen : codes.length = w * h)
    (hread : s.mem.readBytes s.src.toNat (size * (w * h)) = some (elementStream size codes)) :
    ∃ t, exec .tileF s = .next t ∧ StoredAtDst s t (elementStream size (toTiled w h tw th 0 codes)) 0 := by
  subst hw hh htw hth hsize
  obtain ⟨t, ht, hstored⟩ := exec_gatherPlan commandPlan_tileF hacc tileLinear_mapsTo hread
  have hmoved : gatheredBytes tileLinear s (elementStream s.esize.toNat codes) = elementStream s.esize.toNat
      (toTiled s.width.toNat s.height.toNat s.tilew.toNat s.tileh.toNat 0 codes) :=
    gatherBytes_elementStream (tileLinear_mapsTo (accepted_tiledDims commandPlan_tileF hacc)) hlen
  exact ⟨t, ht, hmoved ▸ hstored⟩

/-- Settles O59: both store the stream of the raster's codes in tile order. -/
theorem directEncodeDecomposes : Obligations.DirectEncodeDecomposes := by
  intro f e s t t1 t2 mid count hf hmips hcount hacc ht hacc1 ht1 hacc2 htw hth ht2
  obtain ⟨v, hread⟩ := readable_of_next hacc (commandPlan_texEnc f s) (List.mem_singleton_self _) ht
  obtain ⟨t', ht', hencoded⟩ := exec_texEnc hacc hread (encodePalette_none (cap_of_direct hf) s _)
  obtain rfl : t = t' := Host.Outcome.next.inj (ht.symm.trans ht')
  rw [encodePayload_direct hf hacc hmips] at hencoded
  obtain ⟨t1', ht1', hconverted⟩ := exec_convert hf hacc1 hcount hread
  obtain rfl : t1 = t1' := Host.Outcome.next.inj (ht1.symm.trans ht1')
  have hwidth : t1.width.toNat = s.width.toNat := by rw [hconverted.kept]
  have hheight : t1.height.toNat = s.height.toNat := by rw [hconverted.kept]
  have htilew : (BitVec.ofNat 32 (formatTile s.params f).w).toNat = (formatTile s.params f).w :=
    BitVec.toNat_ofNat _ _ ▸ Nat.mod_eq_of_lt htw
  have htileh : (BitVec.ofNat 32 (formatTile s.params f).h).toNat = (formatTile s.params f).h :=
    BitVec.toNat_ofNat _ _ ▸ Nat.mod_eq_of_lt hth
  have hsize : (BitVec.ofNat 32 e.elementSize).toNat = e.elementSize := by cases e <;> rfl
  have hlen := rasterCodes_length s e v
  have hmid := hconverted.stored
  rw [elementStream_length, rasterCodes_length] at hmid
  obtain ⟨t2', ht2', htiled⟩ := exec_tileF_elementStream hacc2 hwidth hheight htilew htileh hsize hlen hmid
  obtain rfl : t2 = t2' := Host.Outcome.next.inj (ht2.symm.trans ht2')
  exact hencoded.same_output htiled rfl

end Sys2Proof.Machine
end

section
/-! PROOFS. The faults a command ends with (R151 to R161): the three places where a plan faults, the faults R151 lists
for each command, the fault that repeats, and the colours that do not fit a strict palette. -/

namespace Sys2Proof.Machine

/-! ### How a plan faults (R86, R160, R161) -/

/-- The faults of a plan, by the step of R86 that raises them: register checks, region admission, computation. -/
inductive PlanFault (s : State) (p : Plan) : FaultRecord → Prop
  | check {f : FaultRecord} (hcheck : p.check = some f) : PlanFault s p f
  | regions (hcheck : p.check = none) (hadm : admitted s.params.memBytes p.ins p.outs = false) :
    PlanFault s p ⟨.addressError, 0⟩
  | compute {f : FaultRecord} {bss : List (List Byte)} (hcheck : p.check = none)
    (hadm : admitted s.params.memBytes p.ins p.outs = true) (hread : readRegions s.mem p.ins = some bss)
    (hcompute : p.compute bss = .error f) : PlanFault s p f

theorem PlanFault.run {s : State} {p : Plan} {f : FaultRecord} (h : PlanFault s p f) :
    s.runPlan p = .next (s.takeFault f) := by
  cases h with
  | check hcheck => exact runPlan_check hcheck
  | regions hcheck hadm => exact runPlan_not_admitted hcheck hadm
  | compute hcheck hadm hread hcompute => exact runPlan_error hcheck hadm hread hcompute

/-- A fault touches neither the parameters nor the memory, all that a plan's fault depends on. -/
theorem PlanFault.after_takeFault {s : State} {p : Plan} {f : FaultRecord} (h : PlanFault s p f)
    (g : FaultRecord) : PlanFault (s.takeFault g) p f := by
  cases h with
  | check hcheck => exact .check hcheck
  | regions hcheck hadm => exact .regions hcheck hadm
  | compute hcheck hadm hread hcompute => exact .compute hcheck hadm hread hcompute

/-- A run that leaves ERR other than 0 is one of the plan's faults. -/
theorem runPlan_fault {s t : State} {p : Plan} (h : s.runPlan p = .next t) (herr : t.err ≠ 0) :
    ∃ f, PlanFault s p f ∧ t = s.takeFault f := by
  rcases runPlan_cases h with
    ⟨f, hc, rfl⟩ | ⟨hc, ha, rfl⟩ | ⟨hc, ha, bss, hb, ⟨f, hf, rfl⟩ | ⟨r, _, rfl⟩⟩
  · exact ⟨f, .check hc, rfl⟩
  · exact ⟨_, .regions hc ha, rfl⟩
  · exact ⟨f, .compute hc ha hb hf, rfl⟩
  · exact absurd (succeed_err _ _ _) herr

/-- A command that faults has a plan, one of whose faults it takes: NOP and SRESET leave ERR 0. -/
theorem exec_fault {i : Instr} {s t : State} (h : exec i s = .next t) (herr : t.err ≠ 0) :
    ∃ p f, commandPlan s i = some p ∧ PlanFault s p f ∧ t = s.takeFault f := by
  rcases exec_cases i s with ⟨_, hrun⟩ | ⟨_, hrun⟩ | ⟨p, hp, hrun⟩ <;> rw [hrun] at h
  · cases h
    exact absurd (succeed_err s 0 0) herr
  · cases h
    exact absurd (by decide : (0 : Word).extractLsb' 4 4 = 0) herr
  · obtain ⟨f, hf, ht⟩ := runPlan_fault h herr
    exact ⟨p, f, hp, hf, ht⟩

theorem sameOperands_takeFault (s : State) (f : FaultRecord) : SameOperands s (s.takeFault f) :=
  ⟨rfl, rfl, rfl, rfl, rfl, rfl, rfl, rfl, rfl, rfl, rfl, rfl, rfl⟩

theorem takeFault_takeFault (s : State) (f g : FaultRecord) : (s.takeFault f).takeFault g = s.takeFault g := rfl

/-- Settles O18: the fault leaves the plan, the parameters and the memory as they were, so the plan faults again, and
the same record is written over itself. -/
theorem faultRepeats : Obligations.FaultRepeats := by
  intro i s t h herr
  obtain ⟨p, f, hp, hf, rfl⟩ := exec_fault h herr
  have hp' : commandPlan (s.takeFault f) i = some p :=
    (commandPlan_congr (sameOperands_takeFault s f) i).trans hp
  rw [exec_eq_runPlan hp', (hf.after_takeFault f).run, takeFault_takeFault]

/-! ### Which commands fail which check (R151) -/

/-- The FMT codes are those of the PixelFormats (R82). -/
theorem ofCode_eq_some_iff {fmt : Nat} {f : PixelFormat} : PixelFormat.ofCode fmt = some f ↔ f.code = fmt := by
  constructor
  · intro h
    simp only [PixelFormat.ofCode] at h
    split at h <;> cases h <;> rfl
  · rintro rfl
    cases f <;> rfl

theorem firstFault_mem {l : List (Bool × FaultRecord)} {f : FaultRecord} (h : firstFault l = some f) :
    (true, f) ∈ l := by
  induction l with
  | nil => cases h
  | cons e l ih =>
    obtain ⟨bad, g⟩ := e
    rw [firstFault_cons] at h
    split at h
    next hbad => cases h; rw [hbad]; exact List.mem_cons_self
    next => exact List.mem_cons_of_mem _ (ih h)

theorem formatUnknown_tex {i : Instr} (h : formatUnknown i = true) :
    i = .texEnc i.fmtField ∨ i = .texDec i.fmtField := by
  cases i
  case texEnc => exact .inl rfl
  case texDec => exact .inr rfl
  all_goals cases h

theorem operandIllegal_commands {s : State} {i : Instr} (h : operandIllegal s i = true) :
    i ∈ [Instr.quant, .qmap, .plut, .tileF, .tileI] ∨ ∃ f, i = .texEnc f ∨ i = .texDec f := by
  cases i
  case texEnc f => exact .inr ⟨f, .inl rfl⟩
  case texDec f => exact .inr ⟨f, .inr rfl⟩
  case quant | qmap | plut | tileF | tileI => left; decide
  all_goals cases h

theorem dimensionsIllegal_commands {s : State} {i : Instr} (h : dimensionsIllegal s i = true) :
    i ∈ [Instr.quant, .qmap, .tileF, .tileI, .mipDown, .mipChain] ∨ ∃ f, i = .texEnc f ∨ i = .texDec f := by
  cases i
  case texEnc f => exact .inr ⟨f, .inl rfl⟩
  case texDec f => exact .inr ⟨f, .inr rfl⟩
  case quant | qmap | tileF | tileI | mipDown | mipChain => left; decide
  all_goals cases h

/-! ### Too many colours (R61, R155) -/

/-- The fault of a strict palette that does not hold the colours of `px`. -/
def tooManyColours (px : List Pixel) : FaultRecord :=
  ⟨.tooManyUniqueColors, BitVec.ofNat 32 (distinctColours px)⟩

/-- BuildPalette faults for no other reason. -/
theorem buildPalette_error {px : List Pixel} {k : Nat} {strict : Bool} {f : FaultRecord}
    (h : buildPalette px k strict = .error f) : f = tooManyColours px := by
  by_cases hfit : distinctColours px ≤ k
  · cases (buildPalette_exact hfit strict).symm.trans h
  · have hmany := Nat.lt_of_not_le hfit
    cases strict with
    | false => cases (buildPalette_cut hmany).symm.trans h
    | true => cases (buildPalette_tooMany hmany).symm.trans h; rfl

theorem quantPlan_error_iff (s : State) (v : List Byte) (f : FaultRecord) :
    (quantPlan s).compute [v] = .error f ↔
      buildPalette (pixelsOf (rasterPixels s) v) s.palsize.toNat s.optStrict = .error f := by
  have hnames : buildPalette (pixelsOf (rasterPixels s) v) s.palsize.toNat s.optStrict =
    buildPalette (pixelsOf (s.widthVal * s.heightVal) v) s.palsizeVal s.optStrict := rfl
  simp only [quantPlan, List.headD_cons, hnames]
  split
  next e he => simp [he]
  next pal hpal => simp [hpal]

theorem texEncFormatPlan_error_iff (s : State) (g : PixelFormat) (v : List Byte) (f : FaultRecord) :
    (texEncFormatPlan g s).compute [v] = .error f ↔
      encodePalette s g (rasterOf s.width.toNat s.height.toNat v) = .error f := by
  have hnames : rasterOf s.width.toNat s.height.toNat v = rasterOf s.widthVal s.heightVal v := rfl
  simp only [texEncFormatPlan, List.headD_cons, hnames]
  split
  next e he => simp [he]
  next pal hpal => simp [hpal]

/-- The plans of the commands that build a palette read the raster at SRC alone. -/
theorem readRegions_raster {s : State} {bss : List (List Byte)}
    (h : readRegions s.mem [⟨s.srcAddr, 4 * (s.widthVal * s.heightVal)⟩] = some bss) :
    ∃ v, s.mem.readBytes s.src.toNat (4 * rasterPixels s) = some v ∧ bss = [v] := by
  rw [readRegions_single] at h
  obtain ⟨v, hv, rfl⟩ := Option.map_eq_some_iff.1 h
  exact ⟨v, hv, rfl⟩

/-- A command that passes its checks and computes a fault from its raster ends with that fault. -/
theorem exec_rasterFault {s : State} {i : Instr} {p : Plan} {v : List Byte} {f : FaultRecord}
    (hacc : Accepted s i) (hp : commandPlan s i = some p)
    (hins : p.ins = [⟨s.src.toNat, 4 * rasterPixels s⟩])
    (hread : s.mem.readBytes s.src.toNat (4 * rasterPixels s) = some v)
    (hcompute : p.compute [v] = .error f) :
    exec i s = .next (faulted s f.err.code.toNat f.info) := by
  obtain ⟨hcheck, _, hadm⟩ := accepted_plan hacc hp
  have hregions : readRegions s.mem p.ins = some [v] := by
    rw [hins, readRegions_single, hread, Option.map_some]
  rw [exec_eq_runPlan hp, (PlanFault.compute hcheck hadm hregions hcompute).run, takeFault_eq_faulted]

/-- TEX.ENC of a format with a palette, strict, with more colours than PALSIZE. -/
theorem exec_texEnc_tooManyColours {s : State} {g : PixelFormat} {cap : Nat} (hcap : g.cap = some cap)
    {v : List Byte} (hacc : Accepted s (.texEnc g.code))
    (hread : s.mem.readBytes s.src.toNat (4 * rasterPixels s) = some v) (hstrict : s.optStrict = true)
    (hmany : s.palsize.toNat < distinctColours (pixelsOf (rasterPixels s) v)) :
    exec (.texEnc g.code) s =
      .next (faulted s 4 (BitVec.ofNat 32 (distinctColours (pixelsOf (rasterPixels s) v)))) := by
  refine exec_rasterFault hacc (commandPlan_texEnc g s) rfl hread
    ((texEncFormatPlan_error_iff s g v (tooManyColours (pixelsOf (rasterPixels s) v))).2 ?_)
  rw [encodePalette_some hcap, hstrict]
  exact buildPalette_tooMany hmany

/-- Settles O38: the palette that QUANT and TEX.ENC of INDEX4 and INDEX8 build before they write is the fault. -/
theorem tooManyColoursFaults : Obligations.TooManyColoursFaults := by
  intro i s v hi hacc hread hstrict hmany
  simp only [List.mem_cons, List.not_mem_nil, or_false] at hi
  rcases hi with rfl | rfl | rfl
  · refine exec_rasterFault hacc rfl rfl hread
      ((quantPlan_error_iff s v (tooManyColours (pixelsOf (rasterPixels s) v))).2 ?_)
    rw [hstrict]
    exact buildPalette_tooMany hmany
  · exact exec_texEnc_tooManyColours (g := .index4) rfl hacc hread hstrict hmany
  · exact exec_texEnc_tooManyColours (g := .index8) rfl hacc hread hstrict hmany

/-! ### The faults of each command (R151) -/

/-- The faults R151 lists for a command, the state giving the number of colours. -/
inductive ListedFault (s : State) (i : Instr) : FaultRecord → Prop
  | dimensions (hi : i ∈ [Instr.quant, .qmap, .tileF, .tileI, .mipDown, .mipChain] ∨
      ∃ f, i = .texEnc f ∨ i = .texDec f) : ListedFault s i badDimensions
  | format {f : Nat} (hi : i = .texEnc f ∨ i = .texDec f) : ListedFault s i (unknownFormat f)
  | colours {v : List Byte} (hread : s.mem.readBytes s.src.toNat (4 * rasterPixels s) = some v)
    (hi : i = .quant ∨ i = .texEnc 8 ∨ i = .texEnc 9) :
    ListedFault s i (tooManyColours (pixelsOf (rasterPixels s) v))
  | operand (hi : i ∈ [Instr.quant, .qmap, .plut, .tileF, .tileI] ∨ ∃ f, i = .texEnc f ∨ i = .texDec f) :
    ListedFault s i badOperand
  | regions (hnop : i ≠ .nop) (hsreset : i ≠ .sreset) : ListedFault s i ⟨.addressError, 0⟩

theorem registerCheck_listed {s : State} {i : Instr} {f : FaultRecord}
    (h : firstFault (registerChecks s i) = some f) : ListedFault s i f := by
  have hmem := firstFault_mem h
  simp only [registerChecks, List.mem_cons, List.not_mem_nil, or_false, Prod.mk.injEq] at hmem
  rcases hmem with ⟨hbad, rfl⟩ | ⟨hbad, rfl⟩ | ⟨hbad, rfl⟩
  · exact .format (formatUnknown_tex hbad.symm)
  · exact .operand (operandIllegal_commands hbad.symm)
  · exact .dimensions (dimensionsIllegal_commands hbad.symm)

/-- The two formats with a palette. -/
theorem cap_eq_some {g : PixelFormat} {cap : Nat} (h : g.cap = some cap) : g = .index4 ∨ g = .index8 := by
  cases g
  case index4 => exact .inl rfl
  case index8 => exact .inr rfl
  all_goals cases h

/-- TEX.ENC computes a fault only where it builds a palette (R110). -/
theorem texEncPlan_listed {s : State} {fmt : Nat} {bss : List (List Byte)} {f : FaultRecord}
    (hcheck : (texEncPlan fmt s).check = none) (hread : readRegions s.mem (texEncPlan fmt s).ins = some bss)
    (h : (texEncPlan fmt s).compute bss = .error f) : ListedFault s (.texEnc fmt) f := by
  cases hcode : PixelFormat.ofCode fmt with
  | none =>
    simp only [texEncPlan, hcode] at hcheck
    cases hcheck
  | some g =>
    simp only [texEncPlan, hcode] at hread h
    obtain ⟨v, hv, rfl⟩ := readRegions_raster hread
    rw [texEncFormatPlan_error_iff] at h
    cases hcap : g.cap with
    | none => cases (encodePalette_none hcap s _).symm.trans h
    | some cap =>
      rw [encodePalette_some hcap] at h
      obtain rfl := ofCode_eq_some_iff.1 hcode
      cases buildPalette_error h
      refine .colours hv (.inr ?_)
      rcases cap_eq_some hcap with rfl | rfl
      · exact .inl rfl
      · exact .inr rfl

/-- TEX.DEC computes no fault: those it has are found before it reads (R119). -/
theorem texDecPlan_compute {s : State} {fmt : Nat} (hcheck : (texDecPlan fmt s).check = none)
    (bss : List (List Byte)) (f : FaultRecord) : (texDecPlan fmt s).compute bss ≠ .error f := by
  cases hcode : PixelFormat.ofCode fmt with
  | none =>
    simp only [texDecPlan, hcode] at hcheck
    cases hcheck
  | some g =>
    simp only [texDecPlan, hcode, texDecFormatPlan] at hcheck ⊢
    split at hcheck
    next => cases hcheck
    next hlevel => rw [if_neg hlevel]; exact nofun

/-- Only QUANT, PLUT and TEX.ENC compute a fault from their input. -/
theorem commandPlan_compute_listed {s : State} {i : Instr} {p : Plan} {bss : List (List Byte)}
    {f : FaultRecord} (hp : commandPlan s i = some p) (hcheck : p.check = none)
    (hread : readRegions s.mem p.ins = some bss) (h : p.compute bss = .error f) : ListedFault s i f := by
  cases i <;> cases hp
  case quant =>
    obtain ⟨v, hv, rfl⟩ := readRegions_raster hread
    cases buildPalette_error ((quantPlan_error_iff s v f).1 h)
    exact .colours hv (.inl rfl)
  case plut =>
    simp only [plutPlan] at h
    split at h <;> cases h
    exact .operand (.inl (by decide))
  case texEnc fmt => exact texEncPlan_listed hcheck hread h
  case texDec fmt => exact absurd h (texDecPlan_compute hcheck bss f)
  all_goals cases h

theorem planFault_listed {s : State} {i : Instr} {p : Plan} {f : FaultRecord} (hp : commandPlan s i = some p)
    (h : PlanFault s p f) : ListedFault s i f := by
  cases h with
  | check hcheck => exact registerCheck_listed ((commandPlan_check hp).symm.trans hcheck)
  | regions => exact .regions (by rintro rfl; cases hp) (by rintro rfl; cases hp)
  | compute hcheck _ hread hcompute => exact commandPlan_compute_listed hp hcheck hread hcompute

/-- Settles O17: the state is `takeFault` of a fault of the command's plan, each of which R151 lists. -/
theorem faultEffect : Obligations.FaultEffect := by
  intro i s t h herr
  obtain ⟨p, f, hp, hf, rfl⟩ := exec_fault h herr
  simp only [takeFault_eq_faulted]
  cases planFault_listed hp hf with
  | dimensions hi => exact .inl ⟨rfl, hi⟩
  | format hi => exact .inr (.inl ⟨_, hi, rfl⟩)
  | colours hread hi => exact .inr (.inr (.inl ⟨_, hread, rfl, hi⟩))
  | operand hi => exact .inr (.inr (.inr (.inl ⟨rfl, hi⟩)))
  | regions hnop hsreset => exact .inr (.inr (.inr (.inr ⟨rfl, hnop, hsreset⟩)))

end Sys2Proof.Machine
end

section
/-! PROOFS. The system commands (R140, R141), the hardware reset (R171, R172), a command that a reset cuts short, and
the parameters over every step (R178). -/

namespace Sys2Proof.Machine

/-! ### System commands (R140, R141) -/

/-- The record of a command that stored nothing. -/
theorem succeed_nothing (s : State) :
    s.succeed 0 0 = { s with status := 1, errinfo := 0, dstlen := 0, pallen := 0 } :=
  congrArg (fun status => { s with status := status, errinfo := 0, dstlen := 0, pallen := 0 })
    (by decide : statusWord true false 0 = 1)

/-- Settles O24: NOP succeeds with both lengths 0. -/
theorem nopEffect : Obligations.NopEffect :=
  ⟨by decide, fun s => congrArg Host.Outcome.next (succeed_nothing s)⟩

/-- Settles O25: SRESET writes the four registers of the record. -/
theorem sresetEffect : Obligations.SresetEffect :=
  ⟨by decide, fun _ => rfl⟩

/-! ### The hardware reset (R171, R172) -/

@[simp] theorem hardwareReset_readReg (s : State) (r : Reg) : s.hardwareReset.readReg r = 0 := by
  cases r <;> rfl

/-- Settles O11: the step is `hardwareReset`, which keeps the memory, the parameters and the host's list. -/
theorem hardwareResetEffect : Obligations.HardwareResetEffect := by
  intro s rest hhost
  exact ⟨_, step_of_host hhost, hardwareReset_readReg _, rfl, rfl, rfl⟩

/-! ### Free bytes (R172) -/

@[simp] theorem freeRegions_host (s : State) (rs : List Region) : (s.freeRegions rs).host = s.host := by
  induction rs generalizing s with
  | nil => rfl
  | cons r rs ih => rw [State.freeRegions, ih, freeBytes_host]

/-- Free bytes are stored in their run alone. -/
theorem read_freeBytes_outside (s : State) {a n x : Nat} (h : x < a ∨ a + n ≤ x) :
    (s.freeBytes a n).mem.read x = s.mem.read x := by
  rw [freeBytes_mem]
  exact read_writeBytes_outside _ _ _ (by simpa using h)

theorem read_freeBytes_inside (s : State) {a n x : Nat} (h : a ≤ x ∧ x < a + n) :
    (s.freeBytes a n).mem.read x ≠ none := by
  rw [freeBytes_mem, read_writeBytes, if_pos (by simpa using h), List.getElem?_eq_getElem (by simp; omega)]
  exact Option.some_ne_none _

theorem read_freeRegions_outside (s : State) {rs : List Region} {x : Nat}
    (h : ∀ o ∈ rs, x < o.start ∨ o.start + o.len ≤ x) : (s.freeRegions rs).mem.read x = s.mem.read x := by
  induction rs generalizing s with
  | nil => rfl
  | cons r rs ih =>
    obtain ⟨hr, hrs⟩ := List.forall_mem_cons.1 h
    rw [State.freeRegions, ih _ hrs, read_freeBytes_outside s hr]

/-- A byte with a value keeps one, whatever regions are freed. -/
theorem read_freeRegions_ne_none {s : State} {x : Nat} (h : s.mem.read x ≠ none) (rs : List Region) :
    (s.freeRegions rs).mem.read x ≠ none := by
  induction rs generalizing s with
  | nil => exact h
  | cons r rs ih =>
    apply ih
    by_cases hx : r.start ≤ x ∧ x < r.start + r.len
    · exact read_freeBytes_inside s hx
    · rwa [read_freeBytes_outside s (by omega)]

theorem read_freeRegions_inside (s : State) {rs : List Region} {o : Region} (ho : o ∈ rs) {x : Nat}
    (hx : o.Covers x) : (s.freeRegions rs).mem.read x ≠ none := by
  induction rs generalizing s with
  | nil => cases ho
  | cons r rs ih =>
    rcases List.mem_cons.1 ho with rfl | ho
    · exact read_freeRegions_ne_none (read_freeBytes_inside s hx) rs
    · exact ih _ ho

/-! ### The regions a running command holds (R26, R175) -/

/-- The command passes every check of steps 2 to 5 of R86. -/
def ChecksPass (s : State) (i : Instr) : Prop :=
  formatUnknown i = false ∧ operandIllegal s i = false ∧ dimensionsIllegal s i = false ∧
    regionsAdmitted s i = true

theorem not_checksPass {s : State} {i : Instr} (h : formatUnknown i = true ∨ operandIllegal s i = true ∨
    dimensionsIllegal s i = true ∨ regionsAdmitted s i = false) : ¬ ChecksPass s i := by
  rintro ⟨hformat, hoperand, hdims, hregions⟩
  simp [hformat, hoperand, hdims, hregions] at h

/-- No check fails exactly when every condition is false. -/
theorem firstFault_eq_none_iff {l : List (Bool × FaultRecord)} :
    firstFault l = none ↔ ∀ e ∈ l, e.1 = false := by
  induction l with
  | nil => simp
  | cons e l ih =>
    obtain ⟨bad, f⟩ := e
    cases bad <;> simp [ih]

theorem registerChecks_eq_none_iff {s : State} {i : Instr} : firstFault (registerChecks s i) = none ↔
    formatUnknown i = false ∧ operandIllegal s i = false ∧ dimensionsIllegal s i = false := by
  rw [firstFault_eq_none_iff]
  simp [registerChecks]

/-- A plan holds the output regions of its command's rule if the command passes its checks, and none otherwise. -/
theorem outputsHeld_eq {s : State} {i : Instr} {p : Plan} (hp : commandPlan s i = some p) :
    (ChecksPass s i → p.outputsHeld s.params.memBytes = outputRegions s i) ∧
      (¬ ChecksPass s i → p.outputsHeld s.params.memBytes = []) := by
  rw [Plan.outputsHeld, commandPlan_check hp]
  cases hcheck : firstFault (registerChecks s i) with
  | some f =>
    refine ⟨fun ⟨hformat, hoperand, hdims, _⟩ => ?_, fun _ => rfl⟩
    cases hcheck.symm.trans (registerChecks_eq_none_iff.2 ⟨hformat, hoperand, hdims⟩)
  | none =>
    obtain ⟨hformat, hoperand, hdims⟩ := registerChecks_eq_none_iff.1 hcheck
    obtain ⟨hins, houts⟩ := commandPlan_regions hp hoperand
    rw [hins, houts]
    exact ⟨fun ⟨_, _, _, hadm⟩ => if_pos hadm,
      fun h => if_neg fun hadm => h ⟨hformat, hoperand, hdims, hadm⟩⟩

theorem heldRegions_undecoded {w : Word} {s : State} (h : ∀ i, decode w ≠ .ok i) : heldRegions w s = [] := by
  cases hdec : decode w with
  | error e => simp only [heldRegions, hdec]
  | ok i => exact absurd hdec (h i)

/-- A word that decodes holds its command's output regions or none; NOP and SRESET have none to hold. -/
theorem heldRegions_decoded {w : Word} {i : Instr} (hdec : decode w = .ok i) (s : State) :
    (ChecksPass s i → heldRegions w s = outputRegions s i) ∧ (¬ ChecksPass s i → heldRegions w s = []) := by
  cases hp : commandPlan s i with
  | none =>
    have hnone : heldRegions w s = [] := by simp only [heldRegions, hdec, hp]
    refine ⟨fun _ => hnone.trans ?_, fun _ => hnone⟩
    cases i <;> cases hp <;> rfl
  | some p =>
    have hheld : heldRegions w s = p.outputsHeld s.params.memBytes := by simp only [heldRegions, hdec, hp]
    rw [hheld]
    exact outputsHeld_eq hp

theorem heldRegions_subset {w : Word} {i : Instr} (hdec : decode w = .ok i) (s : State) :
    heldRegions w s ⊆ outputRegions s i := by
  obtain ⟨hpass, hfail⟩ := heldRegions_decoded hdec s
  by_cases h : ChecksPass s i
  · rw [hpass h]; exact List.Subset.refl _
  · rw [hfail h]; exact List.nil_subset _

/-- The host's pending actions are no operand of a command. -/
theorem heldRegions_host (w : Word) (s : State) (rest : List HostAction) :
    heldRegions w { s with host := rest } = heldRegions w s := by
  have hplan : ∀ i, commandPlan { s with host := rest } i = commandPlan s i :=
    commandPlan_congr ⟨rfl, rfl, rfl, rfl, rfl, rfl, rfl, rfl, rfl, rfl, rfl, rfl, rfl⟩
  simp only [heldRegions, hplan]

theorem hostCut_idle {s : State} (w : Word) (hbusy : s.busy = false) :
    hostCut w s = .next (cutCommand w s) := by
  simp [hostCut, hbusy]

/-- Settles O12: the memory is that of `freeRegions` on the regions the command holds, which are its output regions
when it passes its checks and none when it is no command or fails one. -/
theorem resetDuringCommand : Obligations.ResetDuringCommand := by
  intro s w rest hhost hbusy
  have hmem : (cutCommand w { s with host := rest }).mem =
      (State.freeRegions { s with host := rest } (heldRegions w s)).mem := by
    rw [← heldRegions_host w s rest]; rfl
  refine ⟨cutCommand w { s with host := rest }, (step_of_host hhost).trans (hostCut_idle w hbusy),
    hardwareReset_readReg _, freeRegions_params _ _, freeRegions_host _ _, fun hno => ?_, fun i hdec => ?_⟩
  · rw [hmem, heldRegions_undecoded hno]; rfl
  · obtain ⟨hpass, hfail⟩ := heldRegions_decoded hdec s
    rw [hmem]
    refine ⟨fun a ha => read_freeRegions_outside _ fun o ho => ha o (heldRegions_subset hdec s ho),
      fun ⟨_, hchecks⟩ o ho a hle hlt => ?_, fun hbad => ?_⟩
    · rw [hpass hchecks]
      exact read_freeRegions_inside _ ho ⟨hle, hlt⟩
    · rw [hfail (not_checksPass hbad)]; rfl

/-! ### The parameters (R178) -/

theorem startCommand_params {w : Word} {s t : State} (h : startCommand w s = .next t) :
    t.params = s.params := by
  simp only [startCommand] at h
  split at h
  · cases h; rfl
  · exact (exec_registersKept h).params

theorem hostWriteReg_params {width : AccessWidth} {o : Nat} {v : Word} {s t : State}
    (h : hostWriteReg width o v s = .next t) : t.params = s.params := by
  simp only [hostWriteReg] at h
  split_ifs at h
  · exact startCommand_params h
  · cases h
    obtain ⟨_, hparams, _⟩ := writeWindow_keeps s o v
    exact hparams

theorem hostLoad_params {a : Nat} {s t : State} (h : hostLoad a s = .next t) : t.params = s.params := by
  simp only [hostLoad] at h
  split_ifs at h
  split at h <;> cases h
  rfl

/-- No action of the host changes the parameters. -/
theorem hostAction_params {a : HostAction} {s t : State} (h : hostAction a s = .next t) :
    t.params = s.params := by
  cases a with
  | writeReg width o v => exact hostWriteReg_params h
  | readReg width o =>
    simp only [hostAction, hostReadReg] at h
    split_ifs at h
    cases h; rfl
  | storeMem a bs =>
    simp only [hostAction, hostStore] at h
    split_ifs at h
    cases h; rfl
  | loadMem a => exact hostLoad_params h
  | reset => cases h; rfl
  | cutByReset w =>
    simp only [hostAction, hostCut] at h
    split_ifs at h
    cases h
    exact freeRegions_params _ _

/-- Settles O15: an idle step changes nothing, and no action of the host changes the parameters. -/
theorem parametersConstant : Obligations.ParametersConstant := by
  intro s t h
  rcases step_cases h with ⟨_, rfl⟩ | ⟨a, rest, _, ha⟩
  · rfl
  · exact (hostAction_params ha).trans rfl

end Sys2Proof.Machine
end

section
/-! PROOFS. The bytes a command writes (R16, R177): every run it stores stands at DST with at most DSTLEN bytes, or, for
QUANT, at AUX with at most 4 × PALLEN, and both lengths fit their registers. -/

namespace Sys2Proof.Machine

/-! ### A plan with one output region, at DST -/

/-- The plan's one output region is the DSTLEN bytes from DST, and a plan that reads no byte has none there. -/
structure OutputAtDst (s : State) (p : Plan) : Prop where
  outs : ∀ bss r, p.compute bss = .ok r → p.outs = [⟨s.dst.toNat, r.dstlen⟩]
  ins : p.check = none → ∀ o ∈ p.outs, o.len ≠ 0 → ∃ q ∈ p.ins, q.len ≠ 0

theorem streamPlan_outputAtDst {s : State} {m n : Nat} {f : List Byte → List Byte} (h : n ≠ 0 → m ≠ 0) :
    OutputAtDst s (streamPlan s m n f) where
  outs _ _ hr := by cases hr; rfl
  ins _ o ho hne := by
    cases List.mem_singleton.1 ho
    exact ⟨_, List.mem_singleton_self _, h hne⟩

theorem faulting_outputAtDst (s : State) (f : FaultRecord) : OutputAtDst s (Plan.faulting f) := ⟨nofun, nofun⟩

theorem qmapPlan_outputAtDst (s : State) : OutputAtDst s (qmapPlan s) where
  outs _ _ hr := by cases hr; rfl
  ins _ o ho hne := by
    cases List.mem_singleton.1 ho
    exact ⟨_, List.mem_cons_self, Nat.mul_ne_zero (by decide) hne⟩

theorem plutPlan_outputAtDst (s : State) : OutputAtDst s (plutPlan s) where
  outs bss r hr := by
    simp only [plutPlan] at hr
    split at hr <;> cases hr
    rfl
  ins _ o ho hne := by
    cases List.mem_singleton.1 ho
    exact ⟨_, List.mem_cons_self, Nat.ne_zero_of_mul_ne_zero_right hne⟩

theorem tilerPlan_outputAtDst (s : State) (move : List (List Byte) → List (List Byte)) :
    OutputAtDst s (tilerPlan s move) where
  outs _ _ hr := by cases hr; rfl
  ins _ o ho hne := by
    cases List.mem_singleton.1 ho
    exact ⟨_, List.mem_singleton_self _, hne⟩

/-- The raster of a command whose dimensions are in range has a byte. -/
theorem rasterBytes_ne_zero {w h : Nat} (hd : dimsOutOfRange w h = false) : 4 * (w * h) ≠ 0 := by
  obtain ⟨hw, _, hh, _⟩ := dimsOutOfRange_false hd
  exact Nat.mul_ne_zero (by decide) (Nat.mul_pos hw hh).ne'

theorem mipDownPlan_outputAtDst (s : State) : OutputAtDst s (mipDownPlan s) where
  outs _ _ hr := by cases hr; rfl
  ins hcheck _ _ _ :=
    ⟨_, List.mem_singleton_self _, rasterBytes_ne_zero (firstFault_eq_none_cons hcheck).1⟩

theorem mipChainPlan_outputAtDst (s : State) : OutputAtDst s (mipChainPlan s) where
  outs _ _ hr := by cases hr; rfl
  ins hcheck _ _ _ :=
    ⟨_, List.mem_singleton_self _, rasterBytes_ne_zero (firstFault_eq_none_cons hcheck).1⟩

theorem texEncPlan_outputAtDst (fmt : Nat) (s : State) : OutputAtDst s (texEncPlan fmt s) := by
  rw [texEncPlan]
  split
  next f _ =>
    refine ⟨fun bss r hr => ?_, fun hcheck _ _ _ => ⟨_, List.mem_singleton_self _, ?_⟩⟩
    · simp only [texEncFormatPlan] at hr
      split at hr <;> cases hr
      rfl
    · obtain ⟨_, hrest⟩ := firstFault_eq_none_cons hcheck
      obtain ⟨⟨hw, _, hh, _⟩, _⟩ := dimsNotTiled_false (firstFault_eq_none_cons hrest).1
      exact Nat.mul_ne_zero (by decide) (Nat.mul_pos hw hh).ne'
  next => exact faulting_outputAtDst s _

theorem texDecPlan_outputAtDst {s : State} (hvalid : s.params.valid = true) (fmt : Nat) :
    OutputAtDst s (texDecPlan fmt s) := by
  rw [texDecPlan]
  split
  next f _ =>
    rw [texDecFormatPlan]
    split
    next => exact faulting_outputAtDst s _
    next =>
      have hlevel := levelBytes_pos hvalid f (w := levelDim s.widthVal s.level.toNat)
        (h := levelDim s.heightVal s.level.toNat) (Nat.le_max_left _ _) (Nat.le_max_left _ _)
      exact ⟨fun _ _ hr => by cases hr; rfl,
        fun _ _ _ _ => ⟨_, List.mem_cons_of_mem _ (List.mem_singleton_self _), hlevel.ne'⟩⟩
  next => exact faulting_outputAtDst s _

theorem elementSize_ne_zero (f : Encoding) : f.elementSize ≠ 0 := by cases f <;> decide

theorem cvtEPlan_outputAtDst (f : Encoding) (s : State) : OutputAtDst s (cvtEPlan f s) :=
  streamPlan_outputAtDst fun h => Nat.mul_ne_zero (by decide) (Nat.ne_zero_of_mul_ne_zero_right h)

theorem cvtDPlan_outputAtDst (f : Encoding) (s : State) : OutputAtDst s (cvtDPlan f s) :=
  streamPlan_outputAtDst fun h =>
    Nat.mul_ne_zero (elementSize_ne_zero f) (Nat.ne_zero_of_mul_ne_zero_right h)

theorem packPlan_outputAtDst (w : Nat) (s : State) : OutputAtDst s (packPlan w s) :=
  streamPlan_outputAtDst fun h hzero => h (by simp [packedLen, ceilDiv, hzero])

theorem unpackPlan_outputAtDst {w : Nat} (hw : 1 ≤ w) (s : State) : OutputAtDst s (unpackPlan w s) :=
  streamPlan_outputAtDst fun h => by
    have hbits := Nat.mul_pos (Nat.pos_of_ne_zero h) hw
    rw [packedLen, ceilDiv]
    omega

/-- Every command but QUANT has its one output region at DST. -/
theorem commandPlan_outputAtDst {s : State} (hvalid : s.params.valid = true) {i : Instr} {p : Plan}
    (hp : commandPlan s i = some p) (hi : i ≠ .quant) : OutputAtDst s p := by
  cases i <;> cases hp
  case quant => exact absurd rfl hi
  case pack1 | pack2 | pack4 => exact packPlan_outputAtDst _ s
  case unpack1 | unpack2 | unpack4 => exact unpackPlan_outputAtDst (by decide) s
  case qmap => exact qmapPlan_outputAtDst s
  case plut => exact plutPlan_outputAtDst s
  case bcEnc | bcDec =>
    exact streamPlan_outputAtDst fun h => Nat.mul_ne_zero (by decide) (Nat.ne_zero_of_mul_ne_zero_right h)
  case tileF | tileI => exact tilerPlan_outputAtDst s _
  case mipDown => exact mipDownPlan_outputAtDst s
  case mipChain => exact mipChainPlan_outputAtDst s
  case texEnc fmt => exact texEncPlan_outputAtDst fmt s
  case texDec fmt => exact texDecPlan_outputAtDst hvalid fmt
  case cvtDI4 | cvtDI8 | cvtDIA44 | cvtDIA88 | cvtDRGB565 | cvtDRGB5A3 | cvtDARGB8888 | cvtDARGB4444 =>
    exact cvtDPlan_outputAtDst _ s
  all_goals exact cvtEPlan_outputAtDst _ s

/-! ### The runs a command stores -/

/-- Every run of a result stands at DST and is in DSTLEN, or is QUANT's palette, and what it needs of both lengths
fits its register (R16, R177). -/
structure RecordedWrites (s : State) (i : Instr) (r : Result) : Prop where
  runs : ∀ w ∈ r.writes, (w.1 = s.dst.toNat ∧ w.2.length ≤ r.dstlen) ∨
    (i = .quant ∧ w.1 = s.aux.toNat ∧ w.2.length ≤ 4 * r.pallen)
  dstlen_lt : r.dstlen < 2 ^ 32
  pallen_lt : i = .quant → r.pallen < 2 ^ 32

/-- The plan passes its checks, is admitted, and computes a result from the bytes of its input (steps 2 to 6 of R86). -/
structure PlanComputes (s : State) (p : Plan) (bss : List (List Byte)) (r : Result) : Prop where
  check : p.check = none
  adm : admitted s.params.memBytes p.ins p.outs = true
  read : readRegions s.mem p.ins = some bss
  compute : p.compute bss = .ok r

/-- What a plan stores is in its one output region, whose length fits DSTLEN since an input byte lies outside it
(R26). -/
theorem OutputAtDst.recordedWrites {s : State} (hvalid : s.params.valid = true) {p : Plan}
    (hout : OutputAtDst s p) (hinside : WritesInside p) {bss : List (List Byte)} {r : Result}
    (h : PlanComputes s p bss r) {i : Instr} (hi : i ≠ .quant) : RecordedWrites s i r where
  runs w hw := by
    obtain ⟨o, ho, hstart, hlen⟩ := hinside h.check bss r (readRegions_lengths h.read) h.compute w hw
    rw [hout.outs bss r h.compute] at ho
    cases List.mem_singleton.1 ho
    exact .inl ⟨hstart.symm, hlen⟩
  dstlen_lt := by
    have ho : Region.mk s.dst.toNat r.dstlen ∈ p.outs := by
      rw [hout.outs bss r h.compute]; exact List.mem_singleton_self _
    by_cases hzero : r.dstlen = 0
    · rw [hzero]; exact Nat.two_pow_pos 32
    · obtain ⟨q, hq, hne⟩ := hout.ins h.check _ ho hzero
      exact admitted_output_lt hvalid h.adm hq ho fun _ => hne
  pallen_lt hquant := absurd hquant hi

/-- QUANT stores the palette at AUX and the index bytes at DST. -/
theorem quantPlan_recordedWrites {s : State} (hvalid : s.params.valid = true) {bss : List (List Byte)}
    {r : Result} (h : PlanComputes s (quantPlan s) bss r) : RecordedWrites s .quant r := by
  obtain ⟨hcheck, hadm, hread, hr⟩ := h
  obtain ⟨v, _, rfl⟩ := readRegions_raster hread
  obtain ⟨hk, hcap⟩ := palsizeIllegal_false (firstFault_eq_none_cons hcheck).1
  cases hbuild : buildPalette (pixelsOf (rasterPixels s) v) s.palsize.toNat s.optStrict with
  | error f => cases ((quantPlan_error_iff s v f).2 hbuild).symm.trans hr
  | ok pal =>
    cases (quantPlan_compute hbuild).symm.trans hr
    have hlen : pal.length ≤ s.palsizeVal := buildPalette_length hk hbuild
    have hfits : rasterPixels s < 2 ^ 32 :=
      admitted_output_lt hvalid hadm (List.mem_singleton_self _)
        (List.mem_cons_of_mem _ (List.mem_singleton_self _)) fun h => Nat.mul_ne_zero (by decide) h
    refine ⟨fun w hw => ?_, hfits, fun _ => by simp only; omega⟩
    simp only [List.mem_cons, List.not_mem_nil, or_false] at hw
    rcases hw with rfl | rfl
    · exact .inr ⟨rfl, rfl, (pixelBytes_length pal).le⟩
    · exact .inl ⟨rfl, (indexBytes_length s v pal).le⟩

/-- What every command stores. -/
theorem commandPlan_recordedWrites {s : State} (hvalid : s.params.valid = true) {i : Instr} {p : Plan}
    (hp : commandPlan s i = some p) {bss : List (List Byte)} {r : Result} (h : PlanComputes s p bss r) :
    RecordedWrites s i r := by
  by_cases hi : i = .quant
  · subst hi
    cases hp
    exact quantPlan_recordedWrites hvalid h
  · exact (commandPlan_outputAtDst hvalid hp hi).recordedWrites hvalid (commandPlan_writesInside hp) h hi

/-- A byte outside the lengths of the record keeps its value. -/
theorem RecordedWrites.frame {s : State} {i : Instr} {r : Result} (h : RecordedWrites s i r) {a : Nat}
    (hdst : a < s.dst.toNat ∨ s.dst.toNat + (BitVec.ofNat 32 r.dstlen).toNat ≤ a)
    (haux : i = .quant → a < s.aux.toNat ∨ s.aux.toNat + 4 * (BitVec.ofNat 32 r.pallen).toNat ≤ a) :
    (s.mem.writeAll r.writes).read a = s.mem.read a := by
  rw [BitVec.toNat_ofNat, Nat.mod_eq_of_lt h.dstlen_lt] at hdst
  refine read_writeAll_outside _ _ fun w hw => ?_
  rcases h.runs w hw with ⟨hstart, hlen⟩ | ⟨hi, hstart, hlen⟩
  · omega
  · have haux := haux hi
    rw [BitVec.toNat_ofNat, Nat.mod_eq_of_lt (h.pallen_lt hi)] at haux
    omega

/-- Settles O19: NOP, SRESET and a fault store nothing, and a command that succeeds stores the runs of its result. -/
theorem bytesWritten : Obligations.BytesWritten := by
  intro i s t hvalid h a hdst haux
  rcases exec_cases i s with ⟨_, hrun⟩ | ⟨_, hrun⟩ | ⟨p, hp, hrun⟩ <;> rw [hrun] at h
  · cases h; rfl
  · cases h; rfl
  · rcases runPlan_cases h with
      ⟨f, _, rfl⟩ | ⟨_, _, rfl⟩ | ⟨hcheck, hadm, bss, hread, ⟨f, _, rfl⟩ | ⟨r, hr, rfl⟩⟩
    · rfl
    · rfl
    · rfl
    · exact (commandPlan_recordedWrites hvalid hp ⟨hcheck, hadm, hread, hr⟩).frame hdst haux

end Sys2Proof.Machine
end

section
/-! PROOFS. The Container (R131 to R138): the two flag bytes field by field, the fields of a framed stream at their
offsets, and the reader on a framed stream. -/

namespace Sys2Proof.Machine

/-! ### The flag bytes (R133, R134) -/

theorem isPalette_iff (f : PixelFormat) : f.isPalette = true ↔ f = .index4 ∨ f = .index8 := by
  cases f <;> decide

/-- The three fields of `pixel_format_flags`, a byte. -/
theorem pixelFormatFlags_fields (f : PixelFormat) :
    pixelFormatFlags f < 256 ∧ bitField (pixelFormatFlags f) 0 4 = f.code ∧
      bitField (pixelFormatFlags f) 4 3 = 0 ∧
      bitField (pixelFormatFlags f) 7 1 = if f.isPalette then 1 else 0 := by
  cases f <;> decide

/-- A header whose PALFMT is 0 where its format has no palette (R134). -/
def PalfmtLegal (h : ContainerHeader) : Prop := h.format.isPalette = false → h.palfmt = 0

/-- The fields of `data_attr`, a byte: the two flags, PALFMT, and zeros in 3:2 and 7:6. -/
theorem dataAttr_fields {h : ContainerHeader} (hpal : PalfmtLegal h) :
    dataAttr h < 256 ∧ bitField (dataAttr h) 0 1 = h.mipmaps.toNat ∧
      bitField (dataAttr h) 1 1 = h.externalPalette.toNat ∧ bitField (dataAttr h) 2 2 = 0 ∧
      bitField (dataAttr h) 4 2 = h.palfmt.toNat ∧ bitField (dataAttr h) 6 2 = 0 := by
  have hsum : dataAttr h = h.mipmaps.toNat + 2 * h.externalPalette.toNat + 16 * h.palfmt.toNat := by
    have hpalfmt : (if h.format.isPalette then 16 * h.palfmt.toNat else 0) = 16 * h.palfmt.toNat := by
      split
      next => rfl
      next hnone => rw [hpal (Bool.eq_false_iff.2 hnone)]; rfl
    rw [dataAttr, hpalfmt]
    cases h.mipmaps <;> cases h.externalPalette <;> rfl
  have hm := h.mipmaps.toNat_lt
  have he := h.externalPalette.toNat_lt
  have hp := h.palfmt.isLt
  simp only [bitField_eq, hsum]
  omega

/-! ### The fields of a framed stream (R131 to R136) -/

/-- The texture chunk: a framed stream without its global-index chunk. -/
def textureChunk (h : ContainerHeader) (payload : List Byte) : List Byte :=
  containerFrame { h with globalIndex := none } payload

/-- The global index is in no flag. -/
theorem dataAttr_globalIndex (h : ContainerHeader) (g : Option Word) :
    dataAttr { h with globalIndex := g } = dataAttr h := rfl

theorem containerFrame_eq (h : ContainerHeader) (payload : List Byte) :
    containerFrame h payload = globalIndexChunk h.globalIndex ++ textureChunk h payload := by
  simp [containerFrame, textureChunk, globalIndexChunk, dataAttr_globalIndex]

/-- Every field of a texture chunk, at its offset. -/
structure ChunkFields (bs : List Byte) (h : ContainerHeader) (payload : List Byte) : Prop where
  magic : bs.take 4 = magicGVRT
  size : (bs.drop 4).take 4 = bigEndian 4 (14 + payload.length)
  flags : bs.getD 8 0 = BitVec.ofNat 8 (pixelFormatFlags h.format)
  attr : bs.getD 9 0 = BitVec.ofNat 8 (dataAttr h)
  width : (bs.drop 10).take 2 = bigEndian 2 h.width
  height : (bs.drop 12).take 2 = bigEndian 2 h.height
  rest : bs.drop 14 = payload
  total : bs.length = 14 + payload.length

theorem textureChunk_fields (h : ContainerHeader) (payload : List Byte) :
    ChunkFields (textureChunk h payload) h payload where
  magic := rfl
  size := rfl
  flags := rfl
  attr := rfl
  width := rfl
  height := rfl
  rest := rfl
  total := by
    simp [textureChunk, containerFrame, globalIndexChunk, magicGVRT]
    omega

/-- Every field of a global-index chunk, and what follows it. -/
theorem globalIndexChunk_fields (g : Word) (rest : List Byte) :
    (globalIndexChunk (some g) ++ rest).take 4 = magicGBIX ∧
      ((globalIndexChunk (some g) ++ rest).drop 4).take 4 = bigEndian 4 16 ∧
      ((globalIndexChunk (some g) ++ rest).drop 8).take 4 = bigEndian 4 g.toNat ∧
      (globalIndexChunk (some g) ++ rest).drop 16 = rest ∧
      16 ≤ (globalIndexChunk (some g) ++ rest).length := by
  refine ⟨rfl, rfl, rfl, rfl, ?_⟩
  have hmagic : magicGBIX.length = 4 := rfl
  simp only [List.length_append, globalIndexChunk, bigEndian_length, hmagic]
  omega

/-! ### The reader (R138) -/

theorem toNat_ofNat_byte {v : Nat} (h : v < 256) : (BitVec.ofNat 8 v).toNat = v :=
  (BitVec.toNat_ofNat v 8).trans (Nat.mod_eq_of_lt h)

theorem fromBigEndian_bigEndian_of_lt {n v : Nat} (h : v < 256 ^ n) : fromBigEndian (bigEndian n v) = v := by
  rw [fromBigEndian_bigEndian, Nat.mod_eq_of_lt h]

theorem decide_toNat_eq_one (b : Bool) : decide (b.toNat = 1) = b := by cases b <;> rfl

section Reader
variable {p : Params} {h : ContainerHeader} {payload : List Byte}
  (hdims : dimsNotTiled h.width h.height (formatTile p h.format).w (formatTile p h.format).h = false)
  (hpal : PalfmtLegal h)
  (hlen : payload.length = payloadLen p h.format h.width h.height h.mipmaps h.palfmt.toNat)
  (hfits : 14 + payload.length < 2 ^ 32)
include hdims hpal hlen hfits

/-- The reader accepts a texture chunk and gives back its header and its payload (R138 steps 2 to 8). -/
theorem readTexture_textureChunk (gbix : Option Word) :
    readTexture p gbix (textureChunk h payload) = .ok ({ h with globalIndex := gbix }, payload) := by
  obtain ⟨hmagic, hsize, hflags, hattr, hwidth, hheight, hpayload, hlength⟩ := textureChunk_fields h payload
  obtain ⟨⟨_, hw, _, hh⟩, _⟩ := dimsNotTiled_false hdims
  obtain ⟨hflt, hcode, hzero, hbit⟩ := pixelFormatFlags_fields h.format
  obtain ⟨halt, hmip, hext, hzero2, hpalfmt, hzero6⟩ := dataAttr_fields hpal
  have hnopal : ¬ (h.format.isPalette = false ∧ h.palfmt.toNat ≠ 0) := fun ⟨hnone, hne⟩ =>
    hne (by rw [hpal hnone]; rfl)
  simp only [readTexture, hmagic, hsize, hflags, hattr, hwidth, hheight, hpayload, hlength,
    fromBigEndian_bigEndian_of_lt (n := 4) hfits, fromBigEndian_bigEndian_of_lt (n := 2) (Nat.lt_succ_of_le hw),
    fromBigEndian_bigEndian_of_lt (n := 2) (Nat.lt_succ_of_le hh), toNat_ofNat_byte hflt, toNat_ofNat_byte halt,
    hcode, ofCode_eq_some_iff.2 rfl, hzero, hbit, hzero2, hzero6, hpalfmt, hmip, hext, hdims, hnopal,
    decide_toNat_eq_one, ← hlen]
  simp

/-- The global-index chunk, where there is one, is read back and passed over (R132, R138 step 1). -/
theorem containerRead_containerFrame : containerRead p (containerFrame h payload) = .ok (h, payload) := by
  have htexture := readTexture_textureChunk hdims hpal hlen hfits h.globalIndex
  rw [containerFrame_eq]
  cases hindex : h.globalIndex with
  | none =>
    have hmagic : (textureChunk h payload).take 4 ≠ magicGBIX := by
      rw [(textureChunk_fields h payload).magic]; decide
    rw [hindex] at htexture
    rw [globalIndexChunk, List.nil_append, containerRead, if_neg hmagic, htexture, ← hindex]
  | some g =>
    obtain ⟨hmagic, hsize, hvalue, hrest, hlength⟩ := globalIndexChunk_fields g (textureChunk h payload)
    have hshort : ¬ ((globalIndexChunk (some g) ++ textureChunk h payload).length < 16 ∨
        fromBigEndian (bigEndian 4 16) ≠ 16) := by
      rintro (hlt | hne)
      · omega
      · exact hne (by decide)
    rw [hindex] at htexture
    rw [containerRead, if_pos hmagic, hsize, if_neg hshort, hvalue, hrest,
      fromBigEndian_bigEndian_of_lt (n := 4) g.isLt, BitVec.ofNat_toNat, BitVec.setWidth_eq, htexture, ← hindex]

end Reader

/-! ### The obligation -/

/-- The writer yields the frame but for has_external_palette without an index format (R134). -/
theorem writable_eq_false_iff (h : ContainerHeader) :
    h.writable = false ↔ h.externalPalette = true ∧ h.format ≠ .index4 ∧ h.format ≠ .index8 := by
  rw [← not_or, ← isPalette_iff, ContainerHeader.writable]
  simp [and_comm]

/-- Settles O60: the frame is the global-index chunk and the texture chunk, whose fields the reader finds at their
offsets; the writer answers the frame exactly for the flags it may write. -/
theorem containerRoundTrip : Obligations.ContainerRoundTrip := by
  intro p h payload hdims hpalfmt hlen hfits
  have hpal : PalfmtLegal h := fun hnone => by
    have hformat := (isPalette_iff h.format).not.1 (by simp [hnone])
    exact hpalfmt (fun heq => hformat (.inl heq)) fun heq => hformat (.inr heq)
  refine ⟨containerRead_containerFrame hdims hpal hlen hfits, ?_⟩
  simp only [containerWrite, ← writable_eq_false_iff]
  cases h.writable <;> rfl

end Sys2Proof.Machine
end
